-- ==== Sys2Proof/Word.lean ====
section
/-! DEFINITION. The word types of the block: what the spec treats as bits, each at its one width. -/

namespace Sys2Proof

/-- One byte of MEM or of a message (R50). -/
abbrev Byte := BitVec 8

/-- A 32-bit word of the SHA-256 engine (R171). -/
abbrev Word32 := BitVec 32

/-- A command word: the one length of every command (R70). -/
abbrev CmdWord := BitVec 64

/-- The contents of a general register: REG_BITS = 512 bits (R7, R21). -/
abbrev RegVal := BitVec 512

/-- A 4-bit register number; every value names a register (R21). -/
abbrev Reg := BitVec 4

end Sys2Proof
end

