-- ==== Sys2Proof/Syntax.lean ====
section
/-! DEFINITION. The 27 commands as syntax: one constructor per row of spec/opcode_table.json, its operands the fields
its format uses (R74, R76). -/

namespace Sys2Proof

/-- The width select `w` (R72): W = 256 or W = 512. -/
inductive Width where
  | w256
  | w512
deriving DecidableEq, Repr

/-- W in bits. -/
def Width.bits : Width → Nat
  | .w256 => 256
  | .w512 => 512

/-- W/8, the length of a W-bit value as a byte sequence (R90). -/
def Width.bytes : Width → Nat
  | .w256 => 32
  | .w512 => 64

/-- The byte order `e` of LD and ST (R52, R71). -/
inductive ByteOrder where
  | big
  | little
deriving DecidableEq, Repr

/-- A command (R3, R75). `rd`, `ra`, `rb`, `rc` are the register fields of the same names, `imm` is the immediate, and a
memory operand is `addr` and `len` (R73). -/
inductive Instr where
  | ldi     (rd : Reg) (imm : BitVec 32)
  | ld      (w : Width) (e : ByteOrder) (rd : Reg) (addr len : BitVec 16)
  | st      (w : Width) (e : ByteOrder) (ra : Reg) (addr len : BitVec 16)
  | add     (w : Width) (rd ra rb : Reg)
  | sub     (w : Width) (rd ra rb : Reg)
  | cmp     (w : Width) (ra rb : Reg)
  | mul     (w : Width) (rd ra rb : Reg)
  | mulw    (w : Width) (rd ra rb : Reg)
  | divrem  (w : Width) (rd ra rb rc : Reg)
  | and     (w : Width) (rd ra rb : Reg)
  | or      (w : Width) (rd ra rb : Reg)
  | xor     (w : Width) (rd ra rb : Reg)
  | not     (w : Width) (rd ra : Reg)
  | shl     (w : Width) (rd ra : Reg) (imm : BitVec 32)
  | shr     (w : Width) (rd ra : Reg) (imm : BitVec 32)
  | modred  (w : Width) (rd ra rc : Reg)
  | modadd  (w : Width) (rd ra rb rc : Reg)
  | modsub  (w : Width) (rd ra rb rc : Reg)
  | modmul  (w : Width) (rd ra rb rc : Reg)
  | modpow  (w : Width) (rd ra rb rc : Reg)
  | modinv  (w : Width) (rd ra rc : Reg)
  | shainit
  | shaupd  (addr len : BitVec 16)
  | shafin
  | shadig  (rd : Reg)
  | sha256  (rd : Reg) (addr len : BitVec 16)
  | clrerr
deriving DecidableEq, Repr

end Sys2Proof
end

