-- ==== Sys2Proof/WellFormed.lean ====
section
/-! DEFINITION. When a command term is one of the 27 commands. The fields' types carry every range; the one relation
between fields is that of DIVREM (R78, R125). -/

namespace Sys2Proof

/-- DIVREM's two destinations differ (R125); every other command term is a command. -/
def Instr.wellFormed : Instr → Bool
  | .divrem _ rd _ _ rc => rd != rc
  | _ => true

end Sys2Proof
end

