-- ==== Sys2Proof/Decode.lean ====
section
/-! DEFINITION. The decoder, total on the 64-bit word alone (R79), from the mask and match table of R75; after it the
encoder, from the field positions of R71 and the formats of R74; last the two functions the host asks about. -/

namespace Sys2Proof

/-! ### Fields of the command word (R71) -/

/-- Bits 63:56. -/
def CmdWord.opcode (c : CmdWord) : BitVec 8 := c.extractLsb' 56 8
/-- Bit 55, the width select (R72). -/
def CmdWord.width (c : CmdWord) : Width := if c.getLsbD 55 then .w512 else .w256
/-- Bit 54, the byte order of LD and ST (R52). -/
def CmdWord.order (c : CmdWord) : ByteOrder := if c.getLsbD 54 then .little else .big
/-- Bits 47:44. -/
def CmdWord.rd (c : CmdWord) : Reg := c.extractLsb' 44 4
/-- Bits 43:40. -/
def CmdWord.ra (c : CmdWord) : Reg := c.extractLsb' 40 4
/-- Bits 39:36. -/
def CmdWord.rb (c : CmdWord) : Reg := c.extractLsb' 36 4
/-- Bits 35:32. -/
def CmdWord.rc (c : CmdWord) : Reg := c.extractLsb' 32 4
/-- Bits 31:0. -/
def CmdWord.imm (c : CmdWord) : BitVec 32 := c.extractLsb' 0 32
/-- Bits 15:0, the address of a memory operand (R73). -/
def CmdWord.addr (c : CmdWord) : BitVec 16 := c.extractLsb' 0 16
/-- Bits 31:16, the length of a memory operand (R73). -/
def CmdWord.len (c : CmdWord) : BitVec 16 := c.extractLsb' 16 16

/-! ### The opcode map (R75) -/

/-- The 27 mnemonics. -/
inductive Op where
  | LDI | LD | ST | ADD | SUB | CMP | MUL | MULW | DIVREM | AND | OR | XOR | NOT | SHL | SHR
  | MODRED | MODADD | MODSUB | MODMUL | MODPOW | MODINV | SHAINIT | SHAUPD | SHAFIN | SHADIG | SHA256 | CLRERR
deriving DecidableEq, Repr

/-- One row of the table of R75. -/
structure OpRow where
  op : Op
  mask : CmdWord
  pattern : CmdWord
deriving DecidableEq, Repr

/-- The table of R75, its rows in order. -/
def opRows : List OpRow :=
  [⟨.LDI,     0xFFFF0FFF00000000#64, 0x0100000000000000#64⟩,
   ⟨.LD,      0xFF3F0FFF00000000#64, 0x0200000000000000#64⟩,
   ⟨.ST,      0xFF3FF0FF00000000#64, 0x0300000000000000#64⟩,
   ⟨.ADD,     0xFF7F000FFFFFFFFF#64, 0x1000000000000000#64⟩,
   ⟨.SUB,     0xFF7F000FFFFFFFFF#64, 0x1100000000000000#64⟩,
   ⟨.CMP,     0xFF7FF00FFFFFFFFF#64, 0x1200000000000000#64⟩] ++
  [⟨.MUL,     0xFF7F000FFFFFFFFF#64, 0x2000000000000000#64⟩,
   ⟨.MULW,    0xFF7F000FFFFFFFFF#64, 0x2100000000000000#64⟩,
   ⟨.DIVREM,  0xFF7F0000FFFFFFFF#64, 0x2200000000000000#64⟩,
   ⟨.AND,     0xFF7F000FFFFFFFFF#64, 0x3000000000000000#64⟩,
   ⟨.OR,      0xFF7F000FFFFFFFFF#64, 0x3100000000000000#64⟩,
   ⟨.XOR,     0xFF7F000FFFFFFFFF#64, 0x3200000000000000#64⟩,
   ⟨.NOT,     0xFF7F00FFFFFFFFFF#64, 0x3300000000000000#64⟩,
   ⟨.SHL,     0xFF7F00FF00000000#64, 0x3400000000000000#64⟩,
   ⟨.SHR,     0xFF7F00FF00000000#64, 0x3500000000000000#64⟩] ++
  [⟨.MODRED,  0xFF7F00F0FFFFFFFF#64, 0x4000000000000000#64⟩,
   ⟨.MODADD,  0xFF7F0000FFFFFFFF#64, 0x4100000000000000#64⟩,
   ⟨.MODSUB,  0xFF7F0000FFFFFFFF#64, 0x4200000000000000#64⟩,
   ⟨.MODMUL,  0xFF7F0000FFFFFFFF#64, 0x4300000000000000#64⟩,
   ⟨.MODPOW,  0xFF7F0000FFFFFFFF#64, 0x4400000000000000#64⟩,
   ⟨.MODINV,  0xFF7F00F0FFFFFFFF#64, 0x4500000000000000#64⟩] ++
  [⟨.SHAINIT, 0xFFFFFFFFFFFFFFFF#64, 0x5000000000000000#64⟩,
   ⟨.SHAUPD,  0xFFFFFFFF00000000#64, 0x5100000000000000#64⟩,
   ⟨.SHAFIN,  0xFFFFFFFFFFFFFFFF#64, 0x5200000000000000#64⟩,
   ⟨.SHADIG,  0xFFFF0FFFFFFFFFFF#64, 0x5300000000000000#64⟩,
   ⟨.SHA256,  0xFFFF0FFF00000000#64, 0x5400000000000000#64⟩,
   ⟨.CLRERR,  0xFFFFFFFFFFFFFFFF#64, 0xF000000000000000#64⟩]

/-- The row whose opcode a word has: its first step of decoding (R79). -/
def rowOfOpcode (code : BitVec 8) : Option OpRow := opRows.find? (fun r => r.pattern.extractLsb' 56 8 == code)

/-- A word matches a row when its masked bits are the row's (R75). -/
def OpRow.matchesWord (r : OpRow) (c : CmdWord) : Bool := (c &&& r.mask) == r.pattern

/-- The operands of a matched word (R76). -/
def Op.operands (op : Op) (c : CmdWord) : Instr :=
  match op with
  | .LDI     => .ldi c.rd c.imm
  | .LD      => .ld c.width c.order c.rd c.addr c.len
  | .ST      => .st c.width c.order c.ra c.addr c.len
  | .ADD     => .add c.width c.rd c.ra c.rb
  | .SUB     => .sub c.width c.rd c.ra c.rb
  | .CMP     => .cmp c.width c.ra c.rb
  | .MUL     => .mul c.width c.rd c.ra c.rb
  | .MULW    => .mulw c.width c.rd c.ra c.rb
  | .DIVREM  => .divrem c.width c.rd c.ra c.rb c.rc
  | .AND     => .and c.width c.rd c.ra c.rb
  | .OR      => .or c.width c.rd c.ra c.rb
  | .XOR     => .xor c.width c.rd c.ra c.rb
  | .NOT     => .not c.width c.rd c.ra
  | .SHL     => .shl c.width c.rd c.ra c.imm
  | .SHR     => .shr c.width c.rd c.ra c.imm
  | .MODRED  => .modred c.width c.rd c.ra c.rc
  | .MODADD  => .modadd c.width c.rd c.ra c.rb c.rc
  | .MODSUB  => .modsub c.width c.rd c.ra c.rb c.rc
  | .MODMUL  => .modmul c.width c.rd c.ra c.rb c.rc
  | .MODPOW  => .modpow c.width c.rd c.ra c.rb c.rc
  | .MODINV  => .modinv c.width c.rd c.ra c.rc
  | .SHAINIT => .shainit
  | .SHAUPD  => .shaupd c.addr c.len
  | .SHAFIN  => .shafin
  | .SHADIG  => .shadig c.rd
  | .SHA256  => .sha256 c.rd c.addr c.len
  | .CLRERR  => .clrerr

/-! ### Decoding (R79) -/

/-- Why a word is none of the 27 commands (R78). Each is IllegalCommand to the machine. -/
inductive Illegal where
  /-- Its opcode is one of the 229 that are not assigned. -/
  | unassignedOpcode
  /-- It has a 1 in the field `zero` or in a field its format does not use (R77). -/
  | mustBeZero
  /-- It is a DIVREM with rd = rc (R125). -/
  | divremSameDestination
deriving DecidableEq, Repr

/-- The decoder (R79). -/
def decode (c : CmdWord) : Except Illegal Instr :=
  match rowOfOpcode c.opcode with
  | none => .error .unassignedOpcode
  | some row =>
    if row.matchesWord c then
      if (row.op.operands c).wellFormed then .ok (row.op.operands c) else .error .divremSameDestination
    else .error .mustBeZero

/-! ### Encoding (R71, R74) -/

/-- The bit `w` (R72). -/
def Width.bit : Width → BitVec 1
  | .w256 => 0#1
  | .w512 => 1#1

/-- The bit `e` (R71). -/
def ByteOrder.bit : ByteOrder → BitVec 1
  | .big => 0#1
  | .little => 1#1

/-- A command word from its fields, most significant first; the field `zero` is 0 (R71). -/
def assemble (opcode : BitVec 8) (w e : BitVec 1) (rd ra rb rc : Reg) (imm : BitVec 32) : CmdWord :=
  opcode ++ w ++ e ++ 0#6 ++ rd ++ ra ++ rb ++ rc ++ imm

/-- The command word of a command: the opcode of R75, the fields of its format, 0 in every other field (R74, R77). -/
def encode : Instr → CmdWord
  | .ldi rd imm            => assemble 0x01#8 0#1 0#1 rd 0#4 0#4 0#4 imm
  | .ld w e rd addr len    => assemble 0x02#8 w.bit e.bit rd 0#4 0#4 0#4 (len ++ addr)
  | .st w e ra addr len    => assemble 0x03#8 w.bit e.bit 0#4 ra 0#4 0#4 (len ++ addr)
  | .add w rd ra rb        => assemble 0x10#8 w.bit 0#1 rd ra rb 0#4 0#32
  | .sub w rd ra rb        => assemble 0x11#8 w.bit 0#1 rd ra rb 0#4 0#32
  | .cmp w ra rb           => assemble 0x12#8 w.bit 0#1 0#4 ra rb 0#4 0#32
  | .mul w rd ra rb        => assemble 0x20#8 w.bit 0#1 rd ra rb 0#4 0#32
  | .mulw w rd ra rb       => assemble 0x21#8 w.bit 0#1 rd ra rb 0#4 0#32
  | .divrem w rd ra rb rc  => assemble 0x22#8 w.bit 0#1 rd ra rb rc 0#32
  | .and w rd ra rb        => assemble 0x30#8 w.bit 0#1 rd ra rb 0#4 0#32
  | .or w rd ra rb         => assemble 0x31#8 w.bit 0#1 rd ra rb 0#4 0#32
  | .xor w rd ra rb        => assemble 0x32#8 w.bit 0#1 rd ra rb 0#4 0#32
  | .not w rd ra           => assemble 0x33#8 w.bit 0#1 rd ra 0#4 0#4 0#32
  | .shl w rd ra imm       => assemble 0x34#8 w.bit 0#1 rd ra 0#4 0#4 imm
  | .shr w rd ra imm       => assemble 0x35#8 w.bit 0#1 rd ra 0#4 0#4 imm
  | .modred w rd ra rc     => assemble 0x40#8 w.bit 0#1 rd ra 0#4 rc 0#32
  | .modadd w rd ra rb rc  => assemble 0x41#8 w.bit 0#1 rd ra rb rc 0#32
  | .modsub w rd ra rb rc  => assemble 0x42#8 w.bit 0#1 rd ra rb rc 0#32
  | .modmul w rd ra rb rc  => assemble 0x43#8 w.bit 0#1 rd ra rb rc 0#32
  | .modpow w rd ra rb rc  => assemble 0x44#8 w.bit 0#1 rd ra rb rc 0#32
  | .modinv w rd ra rc     => assemble 0x45#8 w.bit 0#1 rd ra 0#4 rc 0#32
  | .shainit               => assemble 0x50#8 0#1 0#1 0#4 0#4 0#4 0#4 0#32
  | .shaupd addr len       => assemble 0x51#8 0#1 0#1 0#4 0#4 0#4 0#4 (len ++ addr)
  | .shafin                => assemble 0x52#8 0#1 0#1 0#4 0#4 0#4 0#4 0#32
  | .shadig rd             => assemble 0x53#8 0#1 0#1 rd 0#4 0#4 0#4 0#32
  | .sha256 rd addr len    => assemble 0x54#8 0#1 0#1 rd 0#4 0#4 0#4 (len ++ addr)
  | .clrerr                => assemble 0xF0#8 0#1 0#1 0#4 0#4 0#4 0#4 0#32

/-! ### The host's questions -/

/-- The one command word of a table row whose `nbits` bits are `w`, the bits above them 0 (R70: one 64-bit word). -/
def tableWord (nbits w : Nat) : CmdWord := BitVec.ofNat 64 (w % 2 ^ nbits)

/-- The command the decoder reads from a row's word. -/
def decodeTableWord (nbits w : Nat) : Option Instr :=
  match decode (tableWord nbits w) with
  | .ok i => some i
  | .error _ => none

end Sys2Proof
end

