-- ==== Sys2Proof/Config.lean ====
section
/-! DEFINITION. What an implementation fixes, and the free values the spec leaves open (R7, 93_implementation_defined.md). -/

namespace Sys2Proof.Config

/-- NREG, the number of registers (R7, R21). -/
def numRegs : Nat := 16

/-- The smallest legal MEM_BYTES (R7, R50). -/
def minMemBytes : Nat := 64

/-- The largest legal MEM_BYTES (R7, R50). -/
def maxMemBytes : Nat := 65536

/-- The default MEM_BYTES (R7, R50). The machine's own value stands in `State.memBytes`, which nothing changes. -/
def defaultMemBytes : Nat := 65536

/-- The legal values of LIMB_BITS: any divisor of 256 that is at least 8, among 8, 16, 32, 64 (R7). No result depends on it (R8). -/
def legalLimbBits : List Nat := [8, 16, 32, 64]

/-- FREE VALUE. The byte that an address not written since the last reset reads as (R56, U1): a function of how many
resets there have been and of the address, so that two reads with nothing written between agree (R54). Log entry 4. -/
opaque unwrittenByte : Nat → Nat → Byte

/-- FREE VALUE. The byte the memory channel returns for an address at or above MEM_BYTES (R64, U4): a fresh one for
each such read, by the counter `State.draws`. Log entry 5. -/
opaque outOfRangeByte : Nat → Byte

end Sys2Proof.Config
end

