-- ==== Sys2Proof/Machine/Sha256.lean ====
section
/-! DEFINITION. The SHA-256 engine as pure functions (47_sha256.md): constants, logical functions, message
scheduler, round, compression, absorbing and padding. The commands that drive it are in Machine/Hash.lean. -/

namespace Sys2Proof.Machine

/-- Eight 32-bit words: the running state H[0..7] (R33), or the working words a to h of a compression (R178). -/
structure HashWords where
  w0 : Word32
  w1 : Word32
  w2 : Word32
  w3 : Word32
  w4 : Word32
  w5 : Word32
  w6 : Word32
  w7 : Word32
deriving DecidableEq, Repr

/-- The initial words IV[0..7] (R173). -/
def hashIV : HashWords :=
  ⟨0x6a09e667#32, 0xbb67ae85#32, 0x3c6ef372#32, 0xa54ff53a#32,
   0x510e527f#32, 0x9b05688c#32, 0x1f83d9ab#32, 0x5be0cd19#32⟩

/-- The round constants K[0..63], in row order (R174). -/
def roundConstants : List Word32 :=
  [0x428a2f98#32, 0x71374491#32, 0xb5c0fbcf#32, 0xe9b5dba5#32, 0x3956c25b#32, 0x59f111f1#32, 0x923f82a4#32, 0xab1c5ed5#32] ++
  [0xd807aa98#32, 0x12835b01#32, 0x243185be#32, 0x550c7dc3#32, 0x72be5d74#32, 0x80deb1fe#32, 0x9bdc06a7#32, 0xc19bf174#32] ++
  [0xe49b69c1#32, 0xefbe4786#32, 0x0fc19dc6#32, 0x240ca1cc#32, 0x2de92c6f#32, 0x4a7484aa#32, 0x5cb0a9dc#32, 0x76f988da#32] ++
  [0x983e5152#32, 0xa831c66d#32, 0xb00327c8#32, 0xbf597fc7#32, 0xc6e00bf3#32, 0xd5a79147#32, 0x06ca6351#32, 0x14292967#32] ++
  [0x27b70a85#32, 0x2e1b2138#32, 0x4d2c6dfc#32, 0x53380d13#32, 0x650a7354#32, 0x766a0abb#32, 0x81c2c92e#32, 0x92722c85#32] ++
  [0xa2bfe8a1#32, 0xa81a664b#32, 0xc24b8b70#32, 0xc76c51a3#32, 0xd192e819#32, 0xd6990624#32, 0xf40e3585#32, 0x106aa070#32] ++
  [0x19a4c116#32, 0x1e376c08#32, 0x2748774c#32, 0x34b0bcb5#32, 0x391c0cb3#32, 0x4ed8aa4a#32, 0x5b9cca4f#32, 0x682e6ff3#32] ++
  [0x748f82ee#32, 0x78a5636f#32, 0x84c87814#32, 0x8cc70208#32, 0x90befffa#32, 0xa4506ceb#32, 0xbef9a3f7#32, 0xc67178f2#32]

/-- `ROTR^n` (R171). -/
def rotr (n : Nat) (x : Word32) : Word32 := (x >>> n) ||| (x <<< (32 - n))

/-- `word(b0, b1, b2, b3)`, big-endian (R171). -/
def wordOfBytes (b0 b1 b2 b3 : Byte) : Word32 := b0 ++ b1 ++ b2 ++ b3

/-- `Ch` (R175). -/
def ch (x y z : Word32) : Word32 := (x &&& y) ^^^ (~~~x &&& z)
/-- `Maj` (R175). -/
def maj (x y z : Word32) : Word32 := (x &&& y) ^^^ (x &&& z) ^^^ (y &&& z)
/-- `BSIG0` (R175). -/
def bsig0 (x : Word32) : Word32 := rotr 2 x ^^^ rotr 13 x ^^^ rotr 22 x
/-- `BSIG1` (R175). -/
def bsig1 (x : Word32) : Word32 := rotr 6 x ^^^ rotr 11 x ^^^ rotr 25 x
/-- `SSIG0` (R175). -/
def ssig0 (x : Word32) : Word32 := rotr 7 x ^^^ rotr 18 x ^^^ (x >>> 3)
/-- `SSIG1` (R175). -/
def ssig1 (x : Word32) : Word32 := rotr 17 x ^^^ rotr 19 x ^^^ (x >>> 10)

/-- The words a byte sequence forms, four bytes each, in order; a tail of fewer than four bytes forms none (R177). -/
def wordsOfBytes : List Byte → List Word32
  | b0 :: b1 :: b2 :: b3 :: rest => wordOfBytes b0 b1 b2 b3 :: wordsOfBytes rest
  | _ => []

/-- The next schedule word from the words so far, newest first: `SSIG1(W[t-2]) + W[t-7] + SSIG0(W[t-15]) + W[t-16]` (R177). -/
def nextScheduleWord (newestFirst : List Word32) : Word32 :=
  ssig1 (newestFirst.getD 1 0) + newestFirst.getD 6 0 + ssig0 (newestFirst.getD 14 0) + newestFirst.getD 15 0

/-- `n` more schedule words in front of the words so far, newest first. -/
def expandSchedule : Nat → List Word32 → List Word32
  | 0, ws => ws
  | n + 1, ws => expandSchedule n (nextScheduleWord ws :: ws)

/-- The message schedule W[0..63] of a 64-byte block (R177). -/
def schedule (block : List Byte) : List Word32 :=
  (expandSchedule 48 (wordsOfBytes block).reverse).reverse

/-- One round (R179). -/
def shaRound (v : HashWords) (k w : Word32) : HashWords :=
  let t1 := v.w7 + bsig1 v.w4 + ch v.w4 v.w5 v.w6 + k + w
  let t2 := bsig0 v.w0 + maj v.w0 v.w1 v.w2
  ⟨t1 + t2, v.w0, v.w1, v.w2, v.w3 + t1, v.w4, v.w5, v.w6⟩

/-- The rounds of a list of (K[t], W[t]) pairs, in order (R178). -/
def shaRounds : List (Word32 × Word32) → HashWords → HashWords
  | [], v => v
  | (k, w) :: rest, v => shaRounds rest (shaRound v k w)

/-- `Compress(H, B)` (R178). -/
def compress (h : HashWords) (block : List Byte) : HashWords :=
  let v := shaRounds (roundConstants.zip (schedule block)) h
  ⟨h.w0 + v.w0, h.w1 + v.w1, h.w2 + v.w2, h.w3 + v.w3, h.w4 + v.w4, h.w5 + v.w5, h.w6 + v.w6, h.w7 + v.w7⟩

/-- The part of a HashState that Absorb works on: H and BUF, oldest byte first (R33, R176). -/
structure Sponge where
  h : HashWords
  buf : List Byte
deriving DecidableEq, Repr

/-- One byte of `Absorb`: append it, and compress and empty BUF when it reaches 64 bytes (R176). -/
def absorbByte (st : Sponge) (x : Byte) : Sponge :=
  let buf := st.buf ++ [x]
  if buf.length = 64 then ⟨compress st.h buf, []⟩ else ⟨st.h, buf⟩

/-- `Absorb(s)` (R176). -/
def absorb (st : Sponge) : List Byte → Sponge
  | [] => st
  | x :: rest => absorb (absorbByte st x) rest

/-- The number of 0x00 bytes of the padding: `(55 − BUFLEN) mod 64` for BUFLEN ≤ 63 (R183). -/
def padZeros (buflen : Nat) : Nat := (119 - buflen) % 64

/-- The 8-byte big-endian sequence of the bit length (R10, R183). -/
def lengthBytes (totlen : BitVec 64) : List Byte :=
  [totlen.extractLsb' 56 8, totlen.extractLsb' 48 8, totlen.extractLsb' 40 8, totlen.extractLsb' 32 8,
   totlen.extractLsb' 24 8, totlen.extractLsb' 16 8, totlen.extractLsb' 8 8, totlen.extractLsb' 0 8]

/-- The bytes the padding appends: 0x80, zeros up to 56 modulo 64, the bit length (R183). -/
def padding (buflen : Nat) (totlen : BitVec 64) : List Byte :=
  0x80#8 :: (List.replicate (padZeros buflen) 0#8 ++ lengthBytes totlen)

/-- `Pad(L)` (R183). -/
def pad (st : Sponge) (totlen : BitVec 64) : Sponge := absorb st (padding st.buf.length totlen)

/-- `H[0] ‖ H[1] ‖ ... ‖ H[7]`, the digest as a 256-bit value (R187). -/
def digest (h : HashWords) : BitVec 256 := h.w0 ++ h.w1 ++ h.w2 ++ h.w3 ++ h.w4 ++ h.w5 ++ h.w6 ++ h.w7

/-- The scheduler as hardware: a 16-word window, oldest first, that yields its oldest word and shifts in the next one (R177). -/
def windowStep (window : List Word32) : List Word32 :=
  window.tail ++ [ssig1 (window.getD 14 0) + window.getD 9 0 + ssig0 (window.getD 1 0) + window.getD 0 0]

/-- The compression rounds driven by the 16-word shift register: one round and one shift for each constant (R177, R189). -/
def windowRounds : List Word32 → List Word32 → HashWords → HashWords
  | [], _, v => v
  | k :: ks, window, v => windowRounds ks (windowStep window) (shaRound v k (window.getD 0 0))

end Sys2Proof.Machine
end

