-- ==== Sys2Proof/Machine/State.lean ====
section
/-! DEFINITION. The state of the block (R20) as plain data, the moves of the host (R246), the reasons a step can stop,
and the state right after reset (R37). -/

namespace Sys2Proof.Machine

/-- MEM as the bytes written since the last reset, by address (R35, R50, R56): addresses strictly rising. An address
that is not listed holds no value of its own. -/
abbrev Memory := List Host.Cell

/-- What the host does next on the channels of the block, one atomic event each (R243, R246). -/
inductive HostMove where
  /-- Issue any 64-bit word on the command channel. -/
  | issue (word : CmdWord)
  /-- Issue a word and assert reset before its response: the command is abandoned (R240, U10). -/
  | abandon (word : CmdWord)
  /-- Write one byte of MEM (R64). -/
  | memWrite (addr : BitVec 16) (byte : Byte)
  /-- Read one byte of MEM (R64). -/
  | memRead (addr : BitVec 16)
  /-- Read a control register by its number (R32). -/
  | readControl (number : Nat)
  /-- Observe the level `err_o` (R220). -/
  | observeErr
  /-- Assert and release reset (R240). -/
  | reset
deriving DecidableEq, Repr

/-- What the block puts on a channel toward the host (R243). -/
inductive Answer where
  /-- The 4-bit result code of a command (R214). -/
  | response (code : BitVec 4)
  /-- The byte a host read of MEM returns (R64). -/
  | memByte (byte : Byte)
  /-- The value of a control register: STATUS zero-extended, or ERRCMD (R32). -/
  | control (value : BitVec 64)
  /-- The level of `err_o` (R220). -/
  | errLevel (level : Bool)
deriving DecidableEq, Repr

/-- The whole state. The first seven fields are the architectural state of R20; the others are the model's own. -/
structure State where
  /-- R0 to R15, 512 bits each (R21). -/
  regs : Vector RegVal 16
  /-- STATUS, control register 0; its fields are named in Machine/Flags.lean (R30). -/
  status : BitVec 32
  /-- ERRCMD, control register 1 (R31). -/
  errcmd : BitVec 64
  /-- H[0..7], the SHA-256 running state (R33). -/
  hash : HashWords
  /-- BUF, oldest byte first; BUFLEN is its length (R33). -/
  buf : List Byte
  /-- TOTLEN, the message bits absorbed in this session (R33, R182). -/
  totlen : BitVec 64
  /-- MEM (R35). -/
  mem : Memory
  /-- MEM_BYTES, the configuration of the block; no step changes it (R7, R241). Log entry 3. -/
  memBytes : Nat
  /-- The model's own: the host's moves still to come, first to come first. Log entry 1. -/
  host : List HostMove
  /-- The model's own: what the last step put on a channel toward the host. Log entry 2. -/
  answer : Option Answer
  /-- The model's own: how many resets there have been, which selects the free values of unwritten MEM. Log entry 4. -/
  resets : Nat
  /-- The model's own: how many free values of the memory channel have been drawn. Log entry 5. -/
  draws : Nat
deriving DecidableEq, Repr

/-- A fault of the model. There is none: every error of the block is a next state that answers a result code
(R210, R213), and the spec names no behaviour that stops the block (R224). -/
inductive Fault where
deriving DecidableEq, Repr

/-- Why the model gives no next state. -/
inductive Refusal where
  /-- An instruction rejected by name in `exec`: it has no meaning yet. Raised by no arm of this model. Safe. -/
  | notModelled (mnemonic : String)
  /-- Raised by SHAUPD when TOTLEN would reach 2^64: "has no defined result in this spec", "the reader's model refuses
  it" (R182, U2). Safe: the model stops where the hardware's result is not defined. Log entry 6. -/
  | hashLengthOverflow
deriving DecidableEq, Repr

/-- The state right after reset (R37): every register 0, STATUS and ERRCMD 0, the session in Init, MEM with nothing
written. The default MEM_BYTES, no host move, no answer, both counters 0 (log entries 1 to 5). -/
def State.reset : State where
  regs := Vector.replicate 16 0#512
  status := 0#32
  errcmd := 0#64
  hash := hashIV
  buf := []
  totlen := 0#64
  mem := []
  memBytes := Config.defaultMemBytes
  host := []
  answer := none
  resets := 0
  draws := 0

end Sys2Proof.Machine
end

