-- ==== Sys2Proof/Machine/Flags.lean ====
section
/-! DEFINITION. The fields of STATUS (R30): reading and writing each one, the session states (R34), the error codes
(R211), and the flag computations of ADD, SUB and CMP (R29). -/

namespace Sys2Proof.Machine

/-! ### Fields of a 32-bit register -/

/-- The field of `n` bits from bit `lo`. -/
def getField (s : BitVec 32) (lo n : Nat) : BitVec n := s.extractLsb' lo n

/-- The register with the field of `n` bits from bit `lo` replaced, every other bit kept. -/
def putField (s : BitVec 32) (lo : Nat) {n : Nat} (v : BitVec n) : BitVec 32 :=
  (s &&& ~~~((BitVec.allOnes n).setWidth 32 <<< lo)) ||| (v.setWidth 32 <<< lo)

/-! ### The session state SST (R34) -/

/-- The four session states (R34). -/
inductive SessionState where
  | init
  | absorbing
  | finalizing
  | done
deriving DecidableEq, Repr

/-- The 2-bit value of a session state (R34). -/
def SessionState.bits : SessionState → BitVec 2
  | .init => 0#2
  | .absorbing => 1#2
  | .finalizing => 2#2
  | .done => 3#2

/-- The session state of a 2-bit value (R34). -/
def sessionOfBits (b : BitVec 2) : SessionState :=
  if b = 0#2 then .init else if b = 1#2 then .absorbing else if b = 2#2 then .finalizing else .done

/-! ### Error kinds (R211) -/

/-- The eight error kinds (R211). `entropyUnavailable` is reserved and never raised. -/
inductive ErrorKind where
  | lengthMismatch
  | divisionByZero
  | modulusZero
  | notInvertible
  | entropyUnavailable
  | invalidSessionState
  | illegalCommand
  | addressRange
deriving DecidableEq, Repr

/-- The code of an error kind (R211). -/
def ErrorKind.code : ErrorKind → BitVec 4
  | .lengthMismatch => 1#4
  | .divisionByZero => 2#4
  | .modulusZero => 3#4
  | .notInvertible => 4#4
  | .entropyUnavailable => 5#4
  | .invalidSessionState => 6#4
  | .illegalCommand => 7#4
  | .addressRange => 8#4

/-- The result code of success (R211). -/
def okCode : BitVec 4 := 0#4

/-! ### Reading STATUS (R30) -/

/-- C, bit 0. -/
def State.flagC (s : State) : Bool := s.status.getLsbD 0
/-- LT, bit 1. -/
def State.flagLT (s : State) : Bool := s.status.getLsbD 1
/-- EQ, bit 2. -/
def State.flagEQ (s : State) : Bool := s.status.getLsbD 2
/-- GT, bit 3. -/
def State.flagGT (s : State) : Bool := s.status.getLsbD 3
/-- SST, bits 5:4. -/
def State.session (s : State) : SessionState := sessionOfBits (getField s.status 4 2)
/-- ERR, bits 11:8. -/
def State.err (s : State) : BitVec 4 := getField s.status 8 4

/-- The output `err_o` (R220). -/
def State.errOut (s : State) : Bool := s.err != 0#4

/-! ### Writing STATUS (R30) -/

/-- Write C. -/
def State.setC (c : Bool) (s : State) : State := { s with status := putField s.status 0 (BitVec.ofBool c) }
/-- Write GT, EQ and LT, bits 3:1. -/
def State.setOrder (lt eq gt : Bool) (s : State) : State :=
  { s with status := putField s.status 1 (BitVec.ofBool gt ++ BitVec.ofBool eq ++ BitVec.ofBool lt) }
/-- Write SST. -/
def State.setSession (x : SessionState) (s : State) : State := { s with status := putField s.status 4 x.bits }
/-- Write ERR. -/
def State.setErr (code : BitVec 4) (s : State) : State := { s with status := putField s.status 8 code }

/-! ### Flag computations (R29) -/

/-- The carry of `a + b` at width `w`: the exact sum is at least 2^W (R101). -/
def carryOut (w : Width) (a b : Nat) : Bool := decide (2 ^ w.bits ≤ a + b)

/-- The borrow of `a - b`: 1 exactly when a < b (R102). -/
def borrowOut (a b : Nat) : Bool := decide (a < b)

/-- Write LT, EQ, GT from a comparison of unsigned integers (R140). -/
def State.setCompare (a b : Nat) (s : State) : State :=
  s.setOrder (decide (a < b)) (decide (a = b)) (decide (b < a))

end Sys2Proof.Machine
end

