-- ==== Sys2Proof/Machine/Ops.lean ====
section
/-! DEFINITION. The named operations over registers and memory, the response, and the taking of an error: the one
operation every failing command goes through (R213, R215, R216), with the clearing of its record beside it (R200). -/

namespace Sys2Proof.Machine

/-- The outcome of a step or a meaning. -/
abbrev Result := Host.Outcome State Fault Refusal

/-! ### Registers (R21) -/

/-- `R[i]` (R10). -/
def State.reg (s : State) (r : Reg) : RegVal := s.regs[r.toNat]

/-- `R[i] <- v` (R10). -/
def State.setReg (r : Reg) (v : RegVal) (s : State) : State := { s with regs := s.regs.set r.toNat v }

/-! ### MEM (R50, R51) -/

/-- The byte written last at an address, if any was written since the last reset (R56). -/
def Memory.get? : Memory → Nat → Option Byte
  | [], _ => none
  | (a, b) :: rest, x => if a = x then some b else if x < a then none else Memory.get? rest x

/-- The memory with one byte written, in rising order of addresses. -/
def Memory.set : Memory → Nat → Byte → Memory
  | [], x, v => [(x, v)]
  | (a, b) :: rest, x, v =>
    if x < a then (x, v) :: (a, b) :: rest else if x = a then (a, v) :: rest else (a, b) :: Memory.set rest x v

/-- Bytes written at ascending addresses (R51). -/
def Memory.setBytes : Memory → Nat → List Byte → Memory
  | m, _, [] => m
  | m, x, b :: rest => Memory.setBytes (m.set x b) (x + 1) rest

/-- The addresses listed before `bound` rise strictly, from the last one down. -/
def Memory.rising : Option Nat → Memory → Bool
  | _, [] => true
  | none, (a, _) :: rest => Memory.rising (some a) rest
  | some p, (a, _) :: rest => decide (p < a) && Memory.rising (some a) rest

/-- The canonical form: addresses strictly rising. An unlisted address holds no value, so no entry can equal what an
unlisted address reads as. -/
def Memory.wf (m : Memory) : Bool := Memory.rising none m

/-- What MEM[addr] reads as: the byte written last, or a free value where none was written since reset (R56, U1). -/
def State.readByte (s : State) (addr : Nat) : Byte :=
  (Memory.get? s.mem addr).getD (Config.unwrittenByte s.resets addr)

/-- `MemRead(addr, n)` (R51). -/
def State.readBytes (s : State) (addr : Nat) : Nat → List Byte
  | 0 => []
  | n + 1 => s.readByte addr :: State.readBytes s (addr + 1) n

/-- `MemWrite(addr, n, bytes)` (R51). -/
def State.writeBytes (addr : Nat) (bytes : List Byte) (s : State) : State :=
  { s with mem := Memory.setBytes s.mem addr bytes }

/-- The range check passes: `addr + len ≤ MEM_BYTES`, the sum taken without wrap (R55). -/
def State.inRange (s : State) (addr len : BitVec 16) : Bool := decide (addr.toNat + len.toNat ≤ s.memBytes)

/-! ### The response (R214) -/

/-- Put a result code on the response channel. -/
def State.respond (code : BitVec 4) (s : State) : State := { s with answer := some (.response code) }

/-- A command succeeded: its writes are made and it answers OK. -/
def succeed (s : State) : Result := .next (s.respond okCode)

/-! ### Taking an error (R213), and clearing its record (R200) -/

/-- First-error capture (R216): ERR and ERRCMD are written only if ERR is 0. -/
def State.capture (e : ErrorKind) (word : CmdWord) (s : State) : State :=
  if s.err = 0#4 then { s.setErr e.code with errcmd := word } else s

/-- The complete effect of a failing command (R213, R215): the capture and the response, nothing else. -/
def raiseError (e : ErrorKind) (word : CmdWord) (s : State) : Result := .next ((s.capture e word).respond e.code)

/-- A command raises an error; its command word is its encoding (log entry 14). -/
def fail (e : ErrorKind) (i : Instr) (s : State) : Result := raiseError e (encode i) s

/-- An illegal word raises IllegalCommand before anything else is examined (R212). -/
def raiseIllegal (word : CmdWord) (s : State) : Result := raiseError .illegalCommand word s

/-- ERR and ERRCMD return to 0 (R200). -/
def State.clearError (s : State) : State := { s.setErr 0#4 with errcmd := 0#64 }

end Sys2Proof.Machine
end

