-- ==== Sys2Proof/Machine/Channels.lean ====
section
/-! DEFINITION. The moves of the host on the channels of the block (R243, R246), each one atomic event. -/

namespace Sys2Proof.Machine

/-- A host write of one byte of MEM; at or above MEM_BYTES it does nothing (R64, U4). -/
def State.hostWrite (addr : BitVec 16) (byte : Byte) (s : State) : State :=
  if addr.toNat < s.memBytes then { s with mem := Memory.set s.mem addr.toNat byte, answer := none }
  else { s with answer := none }

/-- A host read of one byte of MEM; at or above MEM_BYTES it returns a fresh free value (R64, U4). -/
def State.hostRead (addr : BitVec 16) (s : State) : State :=
  if addr.toNat < s.memBytes then { s with answer := some (.memByte (s.readByte addr.toNat)) }
  else { s with answer := some (.memByte (Config.outOfRangeByte s.draws)), draws := s.draws + 1 }

/-- The value of a control register by its number: 0 is STATUS, 1 is ERRCMD, any other number reads as 0 (R32). -/
def State.controlValue (s : State) (number : Nat) : BitVec 64 :=
  if number = 0 then s.status.setWidth 64 else if number = 1 then s.errcmd else 0#64

/-- A host read of a control register (R32). -/
def State.hostReadControl (number : Nat) (s : State) : State :=
  { s with answer := some (.control (s.controlValue number)) }

/-- The host observes `err_o` (R220). -/
def State.hostObserveErr (s : State) : State := { s with answer := some (.errLevel s.errOut) }

/-- Reset (R240): all state takes its reset value, every byte of MEM is unwritten again. What is not state of the block
stays: MEM_BYTES, the host's moves, and the counters of the free values (log entries 3, 4, 7). -/
def State.resetBlock (s : State) : State :=
  { State.reset with memBytes := s.memBytes, host := s.host, resets := s.resets + 1, draws := s.draws }

/-- The block takes a command word: it decodes it, and runs the command or raises IllegalCommand (R79, R212). `run` is
the meaning of commands. -/
def issueWord (run : Instr → State → Result) (word : CmdWord) (s : State) : Result :=
  match decode word with
  | .ok i => run i s
  | .error _ => raiseIllegal word s

/-- One move of the host (R246). -/
def performMove (run : Instr → State → Result) (move : HostMove) (s : State) : Result :=
  match move with
  | .issue word => issueWord run word s
  | .abandon _ => .next s.resetBlock
  | .memWrite addr byte => .next (s.hostWrite addr byte)
  | .memRead addr => .next (s.hostRead addr)
  | .readControl number => .next (s.hostReadControl number)
  | .observeErr => .next s.hostObserveErr
  | .reset => .next s.resetBlock

/-- The next move of the host and the state with that move taken; none when the block is left idle. -/
def State.nextMove (s : State) : Option (HostMove × State) :=
  match s.host with
  | [] => none
  | move :: rest => some (move, { s with host := rest })

/-- One step: the next move of the host, or idleness, in which the block holds all its state (R231). -/
def stepWith (run : Instr → State → Result) (s : State) : Result :=
  match s.nextMove with
  | none => .next s
  | some (move, s') => performMove run move s'

end Sys2Proof.Machine
end

