-- ==== Sys2Proof/Machine/Operands.lean ====
section
/-! DEFINITION. The operand forms: reading a register at a width (R23), writing a result at a width (R24), and the
conversions between byte sequences and integers (R10, R52). -/

namespace Sys2Proof.Machine

/-! ### Register operands -/

/-- `src_W(i)`: the low W bits of the register, as an unsigned integer (R23). -/
def State.src (s : State) (w : Width) (r : Reg) : Nat := (s.reg r).toNat % 2 ^ w.bits

/-- `R[d] <-W v` for the value `v mod 2^W`: zero-extended to 512 bits (R24). -/
def State.writeW (w : Width) (r : Reg) (v : Nat) (s : State) : State :=
  s.setReg r (BitVec.ofNat 512 (v % 2 ^ w.bits))

/-- `x mod 2^W` of an integer that may be negative (R9). -/
def wrapInt (w : Width) (x : Int) : Nat := (x % (2 ^ w.bits : Nat)).toNat

/-- The residue in 0 .. m - 1 of an integer that may be negative (R9, R146). -/
def residue (x : Int) (m : Nat) : Nat := (x % (m : Int)).toNat

/-! ### Byte sequences (R10) -/

/-- `le_bytes_n(v)`. -/
def leBytes : Nat → Nat → List Byte
  | 0, _ => []
  | n + 1, v => BitVec.ofNat 8 v :: leBytes n (v / 256)

/-- `be_bytes_n(v)`. -/
def beBytes (n v : Nat) : List Byte := (leBytes n v).reverse

/-- `le_value(b)`. -/
def leValue : List Byte → Nat
  | [] => 0
  | b :: rest => b.toNat + 256 * leValue rest

/-- `be_value(b)`. -/
def beValue (bytes : List Byte) : Nat := leValue bytes.reverse

/-- The integer of a byte sequence in the order `e` names (R52, R92). -/
def valueOfBytes : ByteOrder → List Byte → Nat
  | .big, bytes => beValue bytes
  | .little, bytes => leValue bytes

/-- The `n`-byte sequence of an integer in the order `e` names (R52, R93). -/
def bytesOfValue : ByteOrder → Nat → Nat → List Byte
  | .big, n, v => beBytes n v
  | .little, n, v => leBytes n v

/-! ### Memory operands (R73) -/

/-- The `len` of LD and ST is W/8 (R92, R93). -/
def lengthMatches (w : Width) (len : BitVec 16) : Bool := len.toNat == w.bytes

end Sys2Proof.Machine
end

