-- ==== Sys2Proof/Machine/AddSub.lean ====
section
/-! DEFINITION. The adder/subtractor and the comparator: ADD, SUB, CMP (41_addsub.md, 45_compare.md). -/

namespace Sys2Proof.Machine

/-- ADD (R101). -/
def execAdd (w : Width) (rd ra rb : Reg) (s : State) : Result :=
  let a := s.src w ra
  let b := s.src w rb
  succeed ((s.writeW w rd (a + b)).setC (carryOut w a b))

/-- SUB (R102). -/
def execSub (w : Width) (rd ra rb : Reg) (s : State) : Result :=
  let a := s.src w ra
  let b := s.src w rb
  succeed ((s.writeW w rd (wrapInt w ((a : Int) - (b : Int)))).setC (borrowOut a b))

/-- CMP (R140). -/
def execCmp (w : Width) (ra rb : Reg) (s : State) : Result :=
  succeed (s.setCompare (s.src w ra) (s.src w rb))

end Sys2Proof.Machine
end

