-- ==== Sys2Proof/Machine/BitOps.lean ====
section
/-! DEFINITION. Bitwise logic and shifts: AND, OR, XOR, NOT, SHL, SHR (44_bitops.md). -/

namespace Sys2Proof.Machine

/-- AND (R130). -/
def execAnd (w : Width) (rd ra rb : Reg) (s : State) : Result :=
  succeed (s.writeW w rd (s.src w ra &&& s.src w rb))

/-- OR (R131). -/
def execOr (w : Width) (rd ra rb : Reg) (s : State) : Result :=
  succeed (s.writeW w rd (s.src w ra ||| s.src w rb))

/-- XOR (R132). -/
def execXor (w : Width) (rd ra rb : Reg) (s : State) : Result :=
  succeed (s.writeW w rd (s.src w ra ^^^ s.src w rb))

/-- NOT: the complement over W bits, `2^W − 1 − a` (R133). -/
def execNot (w : Width) (rd ra : Reg) (s : State) : Result :=
  succeed (s.writeW w rd (2 ^ w.bits - 1 - s.src w ra))

/-- The value of a left shift at width `w`; a count of W or more gives 0 (R134). -/
def shiftLeft (w : Width) (a n : Nat) : Nat := if w.bits ≤ n then 0 else a * 2 ^ n % 2 ^ w.bits

/-- The value of a logical right shift at width `w`; a count of W or more gives 0 (R135). -/
def shiftRight (w : Width) (a n : Nat) : Nat := if w.bits ≤ n then 0 else a / 2 ^ n

/-- SHL (R134). -/
def execShl (w : Width) (rd ra : Reg) (imm : BitVec 32) (s : State) : Result :=
  succeed (s.writeW w rd (shiftLeft w (s.src w ra) imm.toNat))

/-- SHR (R135). -/
def execShr (w : Width) (rd ra : Reg) (imm : BitVec 32) (s : State) : Result :=
  succeed (s.writeW w rd (shiftRight w (s.src w ra) imm.toNat))

end Sys2Proof.Machine
end

