-- ==== Sys2Proof/Machine/Construct.lean ====
section
/-! DEFINITION. Construction and byte serialisation: LDI, LD, ST (40_construct_serialize.md). -/

namespace Sys2Proof.Machine

/-- LDI (R91). -/
def execLdi (rd : Reg) (imm : BitVec 32) (s : State) : Result :=
  succeed (s.setReg rd (imm.setWidth 512))

/-- LD (R92). -/
def execLd (w : Width) (e : ByteOrder) (rd : Reg) (addr len : BitVec 16) (s : State) : Result :=
  if !lengthMatches w len then fail .lengthMismatch (.ld w e rd addr len) s
  else if !s.inRange addr len then fail .addressRange (.ld w e rd addr len) s
  else succeed (s.writeW w rd (valueOfBytes e (s.readBytes addr.toNat w.bytes)))

/-- ST (R93). -/
def execSt (w : Width) (e : ByteOrder) (ra : Reg) (addr len : BitVec 16) (s : State) : Result :=
  if !lengthMatches w len then fail .lengthMismatch (.st w e ra addr len) s
  else if !s.inRange addr len then fail .addressRange (.st w e ra addr len) s
  else succeed (s.writeBytes addr.toNat (bytesOfValue e w.bytes (s.src w ra)))

end Sys2Proof.Machine
end

