-- ==== Sys2Proof/Machine/Hash.lean ====
section
/-! DEFINITION. The commands of the SHA-256 engine: SHAINIT, SHAUPD, SHAFIN, SHADIG, SHA256 (47_sha256.md). -/

namespace Sys2Proof.Machine

/-! ### The session (R33, R172) -/

/-- H and BUF of the session, as Absorb works on them (R176). -/
def State.sponge (s : State) : Sponge := ⟨s.hash, s.buf⟩

/-- Write H and BUF. -/
def State.setSponge (x : Sponge) (s : State) : State := { s with hash := x.h, buf := x.buf }

/-- H, BUF and TOTLEN as at the start of a session (R180). -/
def State.startSession (s : State) : State := { s.setSponge ⟨hashIV, []⟩ with totlen := 0#64 }

/-- Absorb `len` bytes of MEM and count their bits (R181). -/
def State.absorbMem (addr len : BitVec 16) (s : State) : State :=
  { s.setSponge (absorb s.sponge (s.readBytes addr.toNat len.toNat)) with
    totlen := s.totlen + BitVec.ofNat 64 (8 * len.toNat) }

/-- Pad the message and compress its last one or two blocks (R183, R184). -/
def State.finishSession (s : State) : State := s.setSponge (pad s.sponge s.totlen)

/-- Write the digest to a register, zero-extended (R187). -/
def State.writeDigest (rd : Reg) (s : State) : State := s.setReg rd ((digest s.hash).setWidth 512)

/-- TOTLEN would reach 2^64: a case without a defined result (R182, U2). -/
def State.lengthOverflows (s : State) (len : BitVec 16) : Bool := decide (2 ^ 64 ≤ s.totlen.toNat + 8 * len.toNat)

/-! ### The commands -/

/-- SHAINIT (R180). -/
def execShainit (s : State) : Result := succeed (s.startSession.setSession .init)

/-- SHAUPD (R181). -/
def execShaupd (addr len : BitVec 16) (s : State) : Result :=
  if !s.inRange addr len then fail .addressRange (.shaupd addr len) s
  else if s.session = .done then fail .invalidSessionState (.shaupd addr len) s
  else if s.lengthOverflows len then .refused .hashLengthOverflow
  else succeed ((s.absorbMem addr len).setSession .absorbing)

/-- SHAFIN (R184). -/
def execShafin (s : State) : Result :=
  if s.session = .done then fail .invalidSessionState .shafin s
  else succeed ((s.setSession .finalizing).finishSession.setSession .done)

/-- SHADIG (R187). -/
def execShadig (rd : Reg) (s : State) : Result :=
  if s.session = .done then succeed (s.writeDigest rd) else fail .invalidSessionState (.shadig rd) s

/-- SHA256 (R186). -/
def execSha256 (rd : Reg) (addr len : BitVec 16) (s : State) : Result :=
  if !s.inRange addr len then fail .addressRange (.sha256 rd addr len) s
  else succeed ((((s.startSession.absorbMem addr len).finishSession).setSession .done).writeDigest rd)

end Sys2Proof.Machine
end

