-- ==== Sys2Proof/Machine/Modular.lean ====
section
/-! DEFINITION. The modular unit: MODRED, MODADD, MODSUB, MODMUL, MODPOW, MODINV (46_modular.md). Each result is the
residue of the exact integer expression (R146). -/

namespace Sys2Proof.Machine

/-- A modular command: a modulus of 0 raises ModulusZero (R146 b), otherwise the residue goes to `rd`. -/
def modular (i : Instr) (w : Width) (rd : Reg) (m result : Nat) (s : State) : Result :=
  if m = 0 then fail .modulusZero i s else succeed (s.writeW w rd result)

/-- MODRED (R148). -/
def execModred (w : Width) (rd ra rc : Reg) (s : State) : Result :=
  let m := s.src w rc
  modular (.modred w rd ra rc) w rd m (s.src w ra % m) s

/-- MODADD (R149): the exact sum, up to W + 1 bits, is reduced. -/
def execModadd (w : Width) (rd ra rb rc : Reg) (s : State) : Result :=
  let m := s.src w rc
  modular (.modadd w rd ra rb rc) w rd m ((s.src w ra + s.src w rb) % m) s

/-- MODSUB (R150): the exact difference, possibly negative, is reduced. -/
def execModsub (w : Width) (rd ra rb rc : Reg) (s : State) : Result :=
  let m := s.src w rc
  modular (.modsub w rd ra rb rc) w rd m (residue ((s.src w ra : Int) - (s.src w rb : Int)) m) s

/-- MODMUL (R151): the exact product, 2W bits, is reduced. -/
def execModmul (w : Width) (rd ra rb rc : Reg) (s : State) : Result :=
  let m := s.src w rc
  modular (.modmul w rd ra rb rc) w rd m (s.src w ra * s.src w rb % m) s

/-- The steps of the schedule of R153 for the exponent bits below `i`, the most significant first: always square, always
multiply, select by the bit. -/
def powerSteps (a x m : Nat) : Nat → Nat → Nat
  | 0, r => r
  | i + 1, r => powerSteps a x m i (if x.testBit i then r * r % m * a % m else r * r % m)

/-- `(a^x) mod m` for an exponent below 2^W, by the schedule of R153; `modPower_eq` in Laws/Modular.lean. -/
def modPower (w : Width) (a x m : Nat) : Nat := powerSteps a x m w.bits (1 % m)

/-- MODPOW (R152). -/
def execModpow (w : Width) (rd ra rb rc : Reg) (s : State) : Result :=
  let m := s.src w rc
  modular (.modpow w rd ra rb rc) w rd m (modPower w (s.src w ra) (s.src w rb) m) s

/-- The loop of extended Euclid on `(r0, r1)` and the signed `(t0, t1)` (R157), for at most `fuel` passes. Answers the
gcd and its coefficient. -/
def euclid : Nat → Nat → Nat → Int → Int → Nat × Int
  | 0, r0, _, t0, _ => (r0, t0)
  | fuel + 1, r0, r1, t0, t1 =>
    if r1 = 0 then (r0, t0) else euclid fuel r1 (r0 % r1) t1 (t0 - ((r0 / r1 : Nat) : Int) * t1)

/-- The passes that are enough for W-bit operands: the product r0·r1 halves with each (log entry 13). -/
def euclidFuel (w : Width) : Nat := 2 * w.bits

/-- The inverse of `a` modulo `m`, when there is one; `inverse_spec` in Laws/Modular.lean (R154, R157). -/
def inverse (w : Width) (a m : Nat) : Nat := residue (euclid (euclidFuel w) m (a % m) 0 1).2 m

/-- MODINV (R154). -/
def execModinv (w : Width) (rd ra rc : Reg) (s : State) : Result :=
  let a := s.src w ra
  let m := s.src w rc
  if m = 0 then fail .modulusZero (.modinv w rd ra rc) s
  else if Nat.gcd (a % m) m ≠ 1 then fail .notInvertible (.modinv w rd ra rc) s
  else succeed (s.writeW w rd (inverse w a m))

end Sys2Proof.Machine
end

