-- ==== Sys2Proof/Machine/Multiply.lean ====
section
/-! DEFINITION. The multiplier and the divider: MUL, MULW, DIVREM (42_multiply.md, 43_divide.md). -/

namespace Sys2Proof.Machine

/-- MUL (R115). -/
def execMul (w : Width) (rd ra rb : Reg) (s : State) : Result :=
  succeed (s.writeW w rd (s.src w ra * s.src w rb))

/-- The double-width product in its register or register pair: bits 511:0 in `rd`, and at W = 512 bits 1023:512 in
`(rd + 1) mod 16` (R116). -/
def State.writeWide (w : Width) (rd : Reg) (p : Nat) (s : State) : State :=
  match w with
  | .w256 => s.setReg rd (BitVec.ofNat 512 p)
  | .w512 => (s.setReg rd (BitVec.ofNat 512 p)).setReg (rd + 1) (BitVec.ofNat 512 (p / 2 ^ Width.w512.bits))

/-- MULW (R116). -/
def execMulw (w : Width) (rd ra rb : Reg) (s : State) : Result :=
  succeed (s.writeWide w rd (s.src w ra * s.src w rb))

/-- DIVREM (R125): rd = rc is IllegalCommand, a zero divisor is DivisionByZero. -/
def execDivrem (w : Width) (rd ra rb rc : Reg) (s : State) : Result :=
  let a := s.src w ra
  let b := s.src w rb
  if rd = rc then fail .illegalCommand (.divrem w rd ra rb rc) s
  else if b = 0 then fail .divisionByZero (.divrem w rd ra rb rc) s
  else succeed ((s.writeW w rd (a / b)).writeW w rc (a - a / b * b))

end Sys2Proof.Machine
end

