-- ==== Sys2Proof/Machine/System.lean ====
section
/-! DEFINITION. The system command CLRERR (48_system.md). -/

namespace Sys2Proof.Machine

/-- CLRERR (R200). -/
def execClrerr (s : State) : Result := succeed s.clearError

end Sys2Proof.Machine
end

