-- ==== Sys2Proof/Machine/Dispatch.lean ====
section
/-! DEFINITION. The dispatch of commands to their meanings, one arm per constructor. -/

namespace Sys2Proof.Machine

/-- What a command does, response included (R58). -/
def exec (i : Instr) (s : State) : Host.Outcome State Fault Refusal :=
  match i with
  | .ldi rd imm => Sys2Proof.Machine.execLdi rd imm s
  | .ld w e rd addr len => Sys2Proof.Machine.execLd w e rd addr len s
  | .st w e ra addr len => Sys2Proof.Machine.execSt w e ra addr len s
  | .add w rd ra rb => Sys2Proof.Machine.execAdd w rd ra rb s
  | .sub w rd ra rb => Sys2Proof.Machine.execSub w rd ra rb s
  | .cmp w ra rb => Sys2Proof.Machine.execCmp w ra rb s
  | .mul w rd ra rb => Sys2Proof.Machine.execMul w rd ra rb s
  | .mulw w rd ra rb => Sys2Proof.Machine.execMulw w rd ra rb s
  | .divrem w rd ra rb rc => Sys2Proof.Machine.execDivrem w rd ra rb rc s
  | .and w rd ra rb => Sys2Proof.Machine.execAnd w rd ra rb s
  | .or w rd ra rb => Sys2Proof.Machine.execOr w rd ra rb s
  | .xor w rd ra rb => Sys2Proof.Machine.execXor w rd ra rb s
  | .not w rd ra => Sys2Proof.Machine.execNot w rd ra s
  | .shl w rd ra imm => Sys2Proof.Machine.execShl w rd ra imm s
  | .shr w rd ra imm => Sys2Proof.Machine.execShr w rd ra imm s
  | .modred w rd ra rc => Sys2Proof.Machine.execModred w rd ra rc s
  | .modadd w rd ra rb rc => Sys2Proof.Machine.execModadd w rd ra rb rc s
  | .modsub w rd ra rb rc => Sys2Proof.Machine.execModsub w rd ra rb rc s
  | .modmul w rd ra rb rc => Sys2Proof.Machine.execModmul w rd ra rb rc s
  | .modpow w rd ra rb rc => Sys2Proof.Machine.execModpow w rd ra rb rc s
  | .modinv w rd ra rc => Sys2Proof.Machine.execModinv w rd ra rc s
  | .shainit => Sys2Proof.Machine.execShainit s
  | .shaupd addr len => Sys2Proof.Machine.execShaupd addr len s
  | .shafin => Sys2Proof.Machine.execShafin s
  | .shadig rd => Sys2Proof.Machine.execShadig rd s
  | .sha256 rd addr len => Sys2Proof.Machine.execSha256 rd addr len s
  | .clrerr => Sys2Proof.Machine.execClrerr s

end Sys2Proof.Machine
end

