-- ==== Sys2Proof/Machine/Step.lean ====
section
/-! DEFINITION. The step of the machine: one move of the host, and what the host asks about it. -/

namespace Sys2Proof.Machine

/-- One step (R13, R58). -/
def step (s : State) : Host.Outcome State Fault Refusal := stepWith exec s

/-- The state with a table row's command word issued as the host's very next move (log entry 1). -/
def State.withFetchWord (s : State) (nbits w : Nat) : State :=
  { s with host := .issue (tableWord nbits w) :: s.host }

end Sys2Proof.Machine
end

