-- ==== Sys2Proof/Machine/Assembler.lean ====
section
/-! DEFINITION. The assembler syntax of R80, written (the text of each command) and read (the command of a line), and the
pseudo-instructions of R81. -/

namespace Sys2Proof.Machine

/-- `R0` to `R15` (R80). -/
def regText (r : Reg) : String := "R" ++ toString r.toNat

/-- The suffix `.256` or `.512` (R80). -/
def widthText : Width → String
  | .w256 => ".256"
  | .w512 => ".512"

/-- The suffix `.BE` or `.LE` (R80). -/
def orderText : ByteOrder → String
  | .big => ".BE"
  | .little => ".LE"

/-- A memory operand `[addr], len` (R80). -/
def memText (addr len : BitVec 16) : String := "[" ++ toString addr.toNat ++ "], " ++ toString len.toNat

/-- A mnemonic with its width suffix and its register operands (R80). -/
def opText (name : String) (w : Width) (regs : List Reg) : String :=
  name ++ widthText w ++ " " ++ String.intercalate ", " (regs.map regText)

/-- The text of a command (R80); numbers are written in decimal. -/
def asmText : Instr → String
  | .ldi rd imm => "LDI " ++ regText rd ++ ", " ++ toString imm.toNat
  | .ld w e rd addr len => "LD" ++ widthText w ++ orderText e ++ " " ++ regText rd ++ ", " ++ memText addr len
  | .st w e ra addr len => "ST" ++ widthText w ++ orderText e ++ " " ++ regText ra ++ ", " ++ memText addr len
  | .add w rd ra rb => opText "ADD" w [rd, ra, rb]
  | .sub w rd ra rb => opText "SUB" w [rd, ra, rb]
  | .cmp w ra rb => opText "CMP" w [ra, rb]
  | .mul w rd ra rb => opText "MUL" w [rd, ra, rb]
  | .mulw w rd ra rb => opText "MULW" w [rd, ra, rb]
  | .divrem w rd ra rb rc => opText "DIVREM" w [rd, rc, ra, rb]
  | .and w rd ra rb => opText "AND" w [rd, ra, rb]
  | .or w rd ra rb => opText "OR" w [rd, ra, rb]
  | .xor w rd ra rb => opText "XOR" w [rd, ra, rb]
  | .not w rd ra => opText "NOT" w [rd, ra]
  | .shl w rd ra imm => opText "SHL" w [rd, ra] ++ ", " ++ toString imm.toNat
  | .shr w rd ra imm => opText "SHR" w [rd, ra] ++ ", " ++ toString imm.toNat
  | .modred w rd ra rc => opText "MODRED" w [rd, ra, rc]
  | .modadd w rd ra rb rc => opText "MODADD" w [rd, ra, rb, rc]
  | .modsub w rd ra rb rc => opText "MODSUB" w [rd, ra, rb, rc]
  | .modmul w rd ra rb rc => opText "MODMUL" w [rd, ra, rb, rc]
  | .modpow w rd ra rb rc => opText "MODPOW" w [rd, ra, rb, rc]
  | .modinv w rd ra rc => opText "MODINV" w [rd, ra, rc]
  | .shainit => "SHAINIT"
  | .shaupd addr len => "SHAUPD " ++ memText addr len
  | .shafin => "SHAFIN"
  | .shadig rd => "SHADIG " ++ regText rd
  | .sha256 rd addr len => "SHA256 " ++ regText rd ++ ", " ++ memText addr len
  | .clrerr => "CLRERR"

/-- The pseudo-instructions (R81). -/
inductive Pseudo where
  | mov (rd ra : Reg)
  | mov256 (rd ra : Reg)
  | clr (rd : Reg)
  | trunc256 (rd ra : Reg)
deriving DecidableEq, Repr

/-- The one command a pseudo-instruction stands for (R81). -/
def Pseudo.expand : Pseudo → Instr
  | .mov rd ra => .or .w512 rd ra ra
  | .mov256 rd ra => .or .w256 rd ra ra
  | .clr rd => .ldi rd 0#32
  | .trunc256 rd ra => .or .w256 rd ra ra

/-! ### Reading a line (R80) -/

/-- A token of a line. -/
inductive Token where
  | word (text : List Char)
  | comma
  | openBracket
  | closeBracket
deriving DecidableEq, Repr

/-- The word gathered so far, its characters in reverse, before the tokens that follow it. -/
def closeWord (gathered : List Char) (rest : List Token) : List Token :=
  if gathered = [] then rest else .word gathered.reverse :: rest

/-- The tokens of a line; a `;` starts a comment (R80). -/
def tokens : List Char → List Char → List Token
  | gathered, [] => closeWord gathered []
  | gathered, c :: rest =>
    if c = ';' then closeWord gathered []
    else if c = ' ' ∨ c = '\t' then closeWord gathered (tokens [] rest)
    else if c = ',' then closeWord gathered (.comma :: tokens [] rest)
    else if c = '[' then closeWord gathered (.openBracket :: tokens [] rest)
    else if c = ']' then closeWord gathered (.closeBracket :: tokens [] rest)
    else tokens (c :: gathered) rest

/-- The value of a digit in a base up to 16. -/
def digitValue (base : Nat) (c : Char) : Option Nat :=
  let n := c.toNat
  let v := if 48 ≤ n ∧ n ≤ 57 then n - 48 else if 97 ≤ n ∧ n ≤ 102 then n - 87 else if 65 ≤ n ∧ n ≤ 70 then n - 55 else 16
  if v < base then some v else none

/-- The value of a row of digits, none when one of them is no digit. -/
def digitsValue (base : Nat) : Nat → List Char → Option Nat
  | acc, [] => some acc
  | acc, c :: rest => (digitValue base c).bind fun v => digitsValue base (acc * base + v) rest

/-- A number, decimal or `0x` hexadecimal (R80). -/
def numberOf : List Char → Option Nat
  | '0' :: 'x' :: d :: rest => digitsValue 16 0 (d :: rest)
  | d :: rest => digitsValue 10 0 (d :: rest)
  | [] => none

/-- A register `R0` to `R15` (R80). -/
def registerOf (text : List Char) : Option Reg :=
  ((List.range 16).map (BitVec.ofNat 4)).find? fun r => decide ((regText r).toList = text)

/-- An operand as it is written. -/
inductive Operand where
  | reg (r : Reg)
  | number (n : Nat)
  | address (n : Nat)
deriving DecidableEq, Repr

/-- A register or a number. -/
def operandOf (text : List Char) : Option Operand :=
  match registerOf text with
  | some r => some (.reg r)
  | none => (numberOf text).map .number

/-- Operands between commas. -/
def operandsOf : List Token → Option (List Operand)
  | [.word x] => (operandOf x).map fun o => [o]
  | .word x :: .comma :: rest => (operandOf x).bind fun o => (operandsOf rest).map fun os => o :: os
  | .openBracket :: .word x :: .closeBracket :: .comma :: rest =>
    (numberOf x).bind fun n => (operandsOf rest).map fun os => .address n :: os
  | _ => none

/-- A number that fits a field of `n` bits. -/
def fitted (n v : Nat) : Option (BitVec n) := if v < 2 ^ n then some (BitVec.ofNat n v) else none

/-- An address and a length that fit their fields (R73). -/
def memOperand (a n : Nat) (make : BitVec 16 → BitVec 16 → Instr) : Option Instr :=
  (fitted 16 a).bind fun addr => (fitted 16 n).map fun len => make addr len

/-- The suffix `.256` or `.512`. -/
def widthOfText (text : List Char) : Option Width :=
  if text = ['2', '5', '6'] then some .w256 else if text = ['5', '1', '2'] then some .w512 else none

/-- The suffix `.BE` or `.LE`. -/
def orderOfText (text : List Char) : Option ByteOrder :=
  if text = ['B', 'E'] then some .big else if text = ['L', 'E'] then some .little else none

/-- A text cut at its full stops. -/
def dotParts : List Char → List Char → List (List Char)
  | gathered, [] => [gathered.reverse]
  | gathered, c :: rest => if c = '.' then gathered.reverse :: dotParts [] rest else dotParts (c :: gathered) rest

/-- A command without suffix, and the pseudo-instructions without one (R80, R81). -/
def plainCommand (name : String) (ops : List Operand) : Option Instr :=
  match name, ops with
  | "LDI", [.reg d, .number n] => (fitted 32 n).map (.ldi d)
  | "SHAINIT", [] => some .shainit
  | "SHAUPD", [.address a, .number n] => memOperand a n .shaupd
  | "SHAFIN", [] => some .shafin
  | "SHADIG", [.reg d] => some (.shadig d)
  | "SHA256", [.reg d, .address a, .number n] => memOperand a n (.sha256 d)
  | "CLRERR", [] => some .clrerr
  | "MOV", [.reg d, .reg a] => some (Pseudo.mov d a).expand
  | "CLR", [.reg d] => some (Pseudo.clr d).expand
  | "TRUNC256", [.reg d, .reg a] => some (Pseudo.trunc256 d a).expand
  | _, _ => none

/-- A command with a width suffix, and MOV.256 (R80, R81). -/
def widthCommand (name : String) (w : Width) (ops : List Operand) : Option Instr :=
  match name, ops with
  | "ADD", [.reg d, .reg a, .reg b] => some (.add w d a b)
  | "SUB", [.reg d, .reg a, .reg b] => some (.sub w d a b)
  | "CMP", [.reg a, .reg b] => some (.cmp w a b)
  | "MUL", [.reg d, .reg a, .reg b] => some (.mul w d a b)
  | "MULW", [.reg d, .reg a, .reg b] => some (.mulw w d a b)
  | "DIVREM", [.reg q, .reg r, .reg a, .reg b] => some (.divrem w q a b r)
  | "AND", [.reg d, .reg a, .reg b] => some (.and w d a b)
  | "OR", [.reg d, .reg a, .reg b] => some (.or w d a b)
  | "XOR", [.reg d, .reg a, .reg b] => some (.xor w d a b)
  | "NOT", [.reg d, .reg a] => some (.not w d a)
  | "SHL", [.reg d, .reg a, .number n] => (fitted 32 n).map (.shl w d a)
  | "SHR", [.reg d, .reg a, .number n] => (fitted 32 n).map (.shr w d a)
  | "MODRED", [.reg d, .reg a, .reg m] => some (.modred w d a m)
  | "MODADD", [.reg d, .reg a, .reg b, .reg m] => some (.modadd w d a b m)
  | "MODSUB", [.reg d, .reg a, .reg b, .reg m] => some (.modsub w d a b m)
  | "MODMUL", [.reg d, .reg a, .reg b, .reg m] => some (.modmul w d a b m)
  | "MODPOW", [.reg d, .reg a, .reg b, .reg m] => some (.modpow w d a b m)
  | "MODINV", [.reg d, .reg a, .reg m] => some (.modinv w d a m)
  | "MOV", [.reg d, .reg a] => if w = .w256 then some (Pseudo.mov256 d a).expand else none
  | _, _ => none

/-- LD or ST, with both suffixes (R80). -/
def orderCommand (name : String) (w : Width) (e : ByteOrder) (ops : List Operand) : Option Instr :=
  match name, ops with
  | "LD", [.reg d, .address a, .number n] => memOperand a n (.ld w e d)
  | "ST", [.reg r, .address a, .number n] => memOperand a n (.st w e r)
  | _, _ => none

/-- The command a line of assembly text stands for (R80, R81); none when the line is no command. -/
def commandOfText (line : String) : Option Instr :=
  match tokens [] line.toList with
  | .word head :: rest =>
    (if rest = [] then some [] else operandsOf rest).bind fun ops =>
      match dotParts [] head with
      | [name] => plainCommand (String.ofList name) ops
      | [name, w] => (widthOfText w).bind fun w => widthCommand (String.ofList name) w ops
      | [name, w, e] =>
        (widthOfText w).bind fun w => (orderOfText e).bind fun e => orderCommand (String.ofList name) w e ops
      | _ => none
  | _ => none

end Sys2Proof.Machine
end

