-- ==== Sys2Proof/Machine/Limbs.lean ====
section
/-! DEFINITION. The limb datapath (R8): the adder and subtractor chains, the comparator, the multiplier and the shifter as
the spec gives their structure, for any limb width L. `exec` is defined on integers (R112) and reads nothing here; that these
structures produce the same results is stated as obligations. Limbs are listed least significant first (R7). -/

namespace Sys2Proof.Machine

/-- The `n` limbs of L bits of a value. -/
def limbsOf (L : Nat) : Nat → Nat → List Nat
  | 0, _ => []
  | n + 1, v => v % 2 ^ L :: limbsOf L n (v / 2 ^ L)

/-- The value of a limb list: `Σ a_i · 2^(L·i)`. -/
def limbValue (L : Nat) : List Nat → Nat
  | [] => 0
  | a :: rest => a + 2 ^ L * limbValue L rest

/-- The carry chain of R103 from a carry in: the result limbs and the carry out. -/
def addChain (L : Nat) : Nat → List Nat → List Nat → List Nat × Nat
  | c, a :: as, b :: bs =>
    let t := a + b + c
    let rest := addChain L (t / 2 ^ L) as bs
    (t % 2 ^ L :: rest.1, rest.2)
  | c, _, _ => ([], c)

/-- The borrow chain of R104 from a borrow in: the result limbs and the borrow out. -/
def subChain (L : Nat) : Nat → List Nat → List Nat → List Nat × Nat
  | w, a :: as, b :: bs =>
    let t : Int := (a : Int) - (b : Int) - (w : Int)
    let rest := subChain L (if t < 0 then 1 else 0) as bs
    ((t % (2 ^ L : Nat)).toNat :: rest.1, rest.2)
  | w, _, _ => ([], w)

/-- Subtraction by adding the complement over W bits and a carry in of 1; the borrow is the inverted carry out (R104). -/
def subByComplement (L n : Nat) (a b : Nat) : List Nat × Nat :=
  let sum := addChain L 1 (limbsOf L n a) (limbsOf L n (2 ^ (L * n) - 1 - b))
  (sum.1, 1 - sum.2)

/-- The comparator of R141: LT, EQ, GT from the borrow chain and the OR of the difference's bits. -/
def compareLimbs (L : Nat) (as bs : List Nat) : Bool × Bool × Bool :=
  let d := subChain L 0 as bs
  let lt := d.2 == 1
  let z := d.1.any (fun r => r != 0)
  (lt, !z, !lt && z)

/-- The limb primitive `mac(x, y, c, d)` as the pair (hi, lo) (R111). -/
def mac (L x y c d : Nat) : Nat × Nat := ((x * y + c + d) / 2 ^ L, (x * y + c + d) % 2 ^ L)

/-- One row of operand scanning: the limbs `p_i .. p_(i+n-1)` after the row, then the row's carry as `p_(i+n)` (R113). -/
def scanRow (L a : Nat) : List Nat → List Nat → Nat → List Nat
  | b :: bs, p :: ps, carry => (mac L a b p carry).2 :: scanRow L a bs ps (mac L a b p carry).1
  | _, _, carry => [carry]

/-- The rows of operand scanning, one for each limb of `a`: each settles one limb of the product (R113). -/
def scanRows (L : Nat) (bs : List Nat) : List Nat → List Nat → List Nat
  | [], acc => acc
  | a :: as, acc =>
    let row := scanRow L a bs acc 0
    row.headD 0 :: scanRows L bs as row.tail

/-- The 2n-limb product of two n-limb numbers (R113). -/
def mulLimbs (L : Nat) (as bs : List Nat) : List Nat := scanRows L bs as (List.replicate bs.length 0)

/-- Limb `i` of a left shift by L·k + s bits (R136). -/
def shiftLeftLimb (L k s : Nat) (a : List Nat) (i : Nat) : Nat :=
  (if k ≤ i then a.getD (i - k) 0 * 2 ^ s % 2 ^ L else 0) +
  (if k + 1 ≤ i ∧ s ≠ 0 then a.getD (i - k - 1) 0 / 2 ^ (L - s) else 0)

/-- Limb `i` of a right shift by L·k + s bits (R136). -/
def shiftRightLimb (L k s : Nat) (a : List Nat) (i : Nat) : Nat :=
  a.getD (i + k) 0 / 2 ^ s + a.getD (i + k + 1) 0 * 2 ^ (L - s) % 2 ^ L

/-- A left shift of a limb list by `n` bits (R136). -/
def shiftLeftLimbs (L n : Nat) (a : List Nat) : List Nat :=
  (List.range a.length).map (shiftLeftLimb L (n / L) (n % L) a)

/-- A right shift of a limb list by `n` bits (R136). -/
def shiftRightLimbs (L n : Nat) (a : List Nat) : List Nat :=
  (List.range a.length).map (shiftRightLimb L (n / L) (n % L) a)

end Sys2Proof.Machine
end

