-- ==== Sys2Proof/Machine/PartialProducts.lean ====
section
/-! DEFINITION. The partial-product reduction trees of the limb multiplier, Wallace and Dadda (R114). A column is the list
of bits of one weight; column k has weight 2^k. `exec` reads nothing here (R112); that the trees give the product is
stated as an obligation. -/

namespace Sys2Proof.Machine

/-- The columns of a reduction tree, the least weight first. -/
abbrev Columns := List (List Bool)

/-- `Σ over all bits (bit · 2^column)` (R114). -/
def columnsValue : Columns → Nat
  | [] => 0
  | c :: rest => (c.filter id).length + 2 * columnsValue rest

/-- The full adder: sum and carry of three bits (R114). -/
def fullAdder (u v t : Bool) : Bool × Bool := (u ^^ v ^^ t, (u && v) || (u && t) || (v && t))

/-- The half adder: sum and carry of two bits (R114). -/
def halfAdder (u v : Bool) : Bool × Bool := (u ^^ v, u && v)

/-- Column k of the partial products of two L-bit numbers, with the bits of the further addends (R114). -/
def productColumn (L x y : Nat) (addends : List Nat) (k : Nat) : List Bool :=
  ((List.range L).filter (fun i => decide (i ≤ k ∧ k - i < L))).map (fun i => x.testBit i && y.testBit (k - i)) ++
  (if k < L then addends.map (fun a => a.testBit k) else [])

/-- The 2L columns of `x · y` plus the addends, which are L-bit rows (R114). -/
def productColumns (L x y : Nat) (addends : List Nat) : Columns :=
  (List.range (2 * L)).map (productColumn L x y addends)

/-- One column of a Dadda stage, reduced to height `d`: its bits and its carries. Each pass applies one cell (R114). -/
def daddaColumn (d : Nat) : Nat → List Bool → List Bool × List Bool
  | fuel + 1, u :: v :: t :: rest =>
    if rest.length + 3 ≤ d then (u :: v :: t :: rest, [])
    else if rest.length + 3 = d + 1 then (t :: rest ++ [(halfAdder u v).1], [(halfAdder u v).2])
    else
      let next := daddaColumn d fuel (rest ++ [(fullAdder u v t).1])
      (next.1, (fullAdder u v t).2 :: next.2)
  | _, col => (col, [])

/-- One Dadda stage; the carries of a column join the next column in the same stage (R114). -/
def daddaStage (d : Nat) : List Bool → Columns → Columns
  | _, [] => []
  | carries, c :: rest =>
    let col := daddaColumn d (c.length + carries.length) (c ++ carries)
    col.1 :: daddaStage d col.2 rest

/-- The heights of the Dadda sequence below `h`, the largest first, from `d_1 = 2` and `d_(j+1) = floor(3·d_j / 2)` (R114). -/
def daddaHeights (h : Nat) : Nat → Nat → List Nat
  | 0, _ => []
  | fuel + 1, d => if d < h then daddaHeights h fuel (3 * d / 2) ++ [d] else []

/-- The Dadda tree (R114). -/
def daddaTree (height : Nat) (cols : Columns) : Columns :=
  (daddaHeights height height 2).foldl (fun cs d => daddaStage d [] cs) cols

/-- One column of a Wallace stage: full adders on groups of three, a half adder on a leftover pair (R114). -/
def wallaceColumn : List Bool → List Bool × List Bool
  | u :: v :: t :: rest =>
    let next := wallaceColumn rest
    ((fullAdder u v t).1 :: next.1, (fullAdder u v t).2 :: next.2)
  | [u, v] => ([(halfAdder u v).1], [(halfAdder u v).2])
  | col => (col, [])

/-- One Wallace stage; the carries of a column stand in the next column for the next stage (R114). -/
def wallaceStage : List Bool → Columns → Columns
  | _, [] => []
  | carries, c :: rest => ((wallaceColumn c).1 ++ carries) :: wallaceStage (wallaceColumn c).2 rest

/-- The Wallace tree: stages until every column has at most two bits (R114). -/
def wallaceTree : Nat → Columns → Columns
  | 0, cols => cols
  | fuel + 1, cols =>
    if cols.all (fun c => decide (c.length ≤ 2)) then cols else wallaceTree fuel (wallaceStage [] cols)

/-- Row `j` of a reduced tree as a number: bit k is the j-th bit of column k. -/
def rowValue (j : Nat) : Columns → Nat
  | [] => 0
  | c :: rest => (c.getD j false).toNat + 2 * rowValue j rest

/-- The carry-propagate adder over the two rows that are left, at 2L bits (R114). -/
def addRows (L : Nat) (cols : Columns) : Nat := (rowValue 0 cols + rowValue 1 cols) % 2 ^ (2 * L)

/-- `x · y` plus the addends by the Dadda tree (R114). -/
def daddaProduct (L x y : Nat) (addends : List Nat) : Nat :=
  addRows L (daddaTree (L + addends.length) (productColumns L x y addends))

/-- `x · y` plus the addends by the Wallace tree (R114). -/
def wallaceProduct (L x y : Nat) (addends : List Nat) : Nat :=
  addRows L (wallaceTree (2 * L) (productColumns L x y addends))

end Sys2Proof.Machine
end

