-- ==== Sys2Proof/Machine/Reduction.lean ====
section
/-! DEFINITION. The methods of the divider and the modular unit that the spec gives for the implementer: restoring
division (R126), Montgomery (R155) and Barrett (R156) reduction. `exec` is defined on integers (R147) and reads nothing
here; that the methods give the same results is stated as obligations. -/

namespace Sys2Proof.Machine

/-- The steps of restoring division for the bits below `i` of the dividend, most significant first (R126). -/
def restoringSteps (a b : Nat) : Nat → Nat → Nat → Nat × Nat
  | 0, q, r => (q, r)
  | i + 1, q, r =>
    let t := 2 * r + (a.testBit i).toNat
    if b ≤ t then restoringSteps a b i (q + 2 ^ i) (t - b) else restoringSteps a b i q t

/-- Restoring division of W-bit operands: the quotient and the remainder (R126). -/
def restoringDivide (W a b : Nat) : Nat × Nat := restoringSteps a b W 0 0

/-- `REDC(T)` for the radix `Rm` and the constant `m'` with m·m' ≡ −1 modulo Rm (R155). -/
def redc (Rm m m' T : Nat) : Nat :=
  let u := T % Rm * m' % Rm
  let t := (T + u * m) / Rm
  if m ≤ t then t - m else t

/-- The ordinary product by two reductions and the constant `R2 = Rm² mod m` (R155). -/
def montgomeryProduct (Rm m m' x y : Nat) : Nat := redc Rm m m' (redc Rm m m' (x * y) * (Rm ^ 2 % m))

/-- The limb-serial passes of REDC: one limb of the radix a pass (R155). -/
def redcPasses (L m m0 : Nat) : Nat → Nat → Nat
  | 0, t => t
  | n + 1, t => redcPasses L m m0 n ((t + t % 2 ^ L * m0 % 2 ^ L * m) / 2 ^ L)

/-- The limb-serial REDC with its final select (R155). -/
def redcLimbs (L n m m0 T : Nat) : Nat :=
  let t := redcPasses L m m0 n T
  if m ≤ t then t - m else t

/-- The bit length of a modulus: `2^(k−1) ≤ m < 2^k` (R156). -/
def bitLength (m : Nat) : Nat := Nat.log2 m + 1

/-- Barrett reduction, its two corrections as selects (R156). -/
def barrett (m x : Nat) : Nat :=
  let k := bitLength m
  let mu := 2 ^ (2 * k) / m
  let q := x / 2 ^ (k - 1) * mu / 2 ^ (k + 1)
  let r := x - q * m
  let r := if m ≤ r then r - m else r
  if m ≤ r then r - m else r

end Sys2Proof.Machine
end

