-- ==== Sys2Proof/Safety.lean ====
section
/-! DEFINITION. The terms the statements are made in: what a command leaves unchanged, how one completes and how one
fails, which errors it can raise, running commands in sequence, and the invariant of the state. -/

namespace Sys2Proof.Machine

/-! ### What is unchanged from `s` to `t` -/

/-- Every register but the listed ones (R25). -/
def KeepsRegsBut (dests : List Reg) (s t : State) : Prop := ∀ r, r ∉ dests → t.reg r = s.reg r

/-- Every bit of STATUS but the listed ones (R30). -/
def KeepsStatusBut (bits : List Nat) (s t : State) : Prop :=
  ∀ n, n ∉ bits → t.status.getLsbD n = s.status.getLsbD n

/-- ERRCMD (R31). -/
def KeepsErrcmd (s t : State) : Prop := t.errcmd = s.errcmd

/-- H, BUF and TOTLEN (R33). -/
def KeepsHash (s t : State) : Prop := t.hash = s.hash ∧ t.buf = s.buf ∧ t.totlen = s.totlen

/-- Every byte of MEM, by the read of one byte. -/
def KeepsMem (s t : State) : Prop := ∀ a, t.readByte a = s.readByte a

/-- Every byte of MEM outside the `n` bytes from `addr`. -/
def KeepsMemOutside (addr n : Nat) (s t : State) : Prop :=
  ∀ a, ¬ (addr ≤ a ∧ a < addr + n) → t.readByte a = s.readByte a

/-- MEM_BYTES (R20: it never changes). -/
def KeepsSize (s t : State) : Prop := t.memBytes = s.memBytes

/-- The model's own fields but the answer (log entries 1, 4, 5). -/
def KeepsOwn (s t : State) : Prop := t.host = s.host ∧ t.resets = s.resets ∧ t.draws = s.draws

/-- The bit positions of C, of LT, EQ, GT, of SST and of ERR in STATUS (R30). -/
def bitsC : List Nat := [0]
/-- LT, EQ, GT. -/
def bitsOrder : List Nat := [1, 2, 3]
/-- SST. -/
def bitsSession : List Nat := [4, 5]
/-- ERR. -/
def bitsErr : List Nat := [8, 9, 10, 11]

/-! ### How a command ends -/

/-- The block put this code on the response channel (R214). -/
def Answers (code : BitVec 4) (t : State) : Prop := t.answer = some (.response code)

/-- A command that writes no memory, no session state and no error record succeeded: it answered OK and changed only the
listed registers and the listed bits of STATUS. -/
def Completes (dests : List Reg) (bits : List Nat) (s t : State) : Prop :=
  Answers okCode t ∧ KeepsRegsBut dests s t ∧ KeepsStatusBut bits s t ∧ KeepsErrcmd s t ∧ KeepsHash s t ∧
    KeepsMem s t ∧ KeepsSize s t

/-- A command word failed with an error, with the complete effect of R213 and R216: its code is answered, it is captured
if ERR was 0, and nothing else changed. -/
def FailsWith (e : ErrorKind) (word : CmdWord) (s t : State) : Prop :=
  Answers e.code t ∧ KeepsRegsBut [] s t ∧ KeepsStatusBut bitsErr s t ∧ KeepsHash s t ∧ KeepsMem s t ∧ KeepsSize s t ∧
    (s.err = 0#4 → t.err = e.code ∧ t.errcmd = word) ∧ (s.err ≠ 0#4 → t.err = s.err ∧ t.errcmd = s.errcmd)

/-- The word is the encoding of the command, and decodes to it (R71, R79). -/
def EncodedAs (word : CmdWord) (i : Instr) : Prop := encode i = word ∧ decode word = .ok i

/-- The weight, as a power of two, of the byte at `addr + k` of a W-bit value: e = 0 makes the byte at the lowest address
the most significant, e = 1 the least significant (R10, R52). -/
def byteWeight (w : Width) (e : ByteOrder) (k : Nat) : Nat :=
  match e with
  | .big => 8 * (w.bytes - 1 - k)
  | .little => 8 * k

/-- The session is one that takes input: SST is Init or Absorbing (R34). -/
def State.takesInput (s : State) : Prop := s.session = .init ∨ s.session = .absorbing

/-- The architectural state of the block but MEM, and MEM_BYTES: what a move of the host on the memory or the status
channel leaves unchanged (R20, R243). -/
def KeepsBlockButMem (s t : State) : Prop :=
  t.regs = s.regs ∧ t.status = s.status ∧ t.errcmd = s.errcmd ∧ KeepsHash s t ∧ t.memBytes = s.memBytes ∧
    t.resets = s.resets

/-! ### The errors of a command (R217, R218) -/

/-- The first of the checks that applies. -/
def firstOf : List (Bool × ErrorKind) → Option ErrorKind
  | [] => none
  | (applies, e) :: rest => if applies then some e else firstOf rest

/-- The error a command raises in a state, by the matrix of R217 in the order of R218; none when it succeeds. -/
def raises (i : Instr) (s : State) : Option ErrorKind :=
  match i with
  | .ld w _ _ addr len | .st w _ _ addr len =>
    firstOf [(len.toNat != w.bytes, .lengthMismatch), (decide (s.memBytes < addr.toNat + len.toNat), .addressRange)]
  | .divrem w rd _ rb rc => firstOf [(rd == rc, .illegalCommand), (s.src w rb == 0, .divisionByZero)]
  | .modred w _ _ rc | .modadd w _ _ _ rc | .modsub w _ _ _ rc | .modmul w _ _ _ rc | .modpow w _ _ _ rc =>
    firstOf [(s.src w rc == 0, .modulusZero)]
  | .modinv w _ ra rc =>
    firstOf [(s.src w rc == 0, .modulusZero), (Nat.gcd (s.src w ra) (s.src w rc) != 1, .notInvertible)]
  | .shaupd addr len =>
    firstOf [(decide (s.memBytes < addr.toNat + len.toNat), .addressRange), (s.session == .done, .invalidSessionState)]
  | .shafin => firstOf [(s.session == .done, .invalidSessionState)]
  | .shadig _ => firstOf [(s.session != .done, .invalidSessionState)]
  | .sha256 _ addr len => firstOf [(decide (s.memBytes < addr.toNat + len.toNat), .addressRange)]
  | .ldi _ _ | .add _ _ _ _ | .sub _ _ _ _ | .cmp _ _ _ | .mul _ _ _ _ | .mulw _ _ _ _ | .and _ _ _ _ | .or _ _ _ _
  | .xor _ _ _ _ | .not _ _ _ | .shl _ _ _ _ | .shr _ _ _ _ | .shainit | .clrerr => none

/-- The case the spec gives no result: a SHAUPD that would make TOTLEN reach 2^64 (R182, U2). -/
def overflowsLength (i : Instr) (s : State) : Prop :=
  ∃ addr len, i = .shaupd addr len ∧ raises i s = none ∧ 2 ^ 64 ≤ s.totlen.toNat + 8 * len.toNat

/-! ### What a command may write (R25, R29) -/

/-- The registers a command writes (R25). -/
def destinations : Instr → List Reg
  | .ldi rd _ | .ld _ _ rd _ _ | .add _ rd _ _ | .sub _ rd _ _ | .mul _ rd _ _ | .and _ rd _ _ | .or _ rd _ _
  | .xor _ rd _ _ | .not _ rd _ | .shl _ rd _ _ | .shr _ rd _ _ | .modred _ rd _ _ | .modadd _ rd _ _ _
  | .modsub _ rd _ _ _ | .modmul _ rd _ _ _ | .modpow _ rd _ _ _ | .modinv _ rd _ _ | .shadig rd | .sha256 rd _ _ => [rd]
  | .mulw .w256 rd _ _ => [rd]
  | .mulw .w512 rd _ _ => [rd, rd + 1]
  | .divrem _ rd _ _ rc => [rd, rc]
  | .st _ _ _ _ _ | .cmp _ _ _ | .shainit | .shaupd _ _ | .shafin | .clrerr => []

/-- The registers a command reads (R25). -/
def sources : Instr → List Reg
  | .st _ _ ra _ _ | .not _ _ ra | .shl _ _ ra _ | .shr _ _ ra _ => [ra]
  | .add _ _ ra rb | .sub _ _ ra rb | .cmp _ ra rb | .mul _ _ ra rb | .mulw _ _ ra rb | .divrem _ _ ra rb _
  | .and _ _ ra rb | .or _ _ ra rb | .xor _ _ ra rb => [ra, rb]
  | .modred _ _ ra rc | .modinv _ _ ra rc => [ra, rc]
  | .modadd _ _ ra rb rc | .modsub _ _ ra rb rc | .modmul _ _ ra rb rc | .modpow _ _ ra rb rc => [ra, rb, rc]
  | .ldi _ _ | .ld _ _ _ _ _ | .shainit | .shaupd _ _ | .shafin | .shadig _ | .sha256 _ _ _ | .clrerr => []

/-- The bits of STATUS a command writes when it succeeds (R29, R30). -/
def statusBits : Instr → List Nat
  | .add _ _ _ _ | .sub _ _ _ _ => bitsC
  | .cmp _ _ _ => bitsOrder
  | .shainit | .shaupd _ _ | .shafin | .sha256 _ _ _ => bitsSession
  | .clrerr => bitsErr
  | .ldi _ _ | .ld _ _ _ _ _ | .st _ _ _ _ _ | .mul _ _ _ _ | .mulw _ _ _ _ | .divrem _ _ _ _ _ | .and _ _ _ _
  | .or _ _ _ _ | .xor _ _ _ _ | .not _ _ _ | .shl _ _ _ _ | .shr _ _ _ _ | .modred _ _ _ _ | .modadd _ _ _ _ _
  | .modsub _ _ _ _ _ | .modmul _ _ _ _ _ | .modpow _ _ _ _ _ | .modinv _ _ _ _ | .shadig _ => []

/-- A command that writes H, BUF or TOTLEN when it succeeds (R33, R172). -/
def writesHash : Instr → Bool
  | .shainit | .shaupd _ _ | .shafin | .sha256 _ _ _ => true
  | _ => false

/-- The width of a command that has one (R72, R74). -/
def widthOf : Instr → Option Width
  | .ld w _ _ _ _ | .st w _ _ _ _ | .add w _ _ _ | .sub w _ _ _ | .cmp w _ _ | .mul w _ _ _ | .mulw w _ _ _
  | .divrem w _ _ _ _ | .and w _ _ _ | .or w _ _ _ | .xor w _ _ _ | .not w _ _ | .shl w _ _ _ | .shr w _ _ _
  | .modred w _ _ _ | .modadd w _ _ _ _ | .modsub w _ _ _ _ | .modmul w _ _ _ _ | .modpow w _ _ _ _ | .modinv w _ _ _ =>
    some w
  | .ldi _ _ | .shainit | .shaupd _ _ | .shafin | .shadig _ | .sha256 _ _ _ | .clrerr => none

/-! ### Commands in sequence -/

/-- Go on from a next state. -/
def andThen (r : Result) (f : State → Result) : Result :=
  match r with
  | .next s => f s
  | .fault e => .fault e
  | .refused e => .refused e

/-- Commands one after another, each after the response to the one before (R28). -/
def runCommands : List Instr → State → Result
  | [], s => .next s
  | i :: rest, s => andThen (exec i s) (runCommands rest)

/-- A piece of a message: what MEM holds when its SHAUPD runs, and where the piece stands in it (R188). -/
structure Piece where
  mem : Memory
  addr : BitVec 16
  len : BitVec 16
deriving DecidableEq, Repr

/-- The host fills MEM for a piece. -/
def State.withPiece (p : Piece) (s : State) : State := { s with mem := p.mem }

/-- The bytes of a piece. -/
def pieceBytes (s : State) (p : Piece) : List Byte := (s.withPiece p).readBytes p.addr.toNat p.len.toNat

/-- One SHAUPD for each piece, MEM filled before each (R181, R188). -/
def feedPieces : List Piece → State → Result
  | [], s => .next s
  | p :: rest, s => andThen (exec (.shaupd p.addr p.len) (s.withPiece p)) (feedPieces rest)

/-- The eight final words of a message of whole bytes: `Absorb` from the initial words, then `Pad` (R176, R183). -/
def hashMessage (message : List Byte) : HashWords :=
  (pad (absorb ⟨hashIV, []⟩ message) (BitVec.ofNat 64 (8 * message.length))).h

/-! ### The invariant -/

/-- What holds of every state of the block between two steps. -/
structure State.Inv (s : State) : Prop where
  /-- MEM_BYTES is legal (R7). -/
  memSize : Config.minMemBytes ≤ s.memBytes ∧ s.memBytes ≤ Config.maxMemBytes
  /-- MEM is in its canonical form. -/
  memCanonical : Memory.wf s.mem = true
  /-- Only bytes of MEM that exist are written (R50). -/
  memBounded : ∀ c ∈ s.mem, c.1 < s.memBytes
  /-- The reserved bits of STATUS read as 0 (R30). -/
  reservedZero : getField s.status 6 2 = 0#2 ∧ getField s.status 12 20 = 0#20
  /-- No two of LT, EQ, GT are 1 together (R29). -/
  orderOneHot : !(s.flagLT && s.flagEQ) && !(s.flagEQ && s.flagGT) && !(s.flagLT && s.flagGT)
  /-- ERR is 0 or a code that is raised (R211). -/
  errLegal : s.err.toNat ≤ 8 ∧ s.err ≠ 5#4
  /-- ERRCMD is 0 when ERR is 0 (R31). -/
  errcmdZero : s.err = 0#4 → s.errcmd = 0#64
  /-- Finalizing never holds between commands (R34). -/
  notFinalizing : s.session ≠ .finalizing
  /-- BUFLEN ≤ 63 (R33). -/
  bufShort : s.buf.length ≤ 63
  /-- In Init, H holds the initial words, BUF is empty and TOTLEN is 0 (R34). -/
  initFresh : s.session = .init → s.hash = hashIV ∧ s.buf = [] ∧ s.totlen = 0#64
  /-- In Init and Absorbing, TOTLEN is a multiple of 8 and BUFLEN = (TOTLEN / 8) mod 64 (R34). -/
  bufCounted : s.takesInput → s.totlen.toNat % 8 = 0 ∧ s.buf.length = s.totlen.toNat / 8 % 64
  /-- In Done, BUF is empty (R184). -/
  doneEmpty : s.session = .done → s.buf = []

end Sys2Proof.Machine
end

