-- ==== Sys2Proof/Certificates/Slice0/Obligations.lean ====
section
/-! DEFINITION. The statements for the provers. Each docstring names the rule of spec/ it formalises. -/

open Sys2Proof Sys2Proof.Machine

/-! ### Encoding -/

/-- R71, R76, R79: decoding the encoding of any well-formed command gives it back, with every operand. -/
def Obligations.DecodeOfEncode : Prop :=
  ∀ i : Instr, i.wellFormed = true → decode (encode i) = .ok i

/-- R77, R79: a word that decodes is the encoding of what it decodes to, so every bit a format does not use is 0. -/
def Obligations.EncodeOfDecode : Prop :=
  ∀ (c : CmdWord) (i : Instr), decode c = .ok i → encode i = c ∧ i.wellFormed = true

/-- R75: a word encodes a command exactly when it matches its row of the table (and, for DIVREM, rd ≠ rc), and no two rows
match the same word. -/
def Obligations.DecodesExactlyByTable : Prop :=
  (∀ (c : CmdWord) (i : Instr), decode c = .ok i ↔
    ∃ row ∈ opRows, c &&& row.mask = row.pattern ∧ (row.op = .DIVREM → c.rd ≠ c.rc) ∧ i = row.op.operands c) ∧
  (∀ c : CmdWord, ∀ r ∈ opRows, ∀ r' ∈ opRows,
    c &&& r.mask = r.pattern → c &&& r'.mask = r'.pattern → r = r')

/-- 95_test_vectors.md section 2.1 (E1, E3, E4, E5, E15, E16, E23, E24): words of the spec and what they decode to, and the
assembly text of some of them. -/
def Obligations.SpecWordsDecode : Prop :=
  decode 0x0000000000000000#64 = .error .unassignedOpcode ∧
  decode 0x1000201000000000#64 = .ok (.add .w256 2 0 1) ∧
  decode 0x1080201000000000#64 = .ok (.add .w512 2 0 1) ∧
  decode 0x1040201000000000#64 = .error .mustBeZero ∧
  decode 0x2200201200000000#64 = .error .divremSameDestination ∧
  decode 0x2200201300000000#64 = .ok (.divrem .w256 2 0 1 3) ∧
  decode 0x34803100FFFFFFFF#64 = .ok (.shl .w512 3 1 4294967295) ∧
  decode 0x02401000001F0010#64 = .ok (.ld .w256 .little 1 0x10 31) ∧
  commandOfText "ADD.512 R2, R0, R1" = some (.add .w512 2 0 1) ∧
  commandOfText "DIVREM.256 R2, R3, R0, R1" = some (.divrem .w256 2 0 1 3) ∧
  commandOfText "LD.256.LE R1, [0x0010], 31" = some (.ld .w256 .little 1 0x10 31)

/-! ### The step and the host -/

/-- R58, R79: when the host issues a word that decodes to a command, the step is that command's, with the move taken. -/
def Obligations.StepRunsIssuedCommand : Prop :=
  ∀ (s : State) (word : CmdWord) (rest : List HostMove) (i : Instr),
    s.host = .issue word :: rest → decode word = .ok i → step s = exec i { s with host := rest }

/-- R212: a word that matches no row of R75, or a DIVREM with rd = rc, raises IllegalCommand whatever the state is. -/
def Obligations.IllegalWordRaisesIllegalCommand : Prop :=
  ∀ (s : State) (word : CmdWord) (rest : List HostMove), s.host = .issue word :: rest →
    (∀ row ∈ opRows, word &&& row.mask = row.pattern → row.op = .DIVREM ∧ word.rd = word.rc) →
    ∃ t, step s = .next t ∧ FailsWith .illegalCommand word { s with host := rest } t

/-- R37, R240: when the host asserts reset, between commands or while one executes, all state takes its reset value, no byte
of MEM is written any more, and there is no response. MEM_BYTES stays (R241). That reset is a move of the host, and a reset
during a command another, is the model's choice (log entries 1, 7), and that no byte is listed renders "unspecified" (log
entry 4). -/
def Obligations.ResetGivesResetValues : Prop :=
  ∀ (s : State) (word : CmdWord) (rest : List HostMove),
    (s.host = .reset :: rest ∨ s.host = .abandon word :: rest) →
    ∃ t, step s = .next t ∧ (∀ r, t.reg r = 0#512) ∧ t.status = 0#32 ∧ t.errcmd = 0#64 ∧
      t.hash = ⟨0x6a09e667#32, 0xbb67ae85#32, 0x3c6ef372#32, 0xa54ff53a#32, 0x510e527f#32, 0x9b05688c#32, 0x1f83d9ab#32,
        0x5be0cd19#32⟩ ∧
      t.buf = [] ∧ t.totlen = 0#64 ∧ (∀ a, Memory.get? t.mem a = none) ∧ t.answer = none ∧ t.memBytes = s.memBytes ∧
      t.host = rest

/-- R64: the host writes and reads MEM one byte at a time; at or above MEM_BYTES a write does nothing, and a read changes
nothing and returns a byte. -/
def Obligations.HostAccessesBytesOfMem : Prop :=
  (∀ (s : State) (addr : BitVec 16) (byte : Byte) (rest : List HostMove), s.host = .memWrite addr byte :: rest →
    ∃ t, step s = .next t ∧ t.host = rest ∧ KeepsBlockButMem s t ∧
      (addr.toNat < s.memBytes → t.readByte addr.toNat = byte ∧ KeepsMemOutside addr.toNat 1 s t) ∧
      (s.memBytes ≤ addr.toNat → KeepsMem s t)) ∧
  (∀ (s : State) (addr : BitVec 16) (rest : List HostMove), s.host = .memRead addr :: rest →
    ∃ t, step s = .next t ∧ t.host = rest ∧ KeepsBlockButMem s t ∧ KeepsMem s t ∧
      (addr.toNat < s.memBytes → t.answer = some (.memByte (s.readByte addr.toNat))) ∧
      (s.memBytes ≤ addr.toNat → ∃ byte, t.answer = some (.memByte byte)))

/-- R32, R220: a control register is read by its number, any other number reads as 0, `err_o` is ERR ≠ 0, and none of these
reads has a side effect. -/
def Obligations.HostReadsControlRegisters : Prop :=
  (∀ (s : State) (number : Nat) (rest : List HostMove), s.host = .readControl number :: rest →
    ∃ t v, step s = .next t ∧ t.host = rest ∧ KeepsBlockButMem s t ∧ KeepsMem s t ∧ t.answer = some (.control v) ∧
      (number = 0 → v.toNat = s.status.toNat) ∧ (number = 1 → v = s.errcmd) ∧ (2 ≤ number → v = 0#64)) ∧
  (∀ (s : State) (rest : List HostMove), s.host = .observeErr :: rest →
    ∃ t level, step s = .next t ∧ t.host = rest ∧ KeepsBlockButMem s t ∧ KeepsMem s t ∧
      t.answer = some (.errLevel level) ∧ (level = true ↔ s.err ≠ 0#4))

/-- R37: the state right after reset meets the invariant. -/
def Obligations.ResetStateMeetsInvariant : Prop := State.Inv State.reset

/-- R20, R30, R31, R33, R34, R35: every step keeps the invariant, from every state that meets it. -/
def Obligations.StepKeepsInvariant : Prop :=
  ∀ s t : State, State.Inv s → step s = .next t → State.Inv t

/-- R35, R56: a byte of MEM changes only when an ST that covers it executes, when the host writes it, or at reset. -/
def Obligations.MemChangesOnlyByStoreHostOrReset : Prop :=
  ∀ (s t : State) (a : Nat), step s = .next t → t.readByte a ≠ s.readByte a →
    (∃ word rest w e ra addr len, s.host = .issue word :: rest ∧ decode word = .ok (.st w e ra addr len) ∧
      addr.toNat ≤ a ∧ a < addr.toNat + w.bytes) ∨
    (∃ addr byte rest, s.host = .memWrite addr byte :: rest ∧ a = addr.toNat) ∨
    (∃ rest, s.host = .reset :: rest) ∨ (∃ word rest, s.host = .abandon word :: rest)

/-- R224, with the exception of R182: every step goes on, except that the model refuses the SHAUPD that would make TOTLEN
reach 2^64 (log entry 6). -/
def Obligations.StepGoesOnUnlessLengthOverflows : Prop :=
  ∀ s : State, (∃ t, step s = .next t) ∨
    (∃ word rest i, s.host = .issue word :: rest ∧ decode word = .ok i ∧ overflowsLength i s ∧
      step s = .refused .hashLengthOverflow)

/-! ### Errors -/

/-- R213, R215, R216, R217, R218: a command raises exactly the error of the matrix, the first in the order of priority; it
then writes nothing but the first-error capture, and answers the error's code. -/
def Obligations.FailingCommandWritesNothing : Prop :=
  ∀ (i : Instr) (s : State) (e : ErrorKind), raises i s = some e →
    ∃ t, exec i s = .next t ∧ FailsWith e (encode i) s t

/-- R214, R216: a command that raises no error answers OK, and changes neither ERR nor ERRCMD, CLRERR apart. -/
def Obligations.SuccessfulCommandKeepsErrorRecord : Prop :=
  ∀ (i : Instr) (s : State), raises i s = none → ¬ overflowsLength i s →
    ∃ t, exec i s = .next t ∧ Answers okCode t ∧ (i ≠ .clrerr → t.err = s.err ∧ t.errcmd = s.errcmd)

/-- R219: an error depends only on the command word, MEM_BYTES, SST and the source registers the command reads. -/
def Obligations.ErrorsDependOnlyOnWordSizeSessionSources : Prop :=
  ∀ (i : Instr) (s s' t t' : State), s'.memBytes = s.memBytes → s'.session = s.session →
    (∀ r ∈ sources i, s'.reg r = s.reg r) → exec i s = .next t → exec i s' = .next t' → t'.answer = t.answer

/-- R200: CLRERR returns ERR and ERRCMD to 0 and touches nothing else. -/
def Obligations.ClrerrClearsTheErrorRecord : Prop :=
  ∀ s : State, EncodedAs 0xF000000000000000#64 .clrerr ∧
    ∃ t, exec .clrerr s = .next t ∧ Answers okCode t ∧ t.err = 0#4 ∧ t.errcmd = 0#64 ∧ t.errOut = false ∧
      KeepsRegsBut [] s t ∧ KeepsStatusBut bitsErr s t ∧ KeepsHash s t ∧ KeepsMem s t ∧ KeepsSize s t

/-! ### Frames over all commands -/

/-- R25: a command writes no register beyond its destinations. -/
def Obligations.CommandsWriteOnlyTheirDestinations : Prop :=
  ∀ (i : Instr) (s t : State), exec i s = .next t → KeepsRegsBut (destinations i) s t

/-- R29, R30: a command that succeeds writes only its own bits of STATUS, and one that fails only ERR. -/
def Obligations.CommandsWriteOnlyTheirStatusBits : Prop :=
  ∀ (i : Instr) (s t : State), exec i s = .next t →
    (raises i s = none → KeepsStatusBut (statusBits i) s t) ∧ (raises i s ≠ none → KeepsStatusBut bitsErr s t)

/-- R33, R35, R50: only the hash commands write H, BUF and TOTLEN, only ST writes MEM, and only the W/8 bytes from its
address; no command changes MEM_BYTES, and of the model's own fields one changes only the answer (log entries 1, 4, 5). -/
def Obligations.CommandsWriteMemAndSessionOnlyAsNamed : Prop :=
  ∀ (i : Instr) (s t : State), exec i s = .next t →
    (writesHash i = false → KeepsHash s t) ∧ KeepsSize s t ∧ KeepsOwn s t ∧
    (match i with
      | .st w _ _ addr _ => KeepsMemOutside addr.toNat w.bytes s t
      | _ => KeepsMem s t)

/-- R23: at W = 256 the bits 511:256 of the registers have no effect on the result, the flags or the errors. -/
def Obligations.UpperHalvesIgnoredAt256 : Prop :=
  ∀ (i : Instr) (s s' t : State), widthOf i = some .w256 → s' = { s with regs := s'.regs } →
    (∀ r, s'.src .w256 r = s.src .w256 r) → exec i s = .next t →
    ∃ t', exec i s' = .next t' ∧ t' = { t with regs := t'.regs } ∧
      (raises i s = none → ∀ r ∈ destinations i, t'.reg r = t.reg r)

/-! ### Construction and serialisation -/

/-- R91: LDI writes its immediate, zero-extended. -/
def Obligations.LdiWritesItsImmediate : Prop :=
  ∀ (rd : Reg) (imm : BitVec 32) (s : State),
    EncodedAs (assemble 0x01#8 0#1 0#1 rd 0#4 0#4 0#4 imm) (.ldi rd imm) ∧
    ∃ t, exec (.ldi rd imm) s = .next t ∧ Completes [rd] [] s t ∧ (t.reg rd).toNat = imm.toNat

/-- R92: LD checks its length, then its range, then writes the integer of the W/8 bytes in the order e names. -/
def Obligations.LdConstructsFromBytes : Prop :=
  ∀ (w : Width) (e : ByteOrder) (rd : Reg) (addr len : BitVec 16) (s : State),
    EncodedAs (assemble 0x02#8 w.bit e.bit rd 0#4 0#4 0#4 (len ++ addr)) (.ld w e rd addr len) ∧
    (len.toNat ≠ w.bytes → ∃ t, exec (.ld w e rd addr len) s = .next t ∧
      FailsWith .lengthMismatch (encode (.ld w e rd addr len)) s t) ∧
    (len.toNat = w.bytes → s.memBytes < addr.toNat + len.toNat → ∃ t, exec (.ld w e rd addr len) s = .next t ∧
      FailsWith .addressRange (encode (.ld w e rd addr len)) s t) ∧
    (len.toNat = w.bytes → addr.toNat + len.toNat ≤ s.memBytes → ∃ t, exec (.ld w e rd addr len) s = .next t ∧
      Completes [rd] [] s t ∧
      (t.reg rd).toNat =
        ∑ k ∈ Finset.range w.bytes, (s.readByte (addr.toNat + k)).toNat * 2 ^ byteWeight w e k)

/-- R93: ST checks its length, then its range, then writes the W/8 bytes of its operand in the order e names, and no others. -/
def Obligations.StSerialisesToBytes : Prop :=
  ∀ (w : Width) (e : ByteOrder) (ra : Reg) (addr len : BitVec 16) (s : State),
    EncodedAs (assemble 0x03#8 w.bit e.bit 0#4 ra 0#4 0#4 (len ++ addr)) (.st w e ra addr len) ∧
    (len.toNat ≠ w.bytes → ∃ t, exec (.st w e ra addr len) s = .next t ∧
      FailsWith .lengthMismatch (encode (.st w e ra addr len)) s t) ∧
    (len.toNat = w.bytes → s.memBytes < addr.toNat + len.toNat → ∃ t, exec (.st w e ra addr len) s = .next t ∧
      FailsWith .addressRange (encode (.st w e ra addr len)) s t) ∧
    (len.toNat = w.bytes → addr.toNat + len.toNat ≤ s.memBytes → ∃ t, exec (.st w e ra addr len) s = .next t ∧
      Answers okCode t ∧ KeepsRegsBut [] s t ∧ KeepsStatusBut [] s t ∧ KeepsErrcmd s t ∧ KeepsHash s t ∧ KeepsSize s t ∧
      (∀ k, k < w.bytes → t.readByte (addr.toNat + k) = BitVec.ofNat 8 (s.src w ra / 2 ^ byteWeight w e k)) ∧
      KeepsMemOutside addr.toNat w.bytes s t)

/-- R94, R95: storing and loading with one order gives the value back, loading and storing gives the bytes back, and storing
with one order and loading with the other reverses the W/8 bytes. -/
def Obligations.StoreAndLoadRoundTrip : Prop :=
  ∀ (w : Width) (e : ByteOrder) (ra rd : Reg) (addr addr2 len : BitVec 16) (s : State), len.toNat = w.bytes →
    addr.toNat + len.toNat ≤ s.memBytes → addr2.toNat + len.toNat ≤ s.memBytes →
    (∃ t u, exec (.st w e ra addr len) s = .next t ∧ exec (.ld w e rd addr len) t = .next u ∧
      u.src w rd = s.src w ra) ∧
    (∃ t u, exec (.ld w e rd addr len) s = .next t ∧ exec (.st w e rd addr2 len) t = .next u ∧
      ∀ k, k < w.bytes → u.readByte (addr2.toNat + k) = s.readByte (addr.toNat + k)) ∧
    (∀ e', e' ≠ e → ∃ t u, exec (.st w e ra addr len) s = .next t ∧ exec (.ld w e' rd addr len) t = .next u ∧
      ∀ k, k < w.bytes → u.src w rd / 2 ^ (8 * k) % 256 = s.src w ra / 2 ^ (8 * (w.bytes - 1 - k)) % 256)

/-! ### Adder, subtractor, comparator -/

/-- R101: ADD writes the sum modulo 2^W, and C is the carry out. -/
def Obligations.AddWritesSumAndCarry : Prop :=
  ∀ (w : Width) (rd ra rb : Reg) (s : State),
    EncodedAs (assemble 0x10#8 w.bit 0#1 rd ra rb 0#4 0#32) (.add w rd ra rb) ∧
    ∃ t, exec (.add w rd ra rb) s = .next t ∧ Completes [rd] bitsC s t ∧
      (t.reg rd).toNat = (s.src w ra + s.src w rb) % 2 ^ w.bits ∧
      t.flagC.toNat = (s.src w ra + s.src w rb) / 2 ^ w.bits

/-- R102: SUB writes the difference modulo 2^W, and C is the borrow. -/
def Obligations.SubWritesDifferenceAndBorrow : Prop :=
  ∀ (w : Width) (rd ra rb : Reg) (s : State),
    EncodedAs (assemble 0x11#8 w.bit 0#1 rd ra rb 0#4 0#32) (.sub w rd ra rb) ∧
    ∃ t, exec (.sub w rd ra rb) s = .next t ∧ Completes [rd] bitsC s t ∧
      (s.src w rb ≤ s.src w ra → (t.reg rd).toNat = s.src w ra - s.src w rb ∧ t.flagC = false) ∧
      (s.src w ra < s.src w rb → (t.reg rd).toNat = s.src w ra + 2 ^ w.bits - s.src w rb ∧ t.flagC = true)

/-- R105: subtracting b from a + b gives a back, with the borrow equal to the carry, and adding b to a − b likewise. -/
def Obligations.AddAndSubUndoEachOther : Prop :=
  ∀ (w : Width) (rd rd2 ra rb : Reg) (s : State), rb ≠ rd →
    (∃ t u, exec (.add w rd ra rb) s = .next t ∧ exec (.sub w rd2 rd rb) t = .next u ∧
      u.src w rd2 = s.src w ra ∧ u.flagC = t.flagC) ∧
    (∃ t u, exec (.sub w rd ra rb) s = .next t ∧ exec (.add w rd2 rd rb) t = .next u ∧
      u.src w rd2 = s.src w ra ∧ u.flagC = t.flagC)

/-- R140: CMP writes LT, EQ, GT from the order of the unsigned integers, exactly one of them 1. -/
def Obligations.CmpWritesTheOrder : Prop :=
  ∀ (w : Width) (ra rb : Reg) (s : State),
    EncodedAs (assemble 0x12#8 w.bit 0#1 0#4 ra rb 0#4 0#32) (.cmp w ra rb) ∧
    ∃ t, exec (.cmp w ra rb) s = .next t ∧ Completes [] bitsOrder s t ∧
      (t.flagLT = true ↔ s.src w ra < s.src w rb) ∧ (t.flagEQ = true ↔ s.src w ra = s.src w rb) ∧
      (t.flagGT = true ↔ s.src w rb < s.src w ra) ∧ t.flagLT.toNat + t.flagEQ.toNat + t.flagGT.toNat = 1

/-- R142: LT after CMP is C after SUB of the same operands, EQ holds exactly when that SUB writes 0, and CMP of the operands
exchanged gives GT. -/
def Obligations.CmpAgreesWithSub : Prop :=
  ∀ (w : Width) (rd ra rb : Reg) (s : State), ∃ t u v, exec (.cmp w ra rb) s = .next t ∧
    exec (.sub w rd ra rb) s = .next u ∧ exec (.cmp w rb ra) s = .next v ∧
    t.flagLT = u.flagC ∧ (t.flagEQ = true ↔ u.reg rd = 0#512) ∧ v.flagGT = t.flagLT ∧ v.flagEQ = t.flagEQ

/-! ### Multiplier and divider -/

/-- R115: MUL writes the product modulo 2^W. -/
def Obligations.MulWritesTruncatedProduct : Prop :=
  ∀ (w : Width) (rd ra rb : Reg) (s : State),
    EncodedAs (assemble 0x20#8 w.bit 0#1 rd ra rb 0#4 0#32) (.mul w rd ra rb) ∧
    ∃ t, exec (.mul w rd ra rb) s = .next t ∧ Completes [rd] [] s t ∧
      (t.reg rd).toNat = s.src w ra * s.src w rb % 2 ^ w.bits

/-- R116: MULW writes the exact product, at .512 over the pair rd and (rd + 1) mod 16, both sources read first. -/
def Obligations.MulwWritesWholeProduct : Prop :=
  ∀ (rd ra rb : Reg) (s : State),
    EncodedAs (assemble 0x21#8 0#1 0#1 rd ra rb 0#4 0#32) (.mulw .w256 rd ra rb) ∧
    EncodedAs (assemble 0x21#8 1#1 0#1 rd ra rb 0#4 0#32) (.mulw .w512 rd ra rb) ∧
    (∃ t, exec (.mulw .w256 rd ra rb) s = .next t ∧ Completes [rd] [] s t ∧
      (t.reg rd).toNat = s.src .w256 ra * s.src .w256 rb) ∧
    (∃ t, exec (.mulw .w512 rd ra rb) s = .next t ∧ Completes [rd, BitVec.ofNat 4 ((rd.toNat + 1) % 16)] [] s t ∧
      (t.reg rd).toNat + 2 ^ Width.w512.bits * (t.reg (BitVec.ofNat 4 ((rd.toNat + 1) % 16))).toNat =
        s.src .w512 ra * s.src .w512 rb)

/-- R117: MUL is MULW modulo 2^W, and MULW.256 then MODRED.512 with a modulus below 2^256 is MODMUL.256. -/
def Obligations.WideProductReducesToModmul : Prop :=
  (∀ (w : Width) (rd ra rb : Reg) (s : State), ∃ t u, exec (.mul w rd ra rb) s = .next t ∧
    exec (.mulw w rd ra rb) s = .next u ∧ t.src w rd = u.src w rd) ∧
  (∀ (rp rd ra rb rc : Reg) (s : State), rp ≠ rc → 0 < (s.reg rc).toNat → (s.reg rc).toNat < 2 ^ Width.w256.bits →
    ∃ t u v, exec (.mulw .w256 rp ra rb) s = .next t ∧ exec (.modred .w512 rd rp rc) t = .next u ∧
      exec (.modmul .w256 rd ra rb rc) s = .next v ∧ u.reg rd = v.reg rd)

/-- R125: DIVREM raises IllegalCommand when rd = rc (as a word it is illegal), DivisionByZero when the divisor is 0, and
otherwise writes the quotient and the remainder. -/
def Obligations.DivremWritesQuotientAndRemainder : Prop :=
  ∀ (w : Width) (rd ra rb rc : Reg) (s : State),
    (rd ≠ rc → EncodedAs (assemble 0x22#8 w.bit 0#1 rd ra rb rc 0#32) (.divrem w rd ra rb rc)) ∧
    (rd = rc → decode (assemble 0x22#8 w.bit 0#1 rd ra rb rc 0#32) = .error .divremSameDestination ∧
      ∃ t, exec (.divrem w rd ra rb rc) s = .next t ∧ FailsWith .illegalCommand (encode (.divrem w rd ra rb rc)) s t) ∧
    (rd ≠ rc → s.src w rb = 0 → ∃ t, exec (.divrem w rd ra rb rc) s = .next t ∧
      FailsWith .divisionByZero (encode (.divrem w rd ra rb rc)) s t) ∧
    (rd ≠ rc → s.src w rb ≠ 0 → ∃ t, exec (.divrem w rd ra rb rc) s = .next t ∧ Completes [rd, rc] [] s t ∧
      s.src w ra = s.src w rb * (t.reg rd).toNat + (t.reg rc).toNat ∧ (t.reg rc).toNat < s.src w rb)

/-! ### Bitwise logic and shifts -/

/-- R130, R131, R132, R133: AND, OR, XOR and NOT act on each of the W bits; the bits above are 0. -/
def Obligations.LogicActsBitwise : Prop :=
  ∀ (w : Width) (rd ra rb : Reg) (s : State),
    (EncodedAs (assemble 0x30#8 w.bit 0#1 rd ra rb 0#4 0#32) (.and w rd ra rb) ∧
      ∃ t, exec (.and w rd ra rb) s = .next t ∧ Completes [rd] [] s t ∧
        ∀ k, (t.reg rd).getLsbD k = (decide (k < w.bits) && ((s.reg ra).getLsbD k && (s.reg rb).getLsbD k))) ∧
    (EncodedAs (assemble 0x31#8 w.bit 0#1 rd ra rb 0#4 0#32) (.or w rd ra rb) ∧
      ∃ t, exec (.or w rd ra rb) s = .next t ∧ Completes [rd] [] s t ∧
        ∀ k, (t.reg rd).getLsbD k = (decide (k < w.bits) && ((s.reg ra).getLsbD k || (s.reg rb).getLsbD k))) ∧
    (EncodedAs (assemble 0x32#8 w.bit 0#1 rd ra rb 0#4 0#32) (.xor w rd ra rb) ∧
      ∃ t, exec (.xor w rd ra rb) s = .next t ∧ Completes [rd] [] s t ∧
        ∀ k, (t.reg rd).getLsbD k = (decide (k < w.bits) && ((s.reg ra).getLsbD k ^^ (s.reg rb).getLsbD k))) ∧
    (EncodedAs (assemble 0x33#8 w.bit 0#1 rd ra 0#4 0#4 0#32) (.not w rd ra) ∧
      ∃ t, exec (.not w rd ra) s = .next t ∧ Completes [rd] [] s t ∧
        ∀ k, (t.reg rd).getLsbD k = (decide (k < w.bits) && !(s.reg ra).getLsbD k))

/-- R134, R135: a shift moves the W bits by the count, zeros enter, and a count of W or more gives 0. -/
def Obligations.ShiftsMoveBits : Prop :=
  ∀ (w : Width) (rd ra : Reg) (imm : BitVec 32) (s : State),
    (EncodedAs (assemble 0x34#8 w.bit 0#1 rd ra 0#4 0#4 imm) (.shl w rd ra imm) ∧
      ∃ t, exec (.shl w rd ra imm) s = .next t ∧ Completes [rd] [] s t ∧
        ∀ k, (t.reg rd).getLsbD k =
          (decide (k < w.bits) && decide (imm.toNat ≤ k) && (s.reg ra).getLsbD (k - imm.toNat))) ∧
    (EncodedAs (assemble 0x35#8 w.bit 0#1 rd ra 0#4 0#4 imm) (.shr w rd ra imm) ∧
      ∃ t, exec (.shr w rd ra imm) s = .next t ∧ Completes [rd] [] s t ∧
        ∀ k, (t.reg rd).getLsbD k = (decide (k + imm.toNat < w.bits) && (s.reg ra).getLsbD (k + imm.toNat)))

/-! ### The modular unit -/

/-- R148: MODRED raises ModulusZero when m = 0, and otherwise writes the residue of a. -/
def Obligations.ModredWritesResidue : Prop :=
  ∀ (w : Width) (rd ra rc : Reg) (s : State),
    EncodedAs (assemble 0x40#8 w.bit 0#1 rd ra 0#4 rc 0#32) (.modred w rd ra rc) ∧
    (s.src w rc = 0 → ∃ t, exec (.modred w rd ra rc) s = .next t ∧
      FailsWith .modulusZero (encode (.modred w rd ra rc)) s t) ∧
    (s.src w rc ≠ 0 → ∃ t, exec (.modred w rd ra rc) s = .next t ∧ Completes [rd] [] s t ∧
      (t.reg rd).toNat < s.src w rc ∧ (t.reg rd).toNat ≡ s.src w ra [MOD s.src w rc])

/-- R149: MODADD raises ModulusZero when m = 0, and otherwise writes the residue of the exact sum. -/
def Obligations.ModaddReducesExactSum : Prop :=
  ∀ (w : Width) (rd ra rb rc : Reg) (s : State),
    EncodedAs (assemble 0x41#8 w.bit 0#1 rd ra rb rc 0#32) (.modadd w rd ra rb rc) ∧
    (s.src w rc = 0 → ∃ t, exec (.modadd w rd ra rb rc) s = .next t ∧
      FailsWith .modulusZero (encode (.modadd w rd ra rb rc)) s t) ∧
    (s.src w rc ≠ 0 → ∃ t, exec (.modadd w rd ra rb rc) s = .next t ∧ Completes [rd] [] s t ∧
      (t.reg rd).toNat < s.src w rc ∧ (t.reg rd).toNat ≡ s.src w ra + s.src w rb [MOD s.src w rc])

/-- R150: MODSUB raises ModulusZero when m = 0, and otherwise writes the residue of the exact difference, which may be
negative. -/
def Obligations.ModsubReducesExactDifference : Prop :=
  ∀ (w : Width) (rd ra rb rc : Reg) (s : State),
    EncodedAs (assemble 0x42#8 w.bit 0#1 rd ra rb rc 0#32) (.modsub w rd ra rb rc) ∧
    (s.src w rc = 0 → ∃ t, exec (.modsub w rd ra rb rc) s = .next t ∧
      FailsWith .modulusZero (encode (.modsub w rd ra rb rc)) s t) ∧
    (s.src w rc ≠ 0 → ∃ t, exec (.modsub w rd ra rb rc) s = .next t ∧ Completes [rd] [] s t ∧
      (t.reg rd).toNat < s.src w rc ∧ (t.reg rd).toNat + s.src w rb ≡ s.src w ra [MOD s.src w rc])

/-- R151: MODMUL raises ModulusZero when m = 0, and otherwise writes the residue of the exact double-width product. -/
def Obligations.ModmulReducesExactProduct : Prop :=
  ∀ (w : Width) (rd ra rb rc : Reg) (s : State),
    EncodedAs (assemble 0x43#8 w.bit 0#1 rd ra rb rc 0#32) (.modmul w rd ra rb rc) ∧
    (s.src w rc = 0 → ∃ t, exec (.modmul w rd ra rb rc) s = .next t ∧
      FailsWith .modulusZero (encode (.modmul w rd ra rb rc)) s t) ∧
    (s.src w rc ≠ 0 → ∃ t, exec (.modmul w rd ra rb rc) s = .next t ∧ Completes [rd] [] s t ∧
      (t.reg rd).toNat < s.src w rc ∧ (t.reg rd).toNat ≡ s.src w ra * s.src w rb [MOD s.src w rc])

/-- R152: MODPOW raises ModulusZero when m = 0, and otherwise writes the residue of the exact power, a^0 being 1. -/
def Obligations.ModpowReducesExactPower : Prop :=
  ∀ (w : Width) (rd ra rb rc : Reg) (s : State),
    EncodedAs (assemble 0x44#8 w.bit 0#1 rd ra rb rc 0#32) (.modpow w rd ra rb rc) ∧
    (s.src w rc = 0 → ∃ t, exec (.modpow w rd ra rb rc) s = .next t ∧
      FailsWith .modulusZero (encode (.modpow w rd ra rb rc)) s t) ∧
    (s.src w rc ≠ 0 → ∃ t, exec (.modpow w rd ra rb rc) s = .next t ∧ Completes [rd] [] s t ∧
      (t.reg rd).toNat < s.src w rc ∧ (t.reg rd).toNat ≡ s.src w ra ^ s.src w rb [MOD s.src w rc])

/-- R154: MODINV raises ModulusZero, then NotInvertible, and otherwise writes the unique inverse below m. -/
def Obligations.ModinvWritesTheInverse : Prop :=
  ∀ (w : Width) (rd ra rc : Reg) (s : State),
    EncodedAs (assemble 0x45#8 w.bit 0#1 rd ra 0#4 rc 0#32) (.modinv w rd ra rc) ∧
    (s.src w rc = 0 → ∃ t, exec (.modinv w rd ra rc) s = .next t ∧
      FailsWith .modulusZero (encode (.modinv w rd ra rc)) s t) ∧
    (s.src w rc ≠ 0 → Nat.gcd (s.src w ra % s.src w rc) (s.src w rc) ≠ 1 → ∃ t, exec (.modinv w rd ra rc) s = .next t ∧
      FailsWith .notInvertible (encode (.modinv w rd ra rc)) s t) ∧
    (s.src w rc ≠ 0 → Nat.gcd (s.src w ra % s.src w rc) (s.src w rc) = 1 → ∃ t, exec (.modinv w rd ra rc) s = .next t ∧
      Completes [rd] [] s t ∧ (t.reg rd).toNat < s.src w rc ∧
      s.src w ra * (t.reg rd).toNat % s.src w rc = 1 % s.src w rc ∧
      ∀ y, y < s.src w rc → s.src w ra * y % s.src w rc = 1 % s.src w rc → y = (t.reg rd).toNat)

/-- R158 (a), (b), (c): adding b to a − b gives a reduced; exponent 0 gives 1 and one more in the exponent is one more
MODMUL; a value times its inverse is 1. -/
def Obligations.ModularLaws : Prop :=
  (∀ (w : Width) (rd rd2 ra rb rc : Reg) (s : State), rb ≠ rd → rc ≠ rd → s.src w rc ≠ 0 →
    ∃ t u v, exec (.modsub w rd ra rb rc) s = .next t ∧ exec (.modadd w rd2 rd rb rc) t = .next u ∧
      exec (.modred w rd2 ra rc) s = .next v ∧ u.reg rd2 = v.reg rd2) ∧
  (∀ (w : Width) (rd ra rb rc : Reg) (s : State), 1 < s.src w rc → s.src w rb = 0 →
    ∃ t, exec (.modpow w rd ra rb rc) s = .next t ∧ t.reg rd = 1#512) ∧
  (∀ (w : Width) (rd rd2 ra rb rb2 rc : Reg) (s : State), ra ≠ rd → rc ≠ rd → s.src w rc ≠ 0 →
    s.src w rb2 = s.src w rb + 1 →
    ∃ t u v, exec (.modpow w rd ra rb rc) s = .next t ∧ exec (.modmul w rd2 rd ra rc) t = .next u ∧
      exec (.modpow w rd2 ra rb2 rc) s = .next v ∧ u.reg rd2 = v.reg rd2) ∧
  (∀ (w : Width) (rd rd2 ra rc : Reg) (s : State), ra ≠ rd → rc ≠ rd → 1 < s.src w rc →
    Nat.gcd (s.src w ra) (s.src w rc) = 1 →
    ∃ t u, exec (.modinv w rd ra rc) s = .next t ∧ exec (.modmul w rd2 ra rd rc) t = .next u ∧ u.reg rd2 = 1#512)

/-! ### The SHA-256 engine -/

/-- R180: SHAINIT starts a session in every state. -/
def Obligations.ShainitStartsSession : Prop :=
  ∀ s : State, EncodedAs 0x5000000000000000#64 .shainit ∧
    ∃ t, exec .shainit s = .next t ∧ Answers okCode t ∧ t.session = .init ∧ t.hash = hashIV ∧ t.buf = [] ∧
      t.totlen = 0#64 ∧ KeepsRegsBut [] s t ∧ KeepsStatusBut bitsSession s t ∧ KeepsErrcmd s t ∧ KeepsMem s t ∧
      KeepsSize s t

/-- R181, R182: SHAUPD checks its range, then the session, then absorbs its bytes and counts their bits; that the
model refuses a length that would reach 2^64 bits, which the spec gives no result, is the model's choice (log entry 6). -/
def Obligations.ShaupdAbsorbsBytes : Prop :=
  ∀ (addr len : BitVec 16) (s : State),
    EncodedAs (assemble 0x51#8 0#1 0#1 0#4 0#4 0#4 0#4 (len ++ addr)) (.shaupd addr len) ∧
    (s.memBytes < addr.toNat + len.toNat → ∃ t, exec (.shaupd addr len) s = .next t ∧
      FailsWith .addressRange (encode (.shaupd addr len)) s t) ∧
    (addr.toNat + len.toNat ≤ s.memBytes → s.session = .done → ∃ t, exec (.shaupd addr len) s = .next t ∧
      FailsWith .invalidSessionState (encode (.shaupd addr len)) s t) ∧
    (addr.toNat + len.toNat ≤ s.memBytes → s.session ≠ .done → 2 ^ 64 ≤ s.totlen.toNat + 8 * len.toNat →
      exec (.shaupd addr len) s = .refused .hashLengthOverflow) ∧
    (addr.toNat + len.toNat ≤ s.memBytes → s.session ≠ .done → s.totlen.toNat + 8 * len.toNat < 2 ^ 64 →
      ∃ t, exec (.shaupd addr len) s = .next t ∧ Answers okCode t ∧ t.session = .absorbing ∧
        (⟨t.hash, t.buf⟩ : Sponge) =
          ((List.range len.toNat).map fun k => s.readByte (addr.toNat + k)).foldl absorbByte ⟨s.hash, s.buf⟩ ∧
        t.totlen.toNat = s.totlen.toNat + 8 * len.toNat ∧ KeepsRegsBut [] s t ∧ KeepsStatusBut bitsSession s t ∧
        KeepsErrcmd s t ∧ KeepsMem s t ∧ KeepsSize s t)

/-- R184: SHAFIN raises InvalidSessionState when the session is Done, and otherwise pads and compresses; TOTLEN is kept and
BUF is empty after it. -/
def Obligations.ShafinFinishesSession : Prop :=
  ∀ s : State, EncodedAs 0x5200000000000000#64 .shafin ∧
    (s.session = .done → ∃ t, exec .shafin s = .next t ∧ FailsWith .invalidSessionState (encode .shafin) s t) ∧
    (s.session ≠ .done → s.buf.length ≤ 63 → ∃ t, exec .shafin s = .next t ∧ Answers okCode t ∧ t.session = .done ∧
      t.hash = (absorb ⟨s.hash, s.buf⟩ (padding s.buf.length s.totlen)).h ∧ t.buf = [] ∧ t.totlen = s.totlen ∧
      KeepsRegsBut [] s t ∧ KeepsStatusBut bitsSession s t ∧ KeepsErrcmd s t ∧ KeepsMem s t ∧ KeepsSize s t)

/-- R187: SHADIG raises InvalidSessionState unless the session is Done, and otherwise writes the eight words, H[0] most
significant, zero-extended. -/
def Obligations.ShadigWritesDigest : Prop :=
  ∀ (rd : Reg) (s : State),
    EncodedAs (assemble 0x53#8 0#1 0#1 rd 0#4 0#4 0#4 0#32) (.shadig rd) ∧
    (s.session ≠ .done → ∃ t, exec (.shadig rd) s = .next t ∧
      FailsWith .invalidSessionState (encode (.shadig rd)) s t) ∧
    (s.session = .done → ∃ t, exec (.shadig rd) s = .next t ∧ Completes [rd] [] s t ∧
      (t.reg rd).toNat = s.hash.w0.toNat * 2 ^ 224 + s.hash.w1.toNat * 2 ^ 192 + s.hash.w2.toNat * 2 ^ 160 +
        s.hash.w3.toNat * 2 ^ 128 + s.hash.w4.toNat * 2 ^ 96 + s.hash.w5.toNat * 2 ^ 64 + s.hash.w6.toNat * 2 ^ 32 +
        s.hash.w7.toNat)

/-- R186: SHA256 raises AddressRange on an operand out of range, with the old session kept; otherwise it is exactly SHAINIT,
SHAUPD, SHAFIN, SHADIG in that order, in every session state. -/
def Obligations.Sha256IsTheFourCommands : Prop :=
  ∀ (rd : Reg) (addr len : BitVec 16) (s : State),
    EncodedAs (assemble 0x54#8 0#1 0#1 rd 0#4 0#4 0#4 (len ++ addr)) (.sha256 rd addr len) ∧
    (s.memBytes < addr.toNat + len.toNat → ∃ t, exec (.sha256 rd addr len) s = .next t ∧
      FailsWith .addressRange (encode (.sha256 rd addr len)) s t) ∧
    (addr.toNat + len.toNat ≤ s.memBytes → ∃ t, exec (.sha256 rd addr len) s = .next t ∧ Answers okCode t ∧
      runCommands [.shainit, .shaupd addr len, .shafin, .shadig rd] s = .next t)

/-- R188: a message absorbed in any pieces, MEM refilled between them, has the digest of the whole message, and so has SHA256
of the same bytes standing in MEM whole. -/
def Obligations.ChunkingDoesNotMatter : Prop :=
  ∀ (pieces : List Piece) (rd : Reg) (s : State),
    (∀ p ∈ pieces, p.addr.toNat + p.len.toNat ≤ s.memBytes) →
    8 * (pieces.flatMap (pieceBytes s)).length < 2 ^ 64 →
    ∃ t, andThen (andThen (exec .shainit s) (feedPieces pieces)) (runCommands [.shafin, .shadig rd]) = .next t ∧
      t.reg rd = (digest (hashMessage (pieces.flatMap (pieceBytes s)))).setWidth 512 ∧
      ∀ (s' : State) (addr len : BitVec 16), addr.toNat + len.toNat ≤ s'.memBytes →
        s'.readBytes addr.toNat len.toNat = pieces.flatMap (pieceBytes s) →
        ∃ u, exec (.sha256 rd addr len) s' = .next u ∧ u.reg rd = t.reg rd

/-- R172, R185: the transition table of SST, a failing command changing nothing; and in Done no command but SHAINIT and
SHA256 changes H or leaves Done. -/
def Obligations.SessionTransitionsAndImmutableDigest : Prop :=
  ∀ (i : Instr) (s t : State), s.session ≠ .finalizing → exec i s = .next t →
    (raises i s ≠ none → t.session = s.session) ∧
    (raises i s = none → t.session =
      (match i with
        | .shainit => .init
        | .shaupd _ _ => .absorbing
        | .shafin | .sha256 _ _ _ => .done
        | _ => s.session)) ∧
    (s.session = .done → (raises .shafin s = some .invalidSessionState ∧ ∀ rd, raises (.shadig rd) s = none)) ∧
    (s.session ≠ .done → (raises .shafin s = none ∧ ∀ rd, raises (.shadig rd) s = some .invalidSessionState)) ∧
    (s.session = .done → i ≠ .shainit → (∀ rd addr len, i ≠ .sha256 rd addr len) →
      t.hash = s.hash ∧ t.session = .done)

/-- R176: absorbing byte by byte is compressing the 64-byte blocks of BUF followed by the input, the rest staying in BUF. -/
def Obligations.AbsorbCompressesWholeBlocks : Prop :=
  ∀ (st : Sponge) (bytes : List Byte), st.buf.length ≤ 63 →
    (absorb st bytes).buf = (st.buf ++ bytes).drop (64 * ((st.buf ++ bytes).length / 64)) ∧
    (absorb st bytes).h = (List.range ((st.buf ++ bytes).length / 64)).foldl
      (fun h j => compress h (((st.buf ++ bytes).drop (64 * j)).take 64)) st.h

/-- R183: the padding is 0x80, zeros up to 56 modulo 64, and the bit length big-endian; it fills one block when BUFLEN is at
most 55 and two otherwise, and leaves BUF empty. -/
def Obligations.PaddingFillsTheLastBlocks : Prop :=
  ∀ (st : Sponge) (totlen : BitVec 64), st.buf.length ≤ 63 →
    ∃ z, padding st.buf.length totlen = 0x80#8 :: (List.replicate z 0#8 ++
        (List.range 8).map fun k => BitVec.ofNat 8 (totlen.toNat / 2 ^ (8 * (7 - k)))) ∧
      z < 64 ∧ (st.buf.length + 1 + z) % 64 = 56 ∧
      st.buf.length + (padding st.buf.length totlen).length = (if st.buf.length ≤ 55 then 64 else 128) ∧
      (pad st totlen).buf = []

/-- R177: the scheduler as a 16-word shift register drives the same 64 rounds as the schedule of 64 words. -/
def Obligations.WindowScheduleGivesTheSameRounds : Prop :=
  ∀ (block : List Byte) (h : HashWords), block.length = 64 →
    windowRounds roundConstants (wordsOfBytes block) h = shaRounds (roundConstants.zip (schedule block)) h

/-! ### The datapath: results do not depend on its structure (R8) -/

/-- R103, R104, R141: the carry chain and the borrow chain over n limbs of L bits give the sum and the difference modulo
2^(L·n) with the carry and the borrow, adding the complement gives the difference too, and the comparator on the borrow
chain and the OR of the difference's bits decides the order of the integers. -/
def Obligations.LimbChainsAddAndSubtract : Prop :=
  ∀ L n a b : Nat, a < 2 ^ (L * n) → b < 2 ^ (L * n) →
    limbValue L (addChain L 0 (limbsOf L n a) (limbsOf L n b)).1 = (a + b) % 2 ^ (L * n) ∧
    (addChain L 0 (limbsOf L n a) (limbsOf L n b)).2 = (a + b) / 2 ^ (L * n) ∧
    limbValue L (subChain L 0 (limbsOf L n a) (limbsOf L n b)).1 = (a + 2 ^ (L * n) - b) % 2 ^ (L * n) ∧
    (subChain L 0 (limbsOf L n a) (limbsOf L n b)).2 = (if a < b then 1 else 0) ∧
    limbValue L (subByComplement L n a b).1 = (a + 2 ^ (L * n) - b) % 2 ^ (L * n) ∧
    (subByComplement L n a b).2 = (if a < b then 1 else 0) ∧
    compareLimbs L (limbsOf L n a) (limbsOf L n b) = (decide (a < b), decide (a = b), decide (b < a))

/-- R111, R113: mac loses nothing and never overflows 2L bits; operand scanning gives the exact product, its low n limbs the
truncated one. -/
def Obligations.LimbMultiplierIsExact : Prop :=
  (∀ L x y c d : Nat, x < 2 ^ L → y < 2 ^ L → c < 2 ^ L → d < 2 ^ L →
    (mac L x y c d).1 < 2 ^ L ∧ (mac L x y c d).2 < 2 ^ L ∧
      (mac L x y c d).1 * 2 ^ L + (mac L x y c d).2 = x * y + c + d) ∧
  (∀ L n a b : Nat, a < 2 ^ (L * n) → b < 2 ^ (L * n) →
    (mulLimbs L (limbsOf L n a) (limbsOf L n b)).length = 2 * n ∧
    limbValue L (mulLimbs L (limbsOf L n a) (limbsOf L n b)) = a * b ∧
    limbValue L ((mulLimbs L (limbsOf L n a) (limbsOf L n b)).take n) = a * b % 2 ^ (L * n))

/-- R114: the Wallace and the Dadda tree of the legal limb widths give the product, and with two more rows the mac of R111. -/
def Obligations.ReductionTreesMultiply : Prop :=
  ∀ L ∈ Config.legalLimbBits, ∀ x y c d : Nat, x < 2 ^ L → y < 2 ^ L → c < 2 ^ L → d < 2 ^ L →
    daddaProduct L x y [] = x * y ∧ wallaceProduct L x y [] = x * y ∧
    daddaProduct L x y [c, d] = x * y + c + d ∧ wallaceProduct L x y [c, d] = x * y + c + d

/-- R136: the limb shifter gives the shifts of R134 and R135. -/
def Obligations.LimbShifterShifts : Prop :=
  ∀ L m n a : Nat, 0 < L → a < 2 ^ (L * m) →
    limbValue L (shiftLeftLimbs L n (limbsOf L m a)) = a * 2 ^ n % 2 ^ (L * m) ∧
    limbValue L (shiftRightLimbs L n (limbsOf L m a)) = a / 2 ^ n

/-- R126, R156: restoring division over W bits gives the quotient and the remainder, and Barrett reduction gives x mod m for
every modulus, even or odd, with at most two corrections. -/
def Obligations.RestoringDivisionAndBarrettDivide : Prop :=
  (∀ W a b : Nat, a < 2 ^ W → 0 < b → restoringDivide W a b = (a / b, a % b)) ∧
  (∀ m x : Nat, 0 < m → x < 2 ^ (2 * bitLength m) → barrett m x = x % m)

/-- R155: REDC, whole or limb by limb, gives T·Rm^(−1) mod m below m, and two reductions give the ordinary product. -/
def Obligations.MontgomeryReduces : Prop :=
  ∀ L n m m' m0 : Nat, (m * m' + 1) % 2 ^ (L * n) = 0 → (m * m0 + 1) % 2 ^ L = 0 →
    (∀ T, T < m * 2 ^ (L * n) →
      redc (2 ^ (L * n)) m m' T < m ∧ redc (2 ^ (L * n)) m m' T * 2 ^ (L * n) ≡ T [MOD m] ∧
      redcLimbs L n m m0 T = redc (2 ^ (L * n)) m m' T) ∧
    (∀ x y, m < 2 ^ (L * n) → x < m → y < m → montgomeryProduct (2 ^ (L * n)) m m' x y = x * y % m)

/-! ### Pseudo-instructions -/

/-- R81: MOV copies all 512 bits, MOV.256 and TRUNC256 copy bits 255:0 and clear the rest, CLR writes 0; no flag changes. -/
def Obligations.PseudoInstructionsCopyAndClear : Prop :=
  ∀ (rd ra : Reg) (s : State),
    (∃ t, exec (Pseudo.mov rd ra).expand s = .next t ∧ Completes [rd] [] s t ∧ t.reg rd = s.reg ra) ∧
    (∃ t, exec (Pseudo.mov256 rd ra).expand s = .next t ∧ Completes [rd] [] s t ∧
      (t.reg rd).toNat = (s.reg ra).toNat % 2 ^ Width.w256.bits) ∧
    (∃ t, exec (Pseudo.trunc256 rd ra).expand s = .next t ∧ Completes [rd] [] s t ∧
      (t.reg rd).toNat = (s.reg ra).toNat % 2 ^ Width.w256.bits) ∧
    (∃ t, exec (Pseudo.clr rd).expand s = .next t ∧ Completes [rd] [] s t ∧ t.reg rd = 0#512)
end

