-- ==== Sys2Proof/Laws/Bytes.lean ====
section
/-! SUPPORT. Byte sequences and integers: the two conversions are inverse to each other in both orders (R10, R94). -/

namespace Sys2Proof.Machine

@[simp] theorem leBytes_length (n v : Nat) : (leBytes n v).length = n := by
  induction n generalizing v with
  | zero => rfl
  | succ n ih => simp [leBytes, ih]

@[simp] theorem beBytes_length (n v : Nat) : (beBytes n v).length = n := by simp [beBytes]

@[simp] theorem bytesOfValue_length (e : ByteOrder) (n v : Nat) : (bytesOfValue e n v).length = n := by
  cases e <;> simp [bytesOfValue]

/-- The value of a byte sequence is below 2^(8n). -/
theorem leValue_lt (bs : List Byte) : leValue bs < 256 ^ bs.length := by
  induction bs with
  | nil => simp [leValue]
  | cons b rest ih =>
    have hb : b.toNat < 256 := b.isLt
    simp only [leValue, List.length_cons, Nat.pow_succ]
    omega

/-- Deserialising a serialised value gives the value modulo 2^(8n). -/
theorem leValue_leBytes (n v : Nat) : leValue (leBytes n v) = v % 256 ^ n := by
  induction n generalizing v with
  | zero => simp [leBytes, leValue, Nat.mod_one]
  | succ n ih =>
    have h : (BitVec.ofNat 8 v).toNat = v % 256 := by simp
    simp only [leBytes, leValue, ih, h]
    rw [Nat.pow_succ, Nat.mul_comm (256 ^ n) 256, Nat.mod_mul]

/-- Serialising a deserialised sequence gives the sequence. -/
theorem leBytes_leValue (bs : List Byte) : leBytes bs.length (leValue bs) = bs := by
  induction bs with
  | nil => rfl
  | cons b rest ih =>
    have hb : b.toNat < 256 := b.isLt
    have h1 : (b.toNat + 256 * leValue rest) / 256 = leValue rest := by omega
    have h2 : BitVec.ofNat 8 (b.toNat + 256 * leValue rest) = b := by
      apply BitVec.eq_of_toNat_eq
      rw [BitVec.toNat_ofNat]
      omega
    simp [leBytes, leValue, h1, h2, ih]

/-- The round trip from values, in either order (R94 a). -/
theorem valueOfBytes_bytesOfValue (e : ByteOrder) (n v : Nat) : valueOfBytes e (bytesOfValue e n v) = v % 256 ^ n := by
  cases e <;> simp [valueOfBytes, bytesOfValue, beValue, beBytes, leValue_leBytes]

/-- The round trip from byte sequences, in either order (R94 b). -/
theorem bytesOfValue_valueOfBytes (e : ByteOrder) (bs : List Byte) :
    bytesOfValue e bs.length (valueOfBytes e bs) = bs := by
  cases e
  · have := leBytes_leValue bs.reverse
    simp only [List.length_reverse] at this
    simp [valueOfBytes, bytesOfValue, beValue, beBytes, this]
  · simp [valueOfBytes, bytesOfValue, leBytes_leValue]

/-- The value of a byte sequence of W/8 bytes is a W-bit value. -/
theorem valueOfBytes_lt (e : ByteOrder) (bs : List Byte) : valueOfBytes e bs < 256 ^ bs.length := by
  cases e
  · simpa [valueOfBytes, beValue] using leValue_lt bs.reverse
  · simpa [valueOfBytes] using leValue_lt bs

/-- 256^(W/8) is 2^W. -/
theorem bytes_bits (w : Width) : 256 ^ w.bytes = 2 ^ w.bits := by
  have h : (256 : Nat) = 2 ^ 8 := by decide
  have h8 : 8 * w.bytes = w.bits := by cases w <;> rfl
  rw [h, ← Nat.pow_mul, h8]

end Sys2Proof.Machine
end

