-- ==== Sys2Proof/Laws/Decode.lean ====
section
/-! SUPPORT. The fields of an assembled word, and the bits a mask selects of it. -/

namespace Sys2Proof

section
variable (op : BitVec 8) (w e : BitVec 1) (rd ra rb rc : Reg) (imm : BitVec 32)

/-- A bit of an assembled word, by the field it lies in (R71). -/
theorem assemble_bit (n : Nat) : (assemble op w e rd ra rb rc imm).getLsbD n =
    if n < 32 then imm.getLsbD n else if n < 36 then rc.getLsbD (n - 32) else if n < 40 then rb.getLsbD (n - 36)
    else if n < 44 then ra.getLsbD (n - 40) else if n < 48 then rd.getLsbD (n - 44) else if n < 54 then false
    else if n < 55 then e.getLsbD (n - 54) else if n < 56 then w.getLsbD (n - 55) else op.getLsbD (n - 56) := by
  unfold assemble
  simp only [BitVec.getLsbD_append, BitVec.getLsbD_zero]
  refine ite_congr rfl (fun _ => rfl) fun _ => ?_
  refine ite_congr (propext (by omega)) (fun _ => rfl) fun _ => ?_
  refine ite_congr (propext (by omega)) (fun _ => congrArg _ (by omega)) fun _ => ?_
  refine ite_congr (propext (by omega)) (fun _ => congrArg _ (by omega)) fun _ => ?_
  refine ite_congr (propext (by omega)) (fun _ => congrArg _ (by omega)) fun _ => ?_
  refine ite_congr (propext (by omega)) (fun _ => rfl) fun _ => ?_
  refine ite_congr (propext (by omega)) (fun _ => congrArg _ (by omega)) fun _ => ?_
  exact ite_congr (propext (by omega)) (fun _ => congrArg _ (by omega)) fun _ => congrArg _ (by omega)

@[simp] theorem assemble_opcode : (assemble op w e rd ra rb rc imm).opcode = op := by
  apply BitVec.eq_of_getLsbD_eq
  intro i hi
  simp only [CmdWord.opcode, BitVec.getLsbD_extractLsb', hi, decide_true, Bool.true_and, assemble_bit]
  repeat rw [if_neg (by omega)]
  congr 1; omega

@[simp] theorem assemble_rd : (assemble op w e rd ra rb rc imm).rd = rd := by
  apply BitVec.eq_of_getLsbD_eq
  intro i hi
  simp only [CmdWord.rd, BitVec.getLsbD_extractLsb', hi, decide_true, Bool.true_and, assemble_bit]
  iterate 4 rw [if_neg (by omega)]
  rw [if_pos (by omega)]
  congr 1; omega

@[simp] theorem assemble_ra : (assemble op w e rd ra rb rc imm).ra = ra := by
  apply BitVec.eq_of_getLsbD_eq
  intro i hi
  simp only [CmdWord.ra, BitVec.getLsbD_extractLsb', hi, decide_true, Bool.true_and, assemble_bit]
  iterate 3 rw [if_neg (by omega)]
  rw [if_pos (by omega)]
  congr 1; omega

@[simp] theorem assemble_rb : (assemble op w e rd ra rb rc imm).rb = rb := by
  apply BitVec.eq_of_getLsbD_eq
  intro i hi
  simp only [CmdWord.rb, BitVec.getLsbD_extractLsb', hi, decide_true, Bool.true_and, assemble_bit]
  iterate 2 rw [if_neg (by omega)]
  rw [if_pos (by omega)]
  congr 1; omega

@[simp] theorem assemble_rc : (assemble op w e rd ra rb rc imm).rc = rc := by
  apply BitVec.eq_of_getLsbD_eq
  intro i hi
  simp only [CmdWord.rc, BitVec.getLsbD_extractLsb', hi, decide_true, Bool.true_and, assemble_bit]
  rw [if_neg (by omega), if_pos (by omega)]
  congr 1; omega

@[simp] theorem assemble_imm : (assemble op w e rd ra rb rc imm).imm = imm := by
  apply BitVec.eq_of_getLsbD_eq
  intro i hi
  simp only [CmdWord.imm, BitVec.getLsbD_extractLsb', hi, decide_true, Bool.true_and, assemble_bit]
  rw [if_pos (by omega)]
  congr 1; omega

@[simp] theorem assemble_width (x : Width) : (assemble op x.bit e rd ra rb rc imm).width = x := by
  simp only [CmdWord.width, assemble_bit]
  cases x <;> rfl

@[simp] theorem assemble_order (x : ByteOrder) : (assemble op w x.bit rd ra rb rc imm).order = x := by
  simp only [CmdWord.order, assemble_bit]
  cases x <;> rfl

@[simp] theorem assemble_addr (len addr : BitVec 16) : (assemble op w e rd ra rb rc (len ++ addr)).addr = addr := by
  apply BitVec.eq_of_getLsbD_eq
  intro i hi
  simp only [CmdWord.addr, BitVec.getLsbD_extractLsb', hi, decide_true, Bool.true_and, assemble_bit]
  rw [if_pos (by omega), BitVec.getLsbD_append, if_pos (by omega)]
  congr 1; omega

@[simp] theorem assemble_len (len addr : BitVec 16) : (assemble op w e rd ra rb rc (len ++ addr)).len = len := by
  apply BitVec.eq_of_getLsbD_eq
  intro i hi
  simp only [CmdWord.len, BitVec.getLsbD_extractLsb', hi, decide_true, Bool.true_and, assemble_bit]
  rw [if_pos (by omega), BitVec.getLsbD_append, if_neg (by omega)]
  congr 1; omega

/-- The field `zero` of an assembled word (R71, R77). -/
theorem assemble_zero : (assemble op w e rd ra rb rc imm).extractLsb' 48 6 = 0#6 := by
  apply BitVec.eq_of_getLsbD_eq
  intro i hi
  simp only [BitVec.getLsbD_extractLsb', hi, decide_true, Bool.true_and, assemble_bit, BitVec.getLsbD_zero]
  iterate 5 rw [if_neg (by omega)]
  rw [if_pos (by omega)]

end

/-- A mask that is itself assembled from field masks selects field by field. -/
theorem assemble_and (op op' : BitVec 8) (w w' e e' : BitVec 1) (rd rd' ra ra' rb rb' rc rc' : Reg)
    (imm imm' : BitVec 32) (z : BitVec 6) :
    assemble op w e rd ra rb rc imm &&& (op' ++ w' ++ e' ++ z ++ rd' ++ ra' ++ rb' ++ rc' ++ imm' : BitVec (8 + 1 + 1 + 6 + 4 + 4 + 4 + 4 + 32)) =
      assemble (op &&& op') (w &&& w') (e &&& e') (rd &&& rd') (ra &&& ra') (rb &&& rb') (rc &&& rc') (imm &&& imm') := by
  have h : ∀ x y : BitVec (8 + 1 + 1 + 6 + 4 + 4 + 4 + 4 + 32), (x &&& y : BitVec 64) = x &&& y := fun _ _ => rfl
  unfold assemble
  rw [h]
  simp only [BitVec.and_append, BitVec.zero_and]

/-- Every word is assembled from its fields, when its field `zero` is 0. -/
theorem assemble_fields (c : CmdWord) (h : c.extractLsb' 48 6 = 0#6) :
    assemble c.opcode c.width.bit c.order.bit c.rd c.ra c.rb c.rc c.imm = c := by
  apply BitVec.eq_of_getLsbD_eq
  intro n hn
  have hw : c.width.bit.getLsbD 0 = c.getLsbD 55 := by
    unfold CmdWord.width; cases c.getLsbD 55 <;> rfl
  have he : c.order.bit.getLsbD 0 = c.getLsbD 54 := by
    unfold CmdWord.order; cases c.getLsbD 54 <;> rfl
  rw [assemble_bit]
  split
  · simp [CmdWord.imm, *]
  · split
    · rename_i h1 h2
      have : n - 32 < 4 := by omega
      simp [CmdWord.rc, this, show 32 + (n - 32) = n by omega]
    · split
      · rename_i h1 h2 h3
        have : n - 36 < 4 := by omega
        simp [CmdWord.rb, this, show 36 + (n - 36) = n by omega]
      · split
        · rename_i h1 h2 h3 h4
          have : n - 40 < 4 := by omega
          simp [CmdWord.ra, this, show 40 + (n - 40) = n by omega]
        · split
          · rename_i h1 h2 h3 h4 h5
            have : n - 44 < 4 := by omega
            simp [CmdWord.rd, this, show 44 + (n - 44) = n by omega]
          · split
            · rename_i h1 h2 h3 h4 h5 h6
              have hz : (c.extractLsb' 48 6).getLsbD (n - 48) = false := by rw [h]; simp
              have : n - 48 < 6 := by omega
              simpa [this, show 48 + (n - 48) = n by omega] using hz.symm
            · split
              · have : n = 54 := by omega
                subst this; exact he
              · split
                · have : n = 55 := by omega
                  subst this; exact hw
                · have : n - 56 < 8 := by omega
                  simp [CmdWord.opcode, this, show 56 + (n - 56) = n by omega]

end Sys2Proof
end

