-- ==== Sys2Proof/Laws/Status.lean ====
section
/-! SUPPORT. Reading and writing the fields of STATUS: a field just written reads as written, every other bit is kept. -/

namespace Sys2Proof.Machine

/-- A bit of a register after a field write. -/
theorem getLsbD_putField (s : BitVec 32) (lo : Nat) {n : Nat} (v : BitVec n) (hn : lo + n ≤ 32) (k : Nat) :
    (putField s lo v).getLsbD k = if lo ≤ k ∧ k < lo + n then v.getLsbD (k - lo) else s.getLsbD k := by
  unfold putField
  by_cases hk : k < 32
  · by_cases h1 : k < lo
    · have : ¬ lo ≤ k := by omega
      simp [h1, hk, this]
    · have h2 : lo ≤ k := by omega
      by_cases h3 : k < lo + n
      · have : k - lo < n := by omega
        simp [h1, hk, h2, h3, this]
      · have : ¬ k - lo < n := by omega
        have hv : v.getLsbD (k - lo) = false := BitVec.getLsbD_of_ge _ _ (by omega)
        simp [h1, hk, h3, this, hv]
  · have h : 32 ≤ k := by omega
    have h' : ¬ (lo ≤ k ∧ k < lo + n) := by omega
    simp [h', BitVec.getLsbD_of_ge _ _ h]

/-- A field reads as just written. -/
theorem getField_putField_same (s : BitVec 32) (lo : Nat) {n : Nat} (v : BitVec n) (hn : lo + n ≤ 32) :
    getField (putField s lo v) lo n = v := by
  apply BitVec.eq_of_getLsbD_eq
  intro i hi
  have h : lo ≤ lo + i ∧ lo + i < lo + n := by omega
  simp [getField, hi, getLsbD_putField s lo v hn, h]

/-- A field reads as before after a write to a field that shares no bit with it. -/
theorem getField_putField_apart (s : BitVec 32) (lo lo' m : Nat) {n : Nat} (v : BitVec n) (hn : lo + n ≤ 32)
    (h : lo' + m ≤ lo ∨ lo + n ≤ lo') : getField (putField s lo v) lo' m = getField s lo' m := by
  apply BitVec.eq_of_getLsbD_eq
  intro i hi
  have h' : ¬ (lo ≤ lo' + i ∧ lo' + i < lo + n) := by omega
  simp [getField, hi, getLsbD_putField s lo v hn, h']

/-- The last of two writes to a field stands. -/
theorem putField_putField (s : BitVec 32) (lo : Nat) {n : Nat} (v w : BitVec n) (hn : lo + n ≤ 32) :
    putField (putField s lo v) lo w = putField s lo w := by
  apply BitVec.eq_of_getLsbD_eq
  intro i hi
  rw [getLsbD_putField _ lo w hn, getLsbD_putField _ lo w hn, getLsbD_putField _ lo v hn]
  split <;> rfl

/-- Writing back what a field holds changes nothing. -/
theorem putField_self (s : BitVec 32) (lo n : Nat) (hn : lo + n ≤ 32) : putField s lo (getField s lo n) = s := by
  apply BitVec.eq_of_getLsbD_eq
  intro i hi
  rw [getLsbD_putField _ lo _ hn]
  split
  · rename_i h
    have h1 : i - lo < n := by omega
    have h2 : lo + (i - lo) = i := by omega
    simp [getField, h1, h2]
  · rfl

/-- Writes to fields that share no bit commute. -/
theorem putField_comm (s : BitVec 32) (lo lo' : Nat) {n m : Nat} (v : BitVec n) (w : BitVec m) (hn : lo + n ≤ 32)
    (hm : lo' + m ≤ 32) (h : lo' + m ≤ lo ∨ lo + n ≤ lo') :
    putField (putField s lo v) lo' w = putField (putField s lo' w) lo v := by
  apply BitVec.eq_of_getLsbD_eq
  intro i hi
  rw [getLsbD_putField _ lo' w hm, getLsbD_putField _ lo v hn, getLsbD_putField _ lo v hn, getLsbD_putField _ lo' w hm]
  by_cases h1 : lo ≤ i ∧ i < lo + n
  · have h2 : ¬ (lo' ≤ i ∧ i < lo' + m) := by omega
    simp [h1, h2]
  · simp [h1]

@[simp] theorem sessionOfBits_bits (x : SessionState) : sessionOfBits x.bits = x := by cases x <;> decide

/-- A session state is given by its two bits. -/
theorem bits_sessionOfBits (b : BitVec 2) : (sessionOfBits b).bits = b := by revert b; decide

/-! ### Each field after each write -/

@[simp] theorem setC_flagC (c : Bool) (s : State) : (s.setC c).flagC = c := by
  have := getLsbD_putField s.status 0 (BitVec.ofBool c) (by decide) 0
  simpa [State.setC, State.flagC] using this

@[simp] theorem setOrder_flagLT (lt eq gt : Bool) (s : State) : (s.setOrder lt eq gt).flagLT = lt := by
  have := getLsbD_putField s.status 1 (BitVec.ofBool gt ++ BitVec.ofBool eq ++ BitVec.ofBool lt) (by decide) 1
  simp only [State.setOrder, State.flagLT, this]
  cases lt <;> cases eq <;> cases gt <;> rfl

@[simp] theorem setOrder_flagEQ (lt eq gt : Bool) (s : State) : (s.setOrder lt eq gt).flagEQ = eq := by
  have := getLsbD_putField s.status 1 (BitVec.ofBool gt ++ BitVec.ofBool eq ++ BitVec.ofBool lt) (by decide) 2
  simp only [State.setOrder, State.flagEQ, this]
  cases lt <;> cases eq <;> cases gt <;> rfl

@[simp] theorem setOrder_flagGT (lt eq gt : Bool) (s : State) : (s.setOrder lt eq gt).flagGT = gt := by
  have := getLsbD_putField s.status 1 (BitVec.ofBool gt ++ BitVec.ofBool eq ++ BitVec.ofBool lt) (by decide) 3
  simp only [State.setOrder, State.flagGT, this]
  cases lt <;> cases eq <;> cases gt <;> rfl

@[simp] theorem setSession_session (x : SessionState) (s : State) : (s.setSession x).session = x := by
  simp [State.setSession, State.session, getField_putField_same]

@[simp] theorem setErr_err (code : BitVec 4) (s : State) : (s.setErr code).err = code := by
  simp [State.setErr, State.err, getField_putField_same]

@[simp] theorem setC_session (c : Bool) (s : State) : (s.setC c).session = s.session := by
  simp [State.setC, State.session, getField_putField_apart]

@[simp] theorem setC_err (c : Bool) (s : State) : (s.setC c).err = s.err := by
  simp [State.setC, State.err, getField_putField_apart]

@[simp] theorem setOrder_session (lt eq gt : Bool) (s : State) : (s.setOrder lt eq gt).session = s.session := by
  simp [State.setOrder, State.session, getField_putField_apart]

@[simp] theorem setOrder_err (lt eq gt : Bool) (s : State) : (s.setOrder lt eq gt).err = s.err := by
  simp [State.setOrder, State.err, getField_putField_apart]

@[simp] theorem setSession_err (x : SessionState) (s : State) : (s.setSession x).err = s.err := by
  simp [State.setSession, State.err, getField_putField_apart]

@[simp] theorem setErr_session (code : BitVec 4) (s : State) : (s.setErr code).session = s.session := by
  simp [State.setErr, State.session, getField_putField_apart]

/-- A bit of STATUS outside C is kept by a write of C. -/
theorem setC_bit (c : Bool) (s : State) (n : Nat) (h : n ≠ 0) : (s.setC c).status.getLsbD n = s.status.getLsbD n := by
  have h' : ¬ (0 ≤ n ∧ n < 0 + 1) := by omega
  simp only [State.setC, getLsbD_putField s.status 0 (BitVec.ofBool c) (by decide), h', if_false]

/-- A bit of STATUS outside 3:1 is kept by a write of LT, EQ, GT. -/
theorem setOrder_bit (lt eq gt : Bool) (s : State) (n : Nat) (h : n < 1 ∨ 4 ≤ n) :
    (s.setOrder lt eq gt).status.getLsbD n = s.status.getLsbD n := by
  have h' : ¬ (1 ≤ n ∧ n < 1 + (1 + 1 + 1)) := by omega
  simp only [State.setOrder, getLsbD_putField s.status 1 _ (show 1 + (1 + 1 + 1) ≤ 32 by decide), h', if_false]

/-- A bit of STATUS outside 5:4 is kept by a write of SST. -/
theorem setSession_bit (x : SessionState) (s : State) (n : Nat) (h : n < 4 ∨ 6 ≤ n) :
    (s.setSession x).status.getLsbD n = s.status.getLsbD n := by
  have h' : ¬ (4 ≤ n ∧ n < 4 + 2) := by omega
  simp only [State.setSession, getLsbD_putField s.status 4 x.bits (by decide), h', if_false]

/-- A bit of STATUS outside 11:8 is kept by a write of ERR. -/
theorem setErr_bit (code : BitVec 4) (s : State) (n : Nat) (h : n < 8 ∨ 12 ≤ n) :
    (s.setErr code).status.getLsbD n = s.status.getLsbD n := by
  have h' : ¬ (8 ≤ n ∧ n < 8 + 4) := by omega
  simp only [State.setErr, getLsbD_putField s.status 8 code (by decide), h', if_false]

/-- The last of two writes of SST stands. -/
theorem setSession_setSession (x y : SessionState) (s : State) :
    (s.setSession x).setSession y = s.setSession y := by
  simp [State.setSession, putField_putField]

end Sys2Proof.Machine
end

