-- ==== Sys2Proof/Laws/State.lean ====
section
/-! SUPPORT. One lemma per field per update of State, true by rfl, and register reads after register writes. -/

namespace Sys2Proof.Machine

/-! ### setC -/

@[simp] theorem setC_regs (c : Bool) (s : State) : (s.setC c).regs = s.regs := rfl
@[simp] theorem setC_errcmd (c : Bool) (s : State) : (s.setC c).errcmd = s.errcmd := rfl
@[simp] theorem setC_hash (c : Bool) (s : State) : (s.setC c).hash = s.hash := rfl
@[simp] theorem setC_buf (c : Bool) (s : State) : (s.setC c).buf = s.buf := rfl
@[simp] theorem setC_totlen (c : Bool) (s : State) : (s.setC c).totlen = s.totlen := rfl
@[simp] theorem setC_mem (c : Bool) (s : State) : (s.setC c).mem = s.mem := rfl
@[simp] theorem setC_memBytes (c : Bool) (s : State) : (s.setC c).memBytes = s.memBytes := rfl
@[simp] theorem setC_host (c : Bool) (s : State) : (s.setC c).host = s.host := rfl
@[simp] theorem setC_answer (c : Bool) (s : State) : (s.setC c).answer = s.answer := rfl
@[simp] theorem setC_resets (c : Bool) (s : State) : (s.setC c).resets = s.resets := rfl
@[simp] theorem setC_draws (c : Bool) (s : State) : (s.setC c).draws = s.draws := rfl

/-! ### setOrder -/

@[simp] theorem setOrder_regs (lt eq gt : Bool) (s : State) : (s.setOrder lt eq gt).regs = s.regs := rfl
@[simp] theorem setOrder_errcmd (lt eq gt : Bool) (s : State) : (s.setOrder lt eq gt).errcmd = s.errcmd := rfl
@[simp] theorem setOrder_hash (lt eq gt : Bool) (s : State) : (s.setOrder lt eq gt).hash = s.hash := rfl
@[simp] theorem setOrder_buf (lt eq gt : Bool) (s : State) : (s.setOrder lt eq gt).buf = s.buf := rfl
@[simp] theorem setOrder_totlen (lt eq gt : Bool) (s : State) : (s.setOrder lt eq gt).totlen = s.totlen := rfl
@[simp] theorem setOrder_mem (lt eq gt : Bool) (s : State) : (s.setOrder lt eq gt).mem = s.mem := rfl
@[simp] theorem setOrder_memBytes (lt eq gt : Bool) (s : State) : (s.setOrder lt eq gt).memBytes = s.memBytes := rfl
@[simp] theorem setOrder_host (lt eq gt : Bool) (s : State) : (s.setOrder lt eq gt).host = s.host := rfl
@[simp] theorem setOrder_answer (lt eq gt : Bool) (s : State) : (s.setOrder lt eq gt).answer = s.answer := rfl
@[simp] theorem setOrder_resets (lt eq gt : Bool) (s : State) : (s.setOrder lt eq gt).resets = s.resets := rfl
@[simp] theorem setOrder_draws (lt eq gt : Bool) (s : State) : (s.setOrder lt eq gt).draws = s.draws := rfl

/-! ### setSession -/

@[simp] theorem setSession_regs (x : SessionState) (s : State) : (s.setSession x).regs = s.regs := rfl
@[simp] theorem setSession_errcmd (x : SessionState) (s : State) : (s.setSession x).errcmd = s.errcmd := rfl
@[simp] theorem setSession_hash (x : SessionState) (s : State) : (s.setSession x).hash = s.hash := rfl
@[simp] theorem setSession_buf (x : SessionState) (s : State) : (s.setSession x).buf = s.buf := rfl
@[simp] theorem setSession_totlen (x : SessionState) (s : State) : (s.setSession x).totlen = s.totlen := rfl
@[simp] theorem setSession_mem (x : SessionState) (s : State) : (s.setSession x).mem = s.mem := rfl
@[simp] theorem setSession_memBytes (x : SessionState) (s : State) : (s.setSession x).memBytes = s.memBytes := rfl
@[simp] theorem setSession_host (x : SessionState) (s : State) : (s.setSession x).host = s.host := rfl
@[simp] theorem setSession_answer (x : SessionState) (s : State) : (s.setSession x).answer = s.answer := rfl
@[simp] theorem setSession_resets (x : SessionState) (s : State) : (s.setSession x).resets = s.resets := rfl
@[simp] theorem setSession_draws (x : SessionState) (s : State) : (s.setSession x).draws = s.draws := rfl

/-! ### setErr -/

@[simp] theorem setErr_regs (code : BitVec 4) (s : State) : (s.setErr code).regs = s.regs := rfl
@[simp] theorem setErr_errcmd (code : BitVec 4) (s : State) : (s.setErr code).errcmd = s.errcmd := rfl
@[simp] theorem setErr_hash (code : BitVec 4) (s : State) : (s.setErr code).hash = s.hash := rfl
@[simp] theorem setErr_buf (code : BitVec 4) (s : State) : (s.setErr code).buf = s.buf := rfl
@[simp] theorem setErr_totlen (code : BitVec 4) (s : State) : (s.setErr code).totlen = s.totlen := rfl
@[simp] theorem setErr_mem (code : BitVec 4) (s : State) : (s.setErr code).mem = s.mem := rfl
@[simp] theorem setErr_memBytes (code : BitVec 4) (s : State) : (s.setErr code).memBytes = s.memBytes := rfl
@[simp] theorem setErr_host (code : BitVec 4) (s : State) : (s.setErr code).host = s.host := rfl
@[simp] theorem setErr_answer (code : BitVec 4) (s : State) : (s.setErr code).answer = s.answer := rfl
@[simp] theorem setErr_resets (code : BitVec 4) (s : State) : (s.setErr code).resets = s.resets := rfl
@[simp] theorem setErr_draws (code : BitVec 4) (s : State) : (s.setErr code).draws = s.draws := rfl

/-! ### setReg -/

@[simp] theorem setReg_status (r : Reg) (v : RegVal) (s : State) : (s.setReg r v).status = s.status := rfl
@[simp] theorem setReg_errcmd (r : Reg) (v : RegVal) (s : State) : (s.setReg r v).errcmd = s.errcmd := rfl
@[simp] theorem setReg_hash (r : Reg) (v : RegVal) (s : State) : (s.setReg r v).hash = s.hash := rfl
@[simp] theorem setReg_buf (r : Reg) (v : RegVal) (s : State) : (s.setReg r v).buf = s.buf := rfl
@[simp] theorem setReg_totlen (r : Reg) (v : RegVal) (s : State) : (s.setReg r v).totlen = s.totlen := rfl
@[simp] theorem setReg_mem (r : Reg) (v : RegVal) (s : State) : (s.setReg r v).mem = s.mem := rfl
@[simp] theorem setReg_memBytes (r : Reg) (v : RegVal) (s : State) : (s.setReg r v).memBytes = s.memBytes := rfl
@[simp] theorem setReg_host (r : Reg) (v : RegVal) (s : State) : (s.setReg r v).host = s.host := rfl
@[simp] theorem setReg_answer (r : Reg) (v : RegVal) (s : State) : (s.setReg r v).answer = s.answer := rfl
@[simp] theorem setReg_resets (r : Reg) (v : RegVal) (s : State) : (s.setReg r v).resets = s.resets := rfl
@[simp] theorem setReg_draws (r : Reg) (v : RegVal) (s : State) : (s.setReg r v).draws = s.draws := rfl

/-! ### writeW -/

@[simp] theorem writeW_status (w : Width) (r : Reg) (v : Nat) (s : State) : (s.writeW w r v).status = s.status := rfl
@[simp] theorem writeW_errcmd (w : Width) (r : Reg) (v : Nat) (s : State) : (s.writeW w r v).errcmd = s.errcmd := rfl
@[simp] theorem writeW_hash (w : Width) (r : Reg) (v : Nat) (s : State) : (s.writeW w r v).hash = s.hash := rfl
@[simp] theorem writeW_buf (w : Width) (r : Reg) (v : Nat) (s : State) : (s.writeW w r v).buf = s.buf := rfl
@[simp] theorem writeW_totlen (w : Width) (r : Reg) (v : Nat) (s : State) : (s.writeW w r v).totlen = s.totlen := rfl
@[simp] theorem writeW_mem (w : Width) (r : Reg) (v : Nat) (s : State) : (s.writeW w r v).mem = s.mem := rfl
@[simp] theorem writeW_memBytes (w : Width) (r : Reg) (v : Nat) (s : State) : (s.writeW w r v).memBytes = s.memBytes := rfl
@[simp] theorem writeW_host (w : Width) (r : Reg) (v : Nat) (s : State) : (s.writeW w r v).host = s.host := rfl
@[simp] theorem writeW_answer (w : Width) (r : Reg) (v : Nat) (s : State) : (s.writeW w r v).answer = s.answer := rfl
@[simp] theorem writeW_resets (w : Width) (r : Reg) (v : Nat) (s : State) : (s.writeW w r v).resets = s.resets := rfl
@[simp] theorem writeW_draws (w : Width) (r : Reg) (v : Nat) (s : State) : (s.writeW w r v).draws = s.draws := rfl

/-! ### writeBytes -/

@[simp] theorem writeBytes_regs (addr : Nat) (bytes : List Byte) (s : State) : (s.writeBytes addr bytes).regs = s.regs := rfl
@[simp] theorem writeBytes_status (addr : Nat) (bytes : List Byte) (s : State) : (s.writeBytes addr bytes).status = s.status := rfl
@[simp] theorem writeBytes_errcmd (addr : Nat) (bytes : List Byte) (s : State) : (s.writeBytes addr bytes).errcmd = s.errcmd := rfl
@[simp] theorem writeBytes_hash (addr : Nat) (bytes : List Byte) (s : State) : (s.writeBytes addr bytes).hash = s.hash := rfl
@[simp] theorem writeBytes_buf (addr : Nat) (bytes : List Byte) (s : State) : (s.writeBytes addr bytes).buf = s.buf := rfl
@[simp] theorem writeBytes_totlen (addr : Nat) (bytes : List Byte) (s : State) : (s.writeBytes addr bytes).totlen = s.totlen := rfl
@[simp] theorem writeBytes_mem (addr : Nat) (bytes : List Byte) (s : State) : (s.writeBytes addr bytes).mem = Memory.setBytes s.mem addr bytes := rfl
@[simp] theorem writeBytes_memBytes (addr : Nat) (bytes : List Byte) (s : State) : (s.writeBytes addr bytes).memBytes = s.memBytes := rfl
@[simp] theorem writeBytes_host (addr : Nat) (bytes : List Byte) (s : State) : (s.writeBytes addr bytes).host = s.host := rfl
@[simp] theorem writeBytes_answer (addr : Nat) (bytes : List Byte) (s : State) : (s.writeBytes addr bytes).answer = s.answer := rfl
@[simp] theorem writeBytes_resets (addr : Nat) (bytes : List Byte) (s : State) : (s.writeBytes addr bytes).resets = s.resets := rfl
@[simp] theorem writeBytes_draws (addr : Nat) (bytes : List Byte) (s : State) : (s.writeBytes addr bytes).draws = s.draws := rfl

/-! ### respond -/

@[simp] theorem respond_regs (code : BitVec 4) (s : State) : (s.respond code).regs = s.regs := rfl
@[simp] theorem respond_status (code : BitVec 4) (s : State) : (s.respond code).status = s.status := rfl
@[simp] theorem respond_errcmd (code : BitVec 4) (s : State) : (s.respond code).errcmd = s.errcmd := rfl
@[simp] theorem respond_hash (code : BitVec 4) (s : State) : (s.respond code).hash = s.hash := rfl
@[simp] theorem respond_buf (code : BitVec 4) (s : State) : (s.respond code).buf = s.buf := rfl
@[simp] theorem respond_totlen (code : BitVec 4) (s : State) : (s.respond code).totlen = s.totlen := rfl
@[simp] theorem respond_mem (code : BitVec 4) (s : State) : (s.respond code).mem = s.mem := rfl
@[simp] theorem respond_memBytes (code : BitVec 4) (s : State) : (s.respond code).memBytes = s.memBytes := rfl
@[simp] theorem respond_host (code : BitVec 4) (s : State) : (s.respond code).host = s.host := rfl
@[simp] theorem respond_answer (code : BitVec 4) (s : State) : (s.respond code).answer = some (.response code) := rfl
@[simp] theorem respond_resets (code : BitVec 4) (s : State) : (s.respond code).resets = s.resets := rfl
@[simp] theorem respond_draws (code : BitVec 4) (s : State) : (s.respond code).draws = s.draws := rfl

/-! ### clearError -/

@[simp] theorem clearError_regs (s : State) : (s.clearError).regs = s.regs := rfl
@[simp] theorem clearError_errcmd (s : State) : (s.clearError).errcmd = 0#64 := rfl
@[simp] theorem clearError_hash (s : State) : (s.clearError).hash = s.hash := rfl
@[simp] theorem clearError_buf (s : State) : (s.clearError).buf = s.buf := rfl
@[simp] theorem clearError_totlen (s : State) : (s.clearError).totlen = s.totlen := rfl
@[simp] theorem clearError_mem (s : State) : (s.clearError).mem = s.mem := rfl
@[simp] theorem clearError_memBytes (s : State) : (s.clearError).memBytes = s.memBytes := rfl
@[simp] theorem clearError_host (s : State) : (s.clearError).host = s.host := rfl
@[simp] theorem clearError_answer (s : State) : (s.clearError).answer = s.answer := rfl
@[simp] theorem clearError_resets (s : State) : (s.clearError).resets = s.resets := rfl
@[simp] theorem clearError_draws (s : State) : (s.clearError).draws = s.draws := rfl

/-! ### setSponge -/

@[simp] theorem setSponge_regs (x : Sponge) (s : State) : (s.setSponge x).regs = s.regs := rfl
@[simp] theorem setSponge_status (x : Sponge) (s : State) : (s.setSponge x).status = s.status := rfl
@[simp] theorem setSponge_errcmd (x : Sponge) (s : State) : (s.setSponge x).errcmd = s.errcmd := rfl
@[simp] theorem setSponge_hash (x : Sponge) (s : State) : (s.setSponge x).hash = x.h := rfl
@[simp] theorem setSponge_buf (x : Sponge) (s : State) : (s.setSponge x).buf = x.buf := rfl
@[simp] theorem setSponge_totlen (x : Sponge) (s : State) : (s.setSponge x).totlen = s.totlen := rfl
@[simp] theorem setSponge_mem (x : Sponge) (s : State) : (s.setSponge x).mem = s.mem := rfl
@[simp] theorem setSponge_memBytes (x : Sponge) (s : State) : (s.setSponge x).memBytes = s.memBytes := rfl
@[simp] theorem setSponge_host (x : Sponge) (s : State) : (s.setSponge x).host = s.host := rfl
@[simp] theorem setSponge_answer (x : Sponge) (s : State) : (s.setSponge x).answer = s.answer := rfl
@[simp] theorem setSponge_resets (x : Sponge) (s : State) : (s.setSponge x).resets = s.resets := rfl
@[simp] theorem setSponge_draws (x : Sponge) (s : State) : (s.setSponge x).draws = s.draws := rfl

/-! ### startSession -/

@[simp] theorem startSession_regs (s : State) : (s.startSession).regs = s.regs := rfl
@[simp] theorem startSession_status (s : State) : (s.startSession).status = s.status := rfl
@[simp] theorem startSession_errcmd (s : State) : (s.startSession).errcmd = s.errcmd := rfl
@[simp] theorem startSession_hash (s : State) : (s.startSession).hash = hashIV := rfl
@[simp] theorem startSession_buf (s : State) : (s.startSession).buf = [] := rfl
@[simp] theorem startSession_totlen (s : State) : (s.startSession).totlen = 0#64 := rfl
@[simp] theorem startSession_mem (s : State) : (s.startSession).mem = s.mem := rfl
@[simp] theorem startSession_memBytes (s : State) : (s.startSession).memBytes = s.memBytes := rfl
@[simp] theorem startSession_host (s : State) : (s.startSession).host = s.host := rfl
@[simp] theorem startSession_answer (s : State) : (s.startSession).answer = s.answer := rfl
@[simp] theorem startSession_resets (s : State) : (s.startSession).resets = s.resets := rfl
@[simp] theorem startSession_draws (s : State) : (s.startSession).draws = s.draws := rfl

/-! ### finishSession -/

@[simp] theorem finishSession_regs (s : State) : (s.finishSession).regs = s.regs := rfl
@[simp] theorem finishSession_status (s : State) : (s.finishSession).status = s.status := rfl
@[simp] theorem finishSession_errcmd (s : State) : (s.finishSession).errcmd = s.errcmd := rfl
@[simp] theorem finishSession_hash (s : State) : (s.finishSession).hash = (pad s.sponge s.totlen).h := rfl
@[simp] theorem finishSession_buf (s : State) : (s.finishSession).buf = (pad s.sponge s.totlen).buf := rfl
@[simp] theorem finishSession_totlen (s : State) : (s.finishSession).totlen = s.totlen := rfl
@[simp] theorem finishSession_mem (s : State) : (s.finishSession).mem = s.mem := rfl
@[simp] theorem finishSession_memBytes (s : State) : (s.finishSession).memBytes = s.memBytes := rfl
@[simp] theorem finishSession_host (s : State) : (s.finishSession).host = s.host := rfl
@[simp] theorem finishSession_answer (s : State) : (s.finishSession).answer = s.answer := rfl
@[simp] theorem finishSession_resets (s : State) : (s.finishSession).resets = s.resets := rfl
@[simp] theorem finishSession_draws (s : State) : (s.finishSession).draws = s.draws := rfl

/-! ### writeDigest -/

@[simp] theorem writeDigest_status (rd : Reg) (s : State) : (s.writeDigest rd).status = s.status := rfl
@[simp] theorem writeDigest_errcmd (rd : Reg) (s : State) : (s.writeDigest rd).errcmd = s.errcmd := rfl
@[simp] theorem writeDigest_hash (rd : Reg) (s : State) : (s.writeDigest rd).hash = s.hash := rfl
@[simp] theorem writeDigest_buf (rd : Reg) (s : State) : (s.writeDigest rd).buf = s.buf := rfl
@[simp] theorem writeDigest_totlen (rd : Reg) (s : State) : (s.writeDigest rd).totlen = s.totlen := rfl
@[simp] theorem writeDigest_mem (rd : Reg) (s : State) : (s.writeDigest rd).mem = s.mem := rfl
@[simp] theorem writeDigest_memBytes (rd : Reg) (s : State) : (s.writeDigest rd).memBytes = s.memBytes := rfl
@[simp] theorem writeDigest_host (rd : Reg) (s : State) : (s.writeDigest rd).host = s.host := rfl
@[simp] theorem writeDigest_answer (rd : Reg) (s : State) : (s.writeDigest rd).answer = s.answer := rfl
@[simp] theorem writeDigest_resets (rd : Reg) (s : State) : (s.writeDigest rd).resets = s.resets := rfl
@[simp] theorem writeDigest_draws (rd : Reg) (s : State) : (s.writeDigest rd).draws = s.draws := rfl

/-! ### absorbMem -/

@[simp] theorem absorbMem_regs (addr len : BitVec 16) (s : State) : (s.absorbMem addr len).regs = s.regs := rfl
@[simp] theorem absorbMem_status (addr len : BitVec 16) (s : State) : (s.absorbMem addr len).status = s.status := rfl
@[simp] theorem absorbMem_errcmd (addr len : BitVec 16) (s : State) : (s.absorbMem addr len).errcmd = s.errcmd := rfl
@[simp] theorem absorbMem_hash (addr len : BitVec 16) (s : State) : (s.absorbMem addr len).hash = (absorb s.sponge (s.readBytes addr.toNat len.toNat)).h := rfl
@[simp] theorem absorbMem_buf (addr len : BitVec 16) (s : State) : (s.absorbMem addr len).buf = (absorb s.sponge (s.readBytes addr.toNat len.toNat)).buf := rfl
@[simp] theorem absorbMem_totlen (addr len : BitVec 16) (s : State) : (s.absorbMem addr len).totlen = s.totlen + BitVec.ofNat 64 (8 * len.toNat) := rfl
@[simp] theorem absorbMem_mem (addr len : BitVec 16) (s : State) : (s.absorbMem addr len).mem = s.mem := rfl
@[simp] theorem absorbMem_memBytes (addr len : BitVec 16) (s : State) : (s.absorbMem addr len).memBytes = s.memBytes := rfl
@[simp] theorem absorbMem_host (addr len : BitVec 16) (s : State) : (s.absorbMem addr len).host = s.host := rfl
@[simp] theorem absorbMem_answer (addr len : BitVec 16) (s : State) : (s.absorbMem addr len).answer = s.answer := rfl
@[simp] theorem absorbMem_resets (addr len : BitVec 16) (s : State) : (s.absorbMem addr len).resets = s.resets := rfl
@[simp] theorem absorbMem_draws (addr len : BitVec 16) (s : State) : (s.absorbMem addr len).draws = s.draws := rfl

/-! ### The capture of an error -/

@[simp] theorem capture_regs (e : ErrorKind) (word : CmdWord) (s : State) : (s.capture e word).regs = s.regs := by
  unfold State.capture; split <;> rfl
@[simp] theorem capture_hash (e : ErrorKind) (word : CmdWord) (s : State) : (s.capture e word).hash = s.hash := by
  unfold State.capture; split <;> rfl
@[simp] theorem capture_buf (e : ErrorKind) (word : CmdWord) (s : State) : (s.capture e word).buf = s.buf := by
  unfold State.capture; split <;> rfl
@[simp] theorem capture_totlen (e : ErrorKind) (word : CmdWord) (s : State) : (s.capture e word).totlen = s.totlen := by
  unfold State.capture; split <;> rfl
@[simp] theorem capture_mem (e : ErrorKind) (word : CmdWord) (s : State) : (s.capture e word).mem = s.mem := by
  unfold State.capture; split <;> rfl
@[simp] theorem capture_memBytes (e : ErrorKind) (word : CmdWord) (s : State) :
    (s.capture e word).memBytes = s.memBytes := by
  unfold State.capture; split <;> rfl
@[simp] theorem capture_host (e : ErrorKind) (word : CmdWord) (s : State) : (s.capture e word).host = s.host := by
  unfold State.capture; split <;> rfl
@[simp] theorem capture_resets (e : ErrorKind) (word : CmdWord) (s : State) : (s.capture e word).resets = s.resets := by
  unfold State.capture; split <;> rfl
@[simp] theorem capture_draws (e : ErrorKind) (word : CmdWord) (s : State) : (s.capture e word).draws = s.draws := by
  unfold State.capture; split <;> rfl

/-! ### Derived reads: STATUS accessors, registers and bytes see only their own field -/

/-- The accessors of STATUS are functions of the field `status`. -/
theorem status_accessors {s t : State} (h : t.status = s.status) :
    t.flagC = s.flagC ∧ t.flagLT = s.flagLT ∧ t.flagEQ = s.flagEQ ∧ t.flagGT = s.flagGT ∧ t.session = s.session ∧
      t.err = s.err := by
  simp [State.flagC, State.flagLT, State.flagEQ, State.flagGT, State.session, State.err, h]

/-- A register is a function of the field `regs`. -/
theorem reg_of_regs {s t : State} (h : t.regs = s.regs) (r : Reg) : t.reg r = s.reg r := by
  simp [State.reg, h]

/-- A byte of MEM is a function of the fields `mem` and `resets`. -/
theorem readByte_of_mem {s t : State} (hm : t.mem = s.mem) (hr : t.resets = s.resets) (a : Nat) :
    t.readByte a = s.readByte a := by
  simp [State.readByte, hm, hr]

/-- A byte sequence of MEM is a function of the fields `mem` and `resets`. -/
theorem readBytes_of_mem {s t : State} (hm : t.mem = s.mem) (hr : t.resets = s.resets) (a n : Nat) :
    t.readBytes a n = s.readBytes a n := by
  induction n generalizing a with
  | zero => rfl
  | succ n ih => simp [State.readBytes, ih, readByte_of_mem hm hr]

/-! ### Registers -/

@[simp] theorem setReg_reg_same (r : Reg) (v : RegVal) (s : State) : (s.setReg r v).reg r = v := by
  simp [State.setReg, State.reg]

theorem setReg_reg_other (r r' : Reg) (v : RegVal) (s : State) (h : r' ≠ r) : (s.setReg r v).reg r' = s.reg r' := by
  have h' : r.toNat ≠ r'.toNat := fun e => h (BitVec.eq_of_toNat_eq e.symm)
  simp [State.setReg, State.reg, Vector.getElem_set_ne, h']

@[simp] theorem writeW_reg_same (w : Width) (r : Reg) (v : Nat) (s : State) :
    (s.writeW w r v).reg r = BitVec.ofNat 512 (v % 2 ^ w.bits) := by
  simp [State.writeW]

theorem writeW_reg_other (w : Width) (r r' : Reg) (v : Nat) (s : State) (h : r' ≠ r) :
    (s.writeW w r v).reg r' = s.reg r' := setReg_reg_other r r' _ s h

/-- A result written at a width reads back at that width as the result modulo 2^W (R23, R24). -/
theorem src_writeW (w : Width) (r : Reg) (v : Nat) (s : State) : (s.writeW w r v).src w r = v % 2 ^ w.bits := by
  have hw : w.bits ≤ 512 := by cases w <;> decide
  have h1 : v % 2 ^ w.bits < 2 ^ w.bits := Nat.mod_lt _ (Nat.two_pow_pos _)
  have h2 : v % 2 ^ w.bits < 2 ^ 512 := Nat.lt_of_lt_of_le h1 (Nat.pow_le_pow_right (by decide) hw)
  simp only [State.src, writeW_reg_same, BitVec.toNat_ofNat, Nat.mod_eq_of_lt h2, Nat.mod_mod]

/-- An operand is below 2^W (R23). -/
theorem src_lt (s : State) (w : Width) (r : Reg) : s.src w r < 2 ^ w.bits := Nat.mod_lt _ (Nat.two_pow_pos _)

end Sys2Proof.Machine
end

