-- ==== Sys2Proof/Laws/Memory.lean ====
section
/-! SUPPORT. Memory: reading after writing, the canonical form and its bound, kept by every operation. -/

namespace Sys2Proof.Machine

/-- Reading one byte after writing one. -/
theorem get?_set (m : Memory) (x y : Nat) (v : Byte) :
    Memory.get? (Memory.set m x v) y = if y = x then some v else Memory.get? m y := by
  induction m with
  | nil =>
    simp only [Memory.set, Memory.get?]
    by_cases h : x = y
    · simp [h]
    · have : y ≠ x := fun e => h e.symm
      simp [h, this]
  | cons c rest ih =>
    obtain ⟨a, b⟩ := c
    simp only [Memory.set]
    split
    · rename_i hlt
      simp only [Memory.get?]
      by_cases h : x = y
      · subst h; simp
      · have h' : y ≠ x := fun e => h e.symm
        simp only [h, h', if_false]
        by_cases h2 : y < x
        · have h3 : a ≠ y := by omega
          have h4 : y < a := by omega
          simp [h2, h3, h4]
        · simp [h2]
    · rename_i hlt
      split
      · rename_i heq
        subst heq
        simp only [Memory.get?]
        by_cases h : x = y
        · simp [h]
        · have h' : y ≠ x := fun e => h e.symm
          simp [h, h']
      · rename_i hne
        simp only [Memory.get?, ih]
        by_cases h : a = y
        · have h' : y ≠ x := by omega
          simp [h, h']
        · by_cases h2 : y < a
          · have h' : y ≠ x := by omega
            simp [h, h2, h']
          · simp [h, h2]

/-- A bounded rising list stays rising when a byte is written above the bound. -/
theorem rising_set (m : Memory) (p : Option Nat) (x : Nat) (v : Byte) (hx : ∀ q, p = some q → q < x)
    (h : Memory.rising p m = true) : Memory.rising p (Memory.set m x v) = true := by
  induction m generalizing p with
  | nil =>
    cases p with
    | none => rfl
    | some q => simpa [Memory.set, Memory.rising] using hx q rfl
  | cons c rest ih =>
    obtain ⟨a, b⟩ := c
    have hrest : Memory.rising (some a) rest = true := by
      cases p <;> simp_all [Memory.rising]
    have hpa : ∀ q, p = some q → q < a := by
      intro q hq; subst hq; simp [Memory.rising] at h; exact h.1
    have build : ∀ (a : Nat) (b : Byte) (r : Memory), (∀ q, p = some q → q < a) →
        Memory.rising (some a) r = true → Memory.rising p ((a, b) :: r) = true := by
      intro a b r h1 h2
      cases p with
      | none => simpa [Memory.rising] using h2
      | some q => simpa [Memory.rising, h2] using h1 q rfl
    simp only [Memory.set]
    split
    · rename_i hlt
      exact build _ _ _ hx (by simp [Memory.rising, hlt, hrest])
    · split
      · exact build _ _ _ hpa hrest
      · refine build _ _ _ hpa (ih (some a) ?_ hrest)
        intro q hq; cases hq; omega

/-- Writing a byte keeps the canonical form. -/
theorem wf_set (m : Memory) (x : Nat) (v : Byte) (h : Memory.wf m = true) : Memory.wf (Memory.set m x v) = true :=
  rising_set m none x v (by simp) h

/-- Writing bytes keeps the canonical form. -/
theorem wf_setBytes (m : Memory) (x : Nat) (bs : List Byte) (h : Memory.wf m = true) :
    Memory.wf (Memory.setBytes m x bs) = true := by
  induction bs generalizing m x with
  | nil => exact h
  | cons b rest ih => exact ih _ _ (wf_set m x b h)

/-- An entry after a write is the written one or an entry from before. -/
theorem mem_set (m : Memory) (x : Nat) (v : Byte) (c : Host.Cell) (h : c ∈ Memory.set m x v) : c.1 = x ∨ c ∈ m := by
  induction m with
  | nil => simp [Memory.set] at h; simp [h]
  | cons d rest ih =>
    obtain ⟨a, b⟩ := d
    simp only [Memory.set] at h
    split at h
    · rcases List.mem_cons.1 h with h | h
      · simp [h]
      · exact .inr h
    · split at h
      · rename_i heq
        rcases List.mem_cons.1 h with h | h
        · simp [h, heq]
        · exact .inr (List.mem_cons_of_mem _ h)
      · rcases List.mem_cons.1 h with h | h
        · simp [h]
        · rcases ih h with h | h
          · exact .inl h
          · exact .inr (List.mem_cons_of_mem _ h)

/-- An entry after writing bytes is one of them or an entry from before. -/
theorem mem_setBytes (m : Memory) (x : Nat) (bs : List Byte) (c : Host.Cell) (h : c ∈ Memory.setBytes m x bs) :
    (x ≤ c.1 ∧ c.1 < x + bs.length) ∨ c ∈ m := by
  induction bs generalizing m x with
  | nil => exact .inr h
  | cons b rest ih =>
    rcases ih _ _ h with h | h
    · exact .inl (by simp only [List.length_cons]; omega)
    · rcases mem_set _ _ _ _ h with h | h
      · exact .inl (by simp only [List.length_cons]; omega)
      · exact .inr h

/-- Reading one byte after writing a sequence (R51). -/
theorem get?_setBytes (m : Memory) (x y : Nat) (bs : List Byte) :
    Memory.get? (Memory.setBytes m x bs) y =
      if x ≤ y ∧ y < x + bs.length then bs[y - x]? else Memory.get? m y := by
  induction bs generalizing m x with
  | nil =>
    have : ¬ (x ≤ y ∧ y < x) := by omega
    simp [Memory.setBytes, this]
  | cons b rest ih =>
    simp only [Memory.setBytes, ih, get?_set, List.length_cons]
    by_cases h1 : y = x
    · subst h1
      simp
    · by_cases h2 : x + 1 ≤ y ∧ y < x + 1 + rest.length
      · have h3 : x ≤ y ∧ y < x + (rest.length + 1) := by omega
        have h4 : y - x = (y - (x + 1)) + 1 := by omega
        simp [h2, h3, h4]
      · have h3 : ¬ (x ≤ y ∧ y < x + (rest.length + 1)) := by omega
        rw [if_neg h2, if_neg h1, if_neg h3]

/-- Outside the bytes written every address reads as before. -/
theorem writeBytes_readByte_outside (s : State) (x : Nat) (bs : List Byte) (a : Nat) (h : ¬ (x ≤ a ∧ a < x + bs.length)) :
    (s.writeBytes x bs).readByte a = s.readByte a := by
  simp [State.readByte, get?_setBytes, h]

/-- The bytes written read back. -/
theorem writeBytes_readByte_inside (s : State) (x : Nat) (bs : List Byte) (k : Nat) (h : k < bs.length) :
    (s.writeBytes x bs).readByte (x + k) = bs[k] := by
  have h' : x ≤ x + k ∧ x + k < x + bs.length := by omega
  simp [State.readByte, get?_setBytes, h', h]

@[simp] theorem readBytes_length (s : State) (a n : Nat) : (s.readBytes a n).length = n := by
  induction n generalizing a with
  | zero => rfl
  | succ n ih => simp [State.readBytes, ih]

/-- Element k of a read sequence is the byte at the k-th address (R51). -/
theorem readBytes_getElem (s : State) (a n k : Nat) (h : k < n) :
    (s.readBytes a n)[k]'(by simpa using h) = s.readByte (a + k) := by
  induction n generalizing a k with
  | zero => omega
  | succ n ih =>
    cases k with
    | zero => simp [State.readBytes]
    | succ k =>
      have := ih (a + 1) k (by omega)
      simp only [State.readBytes, List.getElem_cons_succ, this]
      congr 1; omega

/-- A sequence just written reads back whole. -/
theorem readBytes_writeBytes (s : State) (x : Nat) (bs : List Byte) :
    (s.writeBytes x bs).readBytes x bs.length = bs := by
  apply List.ext_getElem
  · simp
  · intro k h1 h2
    rw [readBytes_getElem _ _ _ _ h2, writeBytes_readByte_inside _ _ _ _ h2]

/-- Two reads one after the other read what one read of both lengths reads. -/
theorem readBytes_append (s : State) (a n m : Nat) : s.readBytes a (n + m) = s.readBytes a n ++ s.readBytes (a + n) m := by
  induction n generalizing a with
  | zero => simp [State.readBytes]
  | succ n ih =>
    have : n + 1 + m = (n + m) + 1 := by omega
    have h2 : a + (n + 1) = a + 1 + n := by omega
    simp [this, State.readBytes, ih, h2]

end Sys2Proof.Machine
end

