-- ==== Sys2Proof/Laws/Ops.lean ====
section
/-! SUPPORT. What the shared operations can do, said once for each: succeeding, failing, the modular commands, the moves of
the host. -/

namespace Sys2Proof.Machine

/-- A command that succeeds answers OK, and the rest of the state is the one its writes made. -/
theorem succeed_next {s t : State} : succeed s = .next t ↔ t = s.respond okCode := by
  unfold succeed
  constructor
  · intro h; cases h; rfl
  · intro h; rw [h]

/-- ERR after a capture (R216). -/
theorem capture_err (e : ErrorKind) (word : CmdWord) (s : State) :
    (s.capture e word).err = if s.err = 0#4 then e.code else s.err := by
  unfold State.capture
  split
  · exact (status_accessors (s := s.setErr e.code) rfl).2.2.2.2.2.trans (setErr_err _ _)
  · rfl

/-- ERRCMD after a capture (R216). -/
theorem capture_errcmd (e : ErrorKind) (word : CmdWord) (s : State) :
    (s.capture e word).errcmd = if s.err = 0#4 then word else s.errcmd := by
  unfold State.capture
  split <;> rfl

/-- The bits of STATUS outside ERR after a capture. -/
theorem capture_bit (e : ErrorKind) (word : CmdWord) (s : State) (n : Nat) (h : n ∉ bitsErr) :
    (s.capture e word).status.getLsbD n = s.status.getLsbD n := by
  have h' : n < 8 ∨ 12 ≤ n := by
    simp [bitsErr] at h; omega
  unfold State.capture
  split
  · exact setErr_bit e.code s n h'
  · rfl

/-- Everything raising an error does (R213, R215, R216). -/
theorem raiseError_spec (e : ErrorKind) (word : CmdWord) (s : State) :
    ∃ t, raiseError e word s = .next t ∧ FailsWith e word s t := by
  refine ⟨(s.capture e word).respond e.code, rfl, rfl, ?_, ?_, ?_, ?_, ?_, ?_, ?_⟩
  · intro r _; exact reg_of_regs (by simp) r
  · intro n h; exact capture_bit e word s n h
  · simp [KeepsHash]
  · intro a; exact readByte_of_mem (by simp) (by simp) a
  · simp [KeepsSize]
  · intro h
    refine ⟨?_, ?_⟩
    · exact (status_accessors (s := s.capture e word) rfl).2.2.2.2.2.trans (by simp [capture_err, h])
    · simp [capture_errcmd, h]
  · intro h
    refine ⟨?_, ?_⟩
    · exact (status_accessors (s := s.capture e word) rfl).2.2.2.2.2.trans (by simp [capture_err, h])
    · simp [capture_errcmd, h]

/-- The two ends of a modular command (R146 b). -/
theorem modular_cases (i : Instr) (w : Width) (rd : Reg) (m result : Nat) (s : State) :
    (m = 0 ∧ modular i w rd m result s = fail .modulusZero i s) ∨
      (m ≠ 0 ∧ modular i w rd m result s = succeed (s.writeW w rd result)) := by
  unfold modular
  by_cases h : m = 0
  · exact .inl ⟨h, if_pos h⟩
  · exact .inr ⟨h, if_neg h⟩

/-- Everything a step can do: idle, or one move of the host with that move taken. -/
theorem stepWith_cases (run : Instr → State → Result) (s : State) :
    (s.host = [] ∧ stepWith run s = .next s) ∨
      ∃ move rest, s.host = move :: rest ∧ stepWith run s = performMove run move { s with host := rest } := by
  unfold stepWith State.nextMove
  cases h : s.host with
  | nil => exact .inl ⟨rfl, rfl⟩
  | cons move rest => exact .inr ⟨move, rest, rfl, rfl⟩

end Sys2Proof.Machine
end

