-- ==== Sys2Proof/Laws/Hash.lean ====
section
/-! SUPPORT. The engine: absorbing in pieces, the fill of BUF, the length of the padding. -/

namespace Sys2Proof.Machine

/-- `Absorb(s ‖ t)` is `Absorb(s)` then `Absorb(t)` (R176). -/
theorem absorb_append (st : Sponge) (a b : List Byte) : absorb st (a ++ b) = absorb (absorb st a) b := by
  induction a generalizing st with
  | nil => rfl
  | cons x rest ih => simp [absorb, ih]

/-- The fill of BUF after one byte. -/
theorem absorbByte_length (st : Sponge) (x : Byte) (h : st.buf.length < 64) :
    (absorbByte st x).buf.length = (st.buf.length + 1) % 64 := by
  unfold absorbByte
  simp only [List.length_append, List.length_cons, List.length_nil]
  split
  · rename_i h64; simp [h64]
  · rename_i h64
    have : st.buf.length + 1 < 64 := by omega
    simp [Nat.mod_eq_of_lt this]

/-- The fill of BUF after a byte sequence: bytes in, modulo 64 (R176). -/
theorem absorb_length (st : Sponge) (bs : List Byte) (h : st.buf.length < 64) :
    (absorb st bs).buf.length = (st.buf.length + bs.length) % 64 := by
  induction bs generalizing st with
  | nil => simp [absorb, Nat.mod_eq_of_lt h]
  | cons x rest ih =>
    have hb := absorbByte_length st x h
    have hlt : (absorbByte st x).buf.length < 64 := by rw [hb]; exact Nat.mod_lt _ (by decide)
    rw [absorb, ih _ hlt, hb, List.length_cons]
    omega

@[simp] theorem lengthBytes_length (totlen : BitVec 64) : (lengthBytes totlen).length = 8 := rfl

@[simp] theorem padding_length (n : Nat) (totlen : BitVec 64) : (padding n totlen).length = padZeros n + 9 := by
  simp [padding]

/-- After the padding BUF is empty (R183). -/
theorem pad_empty (st : Sponge) (totlen : BitVec 64) (h : st.buf.length < 64) : (pad st totlen).buf = [] := by
  have : (pad st totlen).buf.length = 0 := by
    rw [pad, absorb_length _ _ h, padding_length, padZeros]
    omega
  exact List.eq_nil_of_length_eq_zero this

end Sys2Proof.Machine
end

