-- ==== Sys2Proof/Laws/Modular.lean ====
section
/-! SUPPORT. What the two algorithms of the modular unit compute: `modPower` is the residue of the exact power (R152),
`inverse` is the unique inverse when there is one (R154). -/

namespace Sys2Proof.Machine

/-- The invariant of the schedule of R153: from the residue of `a^(x / 2^i)` the steps below `i` reach that of `a^x`. -/
theorem powerSteps_eq (a x m i : Nat) : powerSteps a x m i (a ^ (x / 2 ^ i) % m) = a ^ x % m := by
  induction i with
  | zero => simp [powerSteps]
  | succ i ih =>
    have hq : x / 2 ^ i = 2 * (x / 2 ^ (i + 1)) + (x.testBit i).toNat := by
      have h1 : x / 2 ^ (i + 1) = x / 2 ^ i / 2 := by rw [Nat.pow_succ, Nat.div_div_eq_div_mul]
      have h2 : (x.testBit i).toNat = x / 2 ^ i % 2 := by
        rw [Nat.testBit_eq_decide_div_mod_eq]
        rcases Nat.mod_two_eq_zero_or_one (x / 2 ^ i) with h | h <;> simp [h]
      omega
    have hsq : a ^ (x / 2 ^ (i + 1)) % m * (a ^ (x / 2 ^ (i + 1)) % m) % m = a ^ (2 * (x / 2 ^ (i + 1))) % m := by
      rw [← Nat.mul_mod, ← Nat.pow_add]
      congr 2; omega
    rw [← ih, powerSteps, hsq, hq]
    cases x.testBit i
    · simp
    · simp [Nat.pow_succ]

/-- The result of MODPOW is the residue of the exact power (R152). -/
theorem modPower_eq (w : Width) (a x m : Nat) (hx : x < 2 ^ w.bits) : modPower w a x m = a ^ x % m := by
  have := powerSteps_eq a x m w.bits
  rw [Nat.div_eq_of_lt hx, Nat.pow_zero] at this
  exact this

/-- Extended Euclid with enough passes: the gcd, and a coefficient that is congruent to it (R157). -/
theorem euclid_spec (a m : Int) (fuel r0 r1 : Nat) (t0 t1 : Int) (h01 : r1 < r0) (hfuel : r0 * r1 < 2 ^ fuel)
    (h0 : m ∣ (r0 : Int) - t0 * a) (h1 : m ∣ (r1 : Int) - t1 * a) :
    (euclid fuel r0 r1 t0 t1).1 = Nat.gcd r0 r1 ∧
      m ∣ (((euclid fuel r0 r1 t0 t1).1 : Nat) : Int) - (euclid fuel r0 r1 t0 t1).2 * a := by
  induction fuel generalizing r0 r1 t0 t1 with
  | zero =>
    have : r1 = 0 := by
      rcases Nat.eq_zero_or_pos r1 with h | h
      · exact h
      · have : 0 < r0 * r1 := Nat.mul_pos (by omega) h
        omega
    subst this
    simp [euclid, h0]
  | succ fuel ih =>
    rw [euclid]
    by_cases hr : r1 = 0
    · subst hr; simp [h0]
    · have hpos : 0 < r1 := Nat.pos_of_ne_zero hr
      have hlt : r0 % r1 < r1 := Nat.mod_lt _ hpos
      have hhalf : 2 * (r1 * (r0 % r1)) < 2 ^ (fuel + 1) := by
        have h2 : r1 + r0 % r1 ≤ r0 := by
          have hq : 1 ≤ r0 / r1 := (Nat.one_le_div_iff hpos).2 (by omega)
          calc r1 + r0 % r1 ≤ r1 * (r0 / r1) + r0 % r1 := Nat.add_le_add_right (Nat.le_mul_of_pos_right _ hq) _
            _ = r0 := Nat.div_add_mod r0 r1
        have h3 : 2 * (r0 % r1) ≤ r0 := by omega
        calc 2 * (r1 * (r0 % r1)) = r1 * (2 * (r0 % r1)) := by ring
          _ ≤ r1 * r0 := Nat.mul_le_mul_left _ h3
          _ = r0 * r1 := Nat.mul_comm _ _
          _ < 2 ^ (fuel + 1) := hfuel
      have hrem : m ∣ ((r0 % r1 : Nat) : Int) - (t0 - ((r0 / r1 : Nat) : Int) * t1) * a := by
        have hid : ((r0 % r1 : Nat) : Int) = (r0 : Int) - ((r0 / r1 : Nat) : Int) * (r1 : Int) := by
          have h := Int.mul_ediv_add_emod (r0 : Int) r1
          push_cast
          linarith
        have heq : ((r0 % r1 : Nat) : Int) - (t0 - ((r0 / r1 : Nat) : Int) * t1) * a =
            ((r0 : Int) - t0 * a) - ((r0 / r1 : Nat) : Int) * ((r1 : Int) - t1 * a) := by
          rw [hid]; ring
        rw [heq]
        exact dvd_sub h0 (Dvd.dvd.mul_left h1 _)
      rw [if_neg hr]
      have := ih r1 (r0 % r1) t1 (t0 - ((r0 / r1 : Nat) : Int) * t1) hlt (by rw [Nat.pow_succ] at hhalf; omega) h1 hrem
      rwa [Nat.gcd_comm r1, ← Nat.gcd_rec, Nat.gcd_comm r1] at this

/-- The result of MODINV: the one value below m whose product with a is 1 modulo m (R154). -/
theorem inverse_spec (w : Width) (a m : Nat) (hm : 0 < m) (hmw : m < 2 ^ w.bits) (hg : Nat.gcd (a % m) m = 1) :
    inverse w a m < m ∧ a * inverse w a m % m = 1 % m := by
  have hlt : a % m < m := Nat.mod_lt _ hm
  have hfuel : m * (a % m) < 2 ^ euclidFuel w := by
    have : (2 : Nat) ^ euclidFuel w = 2 ^ w.bits * 2 ^ w.bits := by rw [euclidFuel, Nat.two_mul, Nat.pow_add]
    rw [this]
    exact Nat.mul_lt_mul_of_lt_of_lt hmw (by omega)
  obtain ⟨h1, h2⟩ := euclid_spec (a : Int) (m : Int) (euclidFuel w) m (a % m) 0 1 hlt hfuel (by simp)
    (by
      have := Int.emod_add_mul_ediv (a : Int) m
      exact ⟨-((a : Int) / m), by push_cast; linarith⟩)
  rw [Nat.gcd_comm] at h1
  rw [h1, hg] at h2
  have hm' : (m : Int) ≠ 0 := by omega
  have hres : ((inverse w a m : Nat) : Int) = (euclid (euclidFuel w) m (a % m) 0 1).2 % (m : Int) := by
    rw [inverse, residue, Int.toNat_of_nonneg (Int.emod_nonneg _ hm')]
  refine ⟨?_, ?_⟩
  · have := Int.emod_lt_of_pos (euclid (euclidFuel w) m (a % m) 0 1).2 (by omega : (0 : Int) < m)
    omega
  · have hcong : ((a * inverse w a m : Nat) : Int) % m = (1 : Int) % m := by
      push_cast
      rw [hres, Int.mul_emod, Int.emod_emod_of_dvd _ (dvd_refl _), ← Int.mul_emod]
      apply Int.ModEq.symm
      rw [Int.modEq_iff_dvd]
      obtain ⟨k, hk⟩ := h2
      exact ⟨-k, by push_cast at hk; linarith⟩
    exact_mod_cast hcong

/-- There is no other value below m with that product (R154). -/
theorem inverse_unique (a m y z : Nat) (hg : Nat.gcd (a % m) m = 1) (hy : y < m) (hz : z < m)
    (hay : a * y % m = 1 % m) (haz : a * z % m = 1 % m) : y = z := by
  have hcop : Nat.gcd m a = 1 := by rwa [Nat.gcd_rec]
  have h : a * y ≡ a * z [MOD m] := hay.trans haz.symm
  have h2 : y ≡ z [MOD m] := Nat.ModEq.cancel_left_of_coprime hcop h
  exact Nat.ModEq.eq_of_lt_of_lt h2 hy hz

/-- The residue of an integer modulo a positive number lies in 0 .. m - 1 and is congruent to it (R9). -/
theorem residue_spec (x : Int) (m : Nat) (hm : 0 < m) : residue x m < m ∧ (m : Int) ∣ x - (residue x m : Int) := by
  have h0 := Int.emod_nonneg x (by omega : (m : Int) ≠ 0)
  have h1 := Int.emod_lt_of_pos x (by omega : (0 : Int) < m)
  unfold residue
  refine ⟨by omega, ?_⟩
  rw [Int.toNat_of_nonneg h0]
  exact Int.dvd_self_sub_emod

end Sys2Proof.Machine
end

