-- ==== Sys2Proof/Laws/PerInstr.lean ====
section
/-! SUPPORT. The families of laws made for each instruction on its own. -/

namespace Sys2Proof

/-- An assembled word matches the row of its opcode, when the row's mask is made of the field masks and its pattern is
what they leave. -/
theorem assembled_matches (row : OpRow) (op op' : BitVec 8) (w w' e e' : BitVec 1) (rd rd' ra ra' rb rb' rc rc' : Reg)
    (imm imm' : BitVec 32) (hrow : rowOfOpcode op = some row)
    (hmask : row.mask = (op' ++ w' ++ e' ++ 0x3F#6 ++ rd' ++ ra' ++ rb' ++ rc' ++ imm' : BitVec (8 + 1 + 1 + 6 + 4 + 4 + 4 + 4 + 32)))
    (hpat : assemble (op &&& op') (w &&& w') (e &&& e') (rd &&& rd') (ra &&& ra') (rb &&& rb') (rc &&& rc') (imm &&& imm') =
      row.pattern) :
    ∃ r, rowOfOpcode (assemble op w e rd ra rb rc imm).opcode = some r ∧
      r.matchesWord (assemble op w e rd ra rb rc imm) = true := by
  refine ⟨row, by rw [assemble_opcode, hrow], ?_⟩
  rw [OpRow.matchesWord, hmask, assemble_and, hpat]
  exact beq_self_eq_true _

/-- EncodeShape: the encoding of a command matches the row of R75 that its opcode selects. -/
def Laws.EncodeShape.Statement (i : Instr) : Prop :=
  ∃ row, rowOfOpcode (encode i).opcode = some row ∧ row.matchesWord (encode i) = true

theorem Laws.EncodeShape.ldi (rd : Reg) (imm : BitVec 32) : Laws.EncodeShape.Statement (.ldi rd imm) :=
  assembled_matches ⟨.LDI, 0xFFFF0FFF00000000#64, 0x0100000000000000#64⟩ _ 0xff#8 _ 1#1 _ 1#1 _ 0#4 _ 15#4 _ 15#4 _ 15#4 _ 0x0#32
    (by decide) (by decide) (by simp only [BitVec.and_zero, BitVec.zero_and]; rfl)

theorem Laws.EncodeShape.ld (w : Width) (e : ByteOrder) (rd : Reg) (addr : BitVec 16) (len : BitVec 16) : Laws.EncodeShape.Statement (.ld w e rd addr len) :=
  assembled_matches ⟨.LD, 0xFF3F0FFF00000000#64, 0x0200000000000000#64⟩ _ 0xff#8 _ 0#1 _ 0#1 _ 0#4 _ 15#4 _ 15#4 _ 15#4 _ 0x0#32
    (by decide) (by decide) (by simp only [BitVec.and_zero, BitVec.zero_and]; rfl)

theorem Laws.EncodeShape.st (w : Width) (e : ByteOrder) (ra : Reg) (addr : BitVec 16) (len : BitVec 16) : Laws.EncodeShape.Statement (.st w e ra addr len) :=
  assembled_matches ⟨.ST, 0xFF3FF0FF00000000#64, 0x0300000000000000#64⟩ _ 0xff#8 _ 0#1 _ 0#1 _ 15#4 _ 0#4 _ 15#4 _ 15#4 _ 0x0#32
    (by decide) (by decide) (by simp only [BitVec.and_zero, BitVec.zero_and]; rfl)

theorem Laws.EncodeShape.add (w : Width) (rd : Reg) (ra : Reg) (rb : Reg) : Laws.EncodeShape.Statement (.add w rd ra rb) :=
  assembled_matches ⟨.ADD, 0xFF7F000FFFFFFFFF#64, 0x1000000000000000#64⟩ _ 0xff#8 _ 0#1 _ 1#1 _ 0#4 _ 0#4 _ 0#4 _ 15#4 _ 0xffffffff#32
    (by decide) (by decide) (by simp only [BitVec.and_zero, BitVec.zero_and]; rfl)

theorem Laws.EncodeShape.sub (w : Width) (rd : Reg) (ra : Reg) (rb : Reg) : Laws.EncodeShape.Statement (.sub w rd ra rb) :=
  assembled_matches ⟨.SUB, 0xFF7F000FFFFFFFFF#64, 0x1100000000000000#64⟩ _ 0xff#8 _ 0#1 _ 1#1 _ 0#4 _ 0#4 _ 0#4 _ 15#4 _ 0xffffffff#32
    (by decide) (by decide) (by simp only [BitVec.and_zero, BitVec.zero_and]; rfl)

theorem Laws.EncodeShape.cmp (w : Width) (ra : Reg) (rb : Reg) : Laws.EncodeShape.Statement (.cmp w ra rb) :=
  assembled_matches ⟨.CMP, 0xFF7FF00FFFFFFFFF#64, 0x1200000000000000#64⟩ _ 0xff#8 _ 0#1 _ 1#1 _ 15#4 _ 0#4 _ 0#4 _ 15#4 _ 0xffffffff#32
    (by decide) (by decide) (by simp only [BitVec.and_zero, BitVec.zero_and]; rfl)

theorem Laws.EncodeShape.mul (w : Width) (rd : Reg) (ra : Reg) (rb : Reg) : Laws.EncodeShape.Statement (.mul w rd ra rb) :=
  assembled_matches ⟨.MUL, 0xFF7F000FFFFFFFFF#64, 0x2000000000000000#64⟩ _ 0xff#8 _ 0#1 _ 1#1 _ 0#4 _ 0#4 _ 0#4 _ 15#4 _ 0xffffffff#32
    (by decide) (by decide) (by simp only [BitVec.and_zero, BitVec.zero_and]; rfl)

theorem Laws.EncodeShape.mulw (w : Width) (rd : Reg) (ra : Reg) (rb : Reg) : Laws.EncodeShape.Statement (.mulw w rd ra rb) :=
  assembled_matches ⟨.MULW, 0xFF7F000FFFFFFFFF#64, 0x2100000000000000#64⟩ _ 0xff#8 _ 0#1 _ 1#1 _ 0#4 _ 0#4 _ 0#4 _ 15#4 _ 0xffffffff#32
    (by decide) (by decide) (by simp only [BitVec.and_zero, BitVec.zero_and]; rfl)

theorem Laws.EncodeShape.divrem (w : Width) (rd : Reg) (ra : Reg) (rb : Reg) (rc : Reg) : Laws.EncodeShape.Statement (.divrem w rd ra rb rc) :=
  assembled_matches ⟨.DIVREM, 0xFF7F0000FFFFFFFF#64, 0x2200000000000000#64⟩ _ 0xff#8 _ 0#1 _ 1#1 _ 0#4 _ 0#4 _ 0#4 _ 0#4 _ 0xffffffff#32
    (by decide) (by decide) (by simp only [BitVec.and_zero, BitVec.zero_and]; rfl)

theorem Laws.EncodeShape.and (w : Width) (rd : Reg) (ra : Reg) (rb : Reg) : Laws.EncodeShape.Statement (.and w rd ra rb) :=
  assembled_matches ⟨.AND, 0xFF7F000FFFFFFFFF#64, 0x3000000000000000#64⟩ _ 0xff#8 _ 0#1 _ 1#1 _ 0#4 _ 0#4 _ 0#4 _ 15#4 _ 0xffffffff#32
    (by decide) (by decide) (by simp only [BitVec.and_zero, BitVec.zero_and]; rfl)

theorem Laws.EncodeShape.or (w : Width) (rd : Reg) (ra : Reg) (rb : Reg) : Laws.EncodeShape.Statement (.or w rd ra rb) :=
  assembled_matches ⟨.OR, 0xFF7F000FFFFFFFFF#64, 0x3100000000000000#64⟩ _ 0xff#8 _ 0#1 _ 1#1 _ 0#4 _ 0#4 _ 0#4 _ 15#4 _ 0xffffffff#32
    (by decide) (by decide) (by simp only [BitVec.and_zero, BitVec.zero_and]; rfl)

theorem Laws.EncodeShape.xor (w : Width) (rd : Reg) (ra : Reg) (rb : Reg) : Laws.EncodeShape.Statement (.xor w rd ra rb) :=
  assembled_matches ⟨.XOR, 0xFF7F000FFFFFFFFF#64, 0x3200000000000000#64⟩ _ 0xff#8 _ 0#1 _ 1#1 _ 0#4 _ 0#4 _ 0#4 _ 15#4 _ 0xffffffff#32
    (by decide) (by decide) (by simp only [BitVec.and_zero, BitVec.zero_and]; rfl)

theorem Laws.EncodeShape.not (w : Width) (rd : Reg) (ra : Reg) : Laws.EncodeShape.Statement (.not w rd ra) :=
  assembled_matches ⟨.NOT, 0xFF7F00FFFFFFFFFF#64, 0x3300000000000000#64⟩ _ 0xff#8 _ 0#1 _ 1#1 _ 0#4 _ 0#4 _ 15#4 _ 15#4 _ 0xffffffff#32
    (by decide) (by decide) (by simp only [BitVec.and_zero, BitVec.zero_and]; rfl)

theorem Laws.EncodeShape.shl (w : Width) (rd : Reg) (ra : Reg) (imm : BitVec 32) : Laws.EncodeShape.Statement (.shl w rd ra imm) :=
  assembled_matches ⟨.SHL, 0xFF7F00FF00000000#64, 0x3400000000000000#64⟩ _ 0xff#8 _ 0#1 _ 1#1 _ 0#4 _ 0#4 _ 15#4 _ 15#4 _ 0x0#32
    (by decide) (by decide) (by simp only [BitVec.and_zero, BitVec.zero_and]; rfl)

theorem Laws.EncodeShape.shr (w : Width) (rd : Reg) (ra : Reg) (imm : BitVec 32) : Laws.EncodeShape.Statement (.shr w rd ra imm) :=
  assembled_matches ⟨.SHR, 0xFF7F00FF00000000#64, 0x3500000000000000#64⟩ _ 0xff#8 _ 0#1 _ 1#1 _ 0#4 _ 0#4 _ 15#4 _ 15#4 _ 0x0#32
    (by decide) (by decide) (by simp only [BitVec.and_zero, BitVec.zero_and]; rfl)

theorem Laws.EncodeShape.modred (w : Width) (rd : Reg) (ra : Reg) (rc : Reg) : Laws.EncodeShape.Statement (.modred w rd ra rc) :=
  assembled_matches ⟨.MODRED, 0xFF7F00F0FFFFFFFF#64, 0x4000000000000000#64⟩ _ 0xff#8 _ 0#1 _ 1#1 _ 0#4 _ 0#4 _ 15#4 _ 0#4 _ 0xffffffff#32
    (by decide) (by decide) (by simp only [BitVec.and_zero, BitVec.zero_and]; rfl)

theorem Laws.EncodeShape.modadd (w : Width) (rd : Reg) (ra : Reg) (rb : Reg) (rc : Reg) : Laws.EncodeShape.Statement (.modadd w rd ra rb rc) :=
  assembled_matches ⟨.MODADD, 0xFF7F0000FFFFFFFF#64, 0x4100000000000000#64⟩ _ 0xff#8 _ 0#1 _ 1#1 _ 0#4 _ 0#4 _ 0#4 _ 0#4 _ 0xffffffff#32
    (by decide) (by decide) (by simp only [BitVec.and_zero, BitVec.zero_and]; rfl)

theorem Laws.EncodeShape.modsub (w : Width) (rd : Reg) (ra : Reg) (rb : Reg) (rc : Reg) : Laws.EncodeShape.Statement (.modsub w rd ra rb rc) :=
  assembled_matches ⟨.MODSUB, 0xFF7F0000FFFFFFFF#64, 0x4200000000000000#64⟩ _ 0xff#8 _ 0#1 _ 1#1 _ 0#4 _ 0#4 _ 0#4 _ 0#4 _ 0xffffffff#32
    (by decide) (by decide) (by simp only [BitVec.and_zero, BitVec.zero_and]; rfl)

theorem Laws.EncodeShape.modmul (w : Width) (rd : Reg) (ra : Reg) (rb : Reg) (rc : Reg) : Laws.EncodeShape.Statement (.modmul w rd ra rb rc) :=
  assembled_matches ⟨.MODMUL, 0xFF7F0000FFFFFFFF#64, 0x4300000000000000#64⟩ _ 0xff#8 _ 0#1 _ 1#1 _ 0#4 _ 0#4 _ 0#4 _ 0#4 _ 0xffffffff#32
    (by decide) (by decide) (by simp only [BitVec.and_zero, BitVec.zero_and]; rfl)

theorem Laws.EncodeShape.modpow (w : Width) (rd : Reg) (ra : Reg) (rb : Reg) (rc : Reg) : Laws.EncodeShape.Statement (.modpow w rd ra rb rc) :=
  assembled_matches ⟨.MODPOW, 0xFF7F0000FFFFFFFF#64, 0x4400000000000000#64⟩ _ 0xff#8 _ 0#1 _ 1#1 _ 0#4 _ 0#4 _ 0#4 _ 0#4 _ 0xffffffff#32
    (by decide) (by decide) (by simp only [BitVec.and_zero, BitVec.zero_and]; rfl)

theorem Laws.EncodeShape.modinv (w : Width) (rd : Reg) (ra : Reg) (rc : Reg) : Laws.EncodeShape.Statement (.modinv w rd ra rc) :=
  assembled_matches ⟨.MODINV, 0xFF7F00F0FFFFFFFF#64, 0x4500000000000000#64⟩ _ 0xff#8 _ 0#1 _ 1#1 _ 0#4 _ 0#4 _ 15#4 _ 0#4 _ 0xffffffff#32
    (by decide) (by decide) (by simp only [BitVec.and_zero, BitVec.zero_and]; rfl)

theorem Laws.EncodeShape.shainit : Laws.EncodeShape.Statement (.shainit) :=
  assembled_matches ⟨.SHAINIT, 0xFFFFFFFFFFFFFFFF#64, 0x5000000000000000#64⟩ _ 0xff#8 _ 1#1 _ 1#1 _ 15#4 _ 15#4 _ 15#4 _ 15#4 _ 0xffffffff#32
    (by decide) (by decide) (by simp only [BitVec.and_zero, BitVec.zero_and]; rfl)

theorem Laws.EncodeShape.shaupd (addr : BitVec 16) (len : BitVec 16) : Laws.EncodeShape.Statement (.shaupd addr len) :=
  assembled_matches ⟨.SHAUPD, 0xFFFFFFFF00000000#64, 0x5100000000000000#64⟩ _ 0xff#8 _ 1#1 _ 1#1 _ 15#4 _ 15#4 _ 15#4 _ 15#4 _ 0x0#32
    (by decide) (by decide) (by simp only [BitVec.and_zero, BitVec.zero_and]; rfl)

theorem Laws.EncodeShape.shafin : Laws.EncodeShape.Statement (.shafin) :=
  assembled_matches ⟨.SHAFIN, 0xFFFFFFFFFFFFFFFF#64, 0x5200000000000000#64⟩ _ 0xff#8 _ 1#1 _ 1#1 _ 15#4 _ 15#4 _ 15#4 _ 15#4 _ 0xffffffff#32
    (by decide) (by decide) (by simp only [BitVec.and_zero, BitVec.zero_and]; rfl)

theorem Laws.EncodeShape.shadig (rd : Reg) : Laws.EncodeShape.Statement (.shadig rd) :=
  assembled_matches ⟨.SHADIG, 0xFFFF0FFFFFFFFFFF#64, 0x5300000000000000#64⟩ _ 0xff#8 _ 1#1 _ 1#1 _ 0#4 _ 15#4 _ 15#4 _ 15#4 _ 0xffffffff#32
    (by decide) (by decide) (by simp only [BitVec.and_zero, BitVec.zero_and]; rfl)

theorem Laws.EncodeShape.sha256 (rd : Reg) (addr : BitVec 16) (len : BitVec 16) : Laws.EncodeShape.Statement (.sha256 rd addr len) :=
  assembled_matches ⟨.SHA256, 0xFFFF0FFF00000000#64, 0x5400000000000000#64⟩ _ 0xff#8 _ 1#1 _ 1#1 _ 0#4 _ 15#4 _ 15#4 _ 15#4 _ 0x0#32
    (by decide) (by decide) (by simp only [BitVec.and_zero, BitVec.zero_and]; rfl)

theorem Laws.EncodeShape.clrerr : Laws.EncodeShape.Statement (.clrerr) :=
  assembled_matches ⟨.CLRERR, 0xFFFFFFFFFFFFFFFF#64, 0xF000000000000000#64⟩ _ 0xff#8 _ 1#1 _ 1#1 _ 15#4 _ 15#4 _ 15#4 _ 15#4 _ 0xffffffff#32
    (by decide) (by decide) (by simp only [BitVec.and_zero, BitVec.zero_and]; rfl)

end Sys2Proof
end

