-- ==== Sys2Proof/Tests/Slice0.lean ====
section
/-! SUPPORT. Tests, their expected results taken from the spec (95_test_vectors.md and the examples of the rules), and for
each statement with hypotheses a witness: concrete states and operands that meet them. -/

namespace Sys2Proof.Tests

open Sys2Proof Sys2Proof.Machine

-- One theorem after another, which keeps the checker's memory small.
set_option Elab.async false

/-! ### Helpers -/

/-- The block after reset with some registers set. -/
def fresh (regs : List (Reg × Nat)) : State :=
  regs.foldl (fun s p => s.setReg p.1 (BitVec.ofNat 512 p.2)) State.reset

/-- The same with bytes standing in MEM from an address. -/
def freshMem (regs : List (Reg × Nat)) (addr : Nat) (bytes : List Nat) : State :=
  (fresh regs).writeBytes addr (bytes.map (BitVec.ofNat 8))

/-- One step in which the host issues a word, and what is seen of the next state. -/
def issued {α : Type} (word : CmdWord) (s : State) (see : State → α) : Option α :=
  match step { s with host := [.issue word] } with
  | .next t => some (see t)
  | _ => none

/-- One step in which the host makes a move, and what is seen of the next state. -/
def moved {α : Type} (move : HostMove) (s : State) (see : State → α) : Option α :=
  match step { s with host := [move] } with
  | .next t => some (see t)
  | _ => none

/-- The response code and one register. -/
def seeReg (r : Reg) (t : State) : Option Answer × Nat := (t.answer, (t.reg r).toNat)

/-- Success. -/
def ok : Option Answer := some (.response 0#4)

/-- 2^n. -/
def pow2 (n : Nat) : Nat := 2 ^ n

/-- 2^n − 1. -/
def ones (n : Nat) : Nat := 2 ^ n - 1

/-! ### WellFormed -/

theorem test_divrem_same_destination_refused : (Instr.divrem .w256 2 0 1 2).wellFormed = false := by decide

theorem test_divrem_two_destinations_accepted : (Instr.divrem .w256 2 0 1 3).wellFormed = true := by decide

/-! ### Decoding: words of the spec -/

-- R91, R92 and R93, examples.
theorem test_decode_ldi : decode 0x0100100012345678#64 = .ok (.ldi 1 0x12345678) := by rfl
theorem test_decode_ld : decode 0x02401000001F0010#64 = .ok (.ld .w256 .little 1 0x0010 31) := by rfl
theorem test_decode_st : decode 0x0380020000400080#64 = .ok (.st .w512 .big 2 0x0080 64) := by rfl
-- E3, the head of section 2.3, K7.
theorem test_decode_add : decode 0x1000201000000000#64 = .ok (.add .w256 2 0 1) := by rfl
theorem test_decode_sub : decode 0x1180201000000000#64 = .ok (.sub .w512 2 0 1) := by rfl
theorem test_decode_cmp : decode 0x1280001000000000#64 = .ok (.cmp .w512 0 1) := by rfl
-- Section 2.4, U10, E16.
theorem test_decode_mul : decode 0x2000312000000000#64 = .ok (.mul .w256 3 1 2) := by rfl
theorem test_decode_mulw : decode 0x2180F12000000000#64 = .ok (.mulw .w512 15 1 2) := by rfl
theorem test_decode_divrem : decode 0x2200201300000000#64 = .ok (.divrem .w256 2 0 1 3) := by rfl
-- B1, B2, B8, B5, E23, B21.
theorem test_decode_and : decode 0x3000312000000000#64 = .ok (.and .w256 3 1 2) := by rfl
theorem test_decode_or : decode 0x3100312000000000#64 = .ok (.or .w256 3 1 2) := by rfl
theorem test_decode_xor : decode 0x3280312000000000#64 = .ok (.xor .w512 3 1 2) := by rfl
theorem test_decode_not : decode 0x3380310000000000#64 = .ok (.not .w512 3 1) := by rfl
theorem test_decode_shl : decode 0x34803100FFFFFFFF#64 = .ok (.shl .w512 3 1 4294967295) := by rfl
theorem test_decode_shr : decode 0x35803100000001FF#64 = .ok (.shr .w512 3 1 511) := by rfl
-- The head of section 2.8.
theorem test_decode_modred : decode 0x4000410300000000#64 = .ok (.modred .w256 4 1 3) := by rfl
theorem test_decode_modadd : decode 0x4100412300000000#64 = .ok (.modadd .w256 4 1 2 3) := by rfl
theorem test_decode_modsub : decode 0x4200412300000000#64 = .ok (.modsub .w256 4 1 2 3) := by rfl
theorem test_decode_modmul : decode 0x4380412300000000#64 = .ok (.modmul .w512 4 1 2 3) := by rfl
theorem test_decode_modpow : decode 0x4400412300000000#64 = .ok (.modpow .w256 4 1 2 3) := by rfl
theorem test_decode_modinv : decode 0x4500410300000000#64 = .ok (.modinv .w256 4 1 3) := by rfl
-- V14, V12, R186, R200.
theorem test_decode_shainit : decode 0x5000000000000000#64 = .ok .shainit := by rfl
theorem test_decode_shaupd : decode 0x510000000021000A#64 = .ok (.shaupd 0x000A 33) := by rfl
theorem test_decode_shafin : decode 0x5200000000000000#64 = .ok .shafin := by rfl
theorem test_decode_shadig : decode 0x5300500000000000#64 = .ok (.shadig 5) := by rfl
theorem test_decode_sha256 : decode 0x5400500000030000#64 = .ok (.sha256 5 0 3) := by rfl
theorem test_decode_clrerr : decode 0xF000000000000000#64 = .ok .clrerr := by rfl

-- Section 2.1: every word marked Illegal.
theorem test_illegal_words :
    ([0x0000000000000000, 0xFFFFFFFFFFFFFFFF, 0x1040201000000000, 0x1001201000000000,
        0x1000201300000000, 0x1000201000000001, 0x0180100000000005, 0x0100120000000005] ++
      [0x1200401000000000, 0x0300120000200040, 0x3300311000000000, 0x4000311200000000,
        0x2200201200000000, 0x5000000000000001, 0x5380500000000000, 0xF000100000000000] ++
      [0x0400000000000000, 0x1300000000000000, 0x5500000000000000]).all
      (fun word => (decodeTableWord 64 word).isNone) = true := by decide +kernel

-- Section 2.1: an illegal word changes nothing but ERR = 7 and ERRCMD (E6).
theorem test_illegal_word_captured :
    issued 0x1001201000000000#64 (fresh [(0, 1), (1, 1)]) (fun t => (t.answer, t.status, t.errcmd, t.reg 2)) =
      some (some (.response 7#4), 0x700#32, 0x1001201000000000#64, 0#512) := by decide +kernel

-- The host's fetch runs the word as the very next step.
theorem test_withFetchWord :
    step ((fresh []).withFetchWord 64 0x01001000000000FF) = exec (.ldi 1 255) (fresh []) := by rfl

/-! ### LDI, LD, ST -/

-- L2.
theorem test_ldi : issued 0x0100F000FFFFFFFF#64 (fresh [(15, ones 512)]) (seeReg 15) = some (ok, 0xFFFFFFFF) := by
  decide +kernel

-- L7: an odd address, and the upper half cleared.
theorem test_ld_odd_address :
    issued 0x0200400000200011#64 (freshMem [(4, ones 512)] 0x10 ((List.range 64).map (· + 1))) (seeReg 4) =
      some (ok, 0x2030405060708090a0b0c0d0e0f101112131415161718191a1b1c1d1e1f2021) := by decide +kernel

-- L13: the length comes before the range.
theorem test_ld_length_first :
    issued 0x02000000001FFFF0#64 (fresh [(0, 9)]) (fun t => (t.answer, t.reg 0, t.status, t.errcmd)) =
      some (some (.response 1#4), 9#512, 0x100#32, 0x02000000001FFFF0#64) := by decide +kernel

-- L18.
theorem test_st_512_big :
    issued 0x0380020000400080#64 (fresh [(2, 0xDEADBEEF * pow2 256 + 0x0102)])
      (fun t => (t.answer, t.readBytes 0x9B 6, t.readBytes 0xBD 3)) =
      some (ok, [0#8, 0xDE#8, 0xAD#8, 0xBE#8, 0xEF#8, 0#8], [0#8, 1#8, 2#8]) := by decide +kernel

-- L20.
theorem test_st_out_of_range :
    issued 0x038002000040FFC1#64 (fresh [(2, 1)]) (fun t => (t.answer, t.mem)) =
      some (some (.response 8#4), []) := by decide +kernel

/-! ### ADD, SUB, CMP -/

-- A6.
theorem test_add_ignores_upper_half :
    issued 0x1000201000000000#64 (fresh [(0, ones 512), (1, 1)]) (fun t => ((t.reg 2).toNat, t.status)) =
      some (0, 1#32) := by decide +kernel

-- A16.
theorem test_add_same_register :
    issued 0x1000111000000000#64 (fresh [(1, pow2 255 + 3)]) (fun t => ((t.reg 1).toNat, t.status)) =
      some (6, 1#32) := by decide +kernel

-- A10.
theorem test_sub_borrows :
    issued 0x1180201000000000#64 (fresh [(0, 0), (1, 1)]) (fun t => ((t.reg 2).toNat, t.status)) =
      some (ones 512, 1#32) := by decide +kernel

-- A14.
theorem test_sub_crosses_limb :
    issued 0x1100201000000000#64 (fresh [(0, 0x10000000000000000), (1, 1)]) (fun t => ((t.reg 2).toNat, t.status)) =
      some (0xffffffffffffffff, 0#32) := by decide +kernel

-- K7.
theorem test_cmp_256_equal :
    issued 0x1200001000000000#64 (fresh [(0, pow2 256 + 5), (1, 5)]) State.status = some 4#32 := by decide +kernel

-- K8.
theorem test_cmp_512_greater :
    issued 0x1280001000000000#64 (fresh [(0, pow2 256 + 5), (1, 5)]) State.status = some 8#32 := by decide +kernel

/-! ### MUL, MULW, DIVREM -/

-- U14.
theorem test_mul_truncated :
    issued 0x2000312000000000#64 (fresh [(1, pow2 300 + 7), (2, pow2 400 + 9)]) (seeReg 3) = some (ok, 63) := by
  decide +kernel

-- U10: the pair wraps from R15 to R0.
theorem test_mulw_pair_wraps :
    issued 0x2180F12000000000#64 (fresh [(1, ones 512), (2, ones 512)])
      (fun t => ((t.reg 15).toNat, (t.reg 0).toNat)) = some (1, ones 512 - 1) := by decide +kernel

-- U11: both sources are read before either write.
theorem test_mulw_reads_first :
    issued 0x2180112000000000#64 (fresh [(1, 3), (2, pow2 300 + 5)])
      (fun t => ((t.reg 1).toNat, (t.reg 2).toNat)) = some (3 * pow2 300 + 15, 0) := by decide +kernel

-- Section 2.5, overlap.
theorem test_divrem_overlap :
    issued 0x2200001100000000#64 (fresh [(0, 100), (1, 7)]) (fun t => ((t.reg 0).toNat, (t.reg 1).toNat)) =
      some (14, 2) := by decide +kernel

-- D11.
theorem test_divrem_low_half_zero :
    issued 0x2200201300000000#64 (fresh [(0, 12345), (1, pow2 256), (2, 111), (3, 222)])
      (fun t => (t.answer, (t.reg 2).toNat, (t.reg 3).toNat, t.status)) =
      some (some (.response 2#4), 111, 222, 0x200#32) := by decide +kernel

/-! ### Logic and shifts -/

-- B7.
theorem test_and_clears_upper_half :
    issued 0x3000312000000000#64 (fresh [(1, ones 512), (2, ones 512)]) (seeReg 3) = some (ok, ones 256) := by
  decide +kernel

-- B2.
theorem test_or : issued 0x3100312000000000#64 (fresh [(1, 0xf0f0), (2, 0xff00)]) (seeReg 3) = some (ok, 0xfff0) := by
  decide +kernel

-- B8.
theorem test_xor :
    issued 0x3280312000000000#64 (fresh [(1, ones 512), (2, ones 256)]) (seeReg 3) =
      some (ok, ones 512 - ones 256) := by decide +kernel

-- B6.
theorem test_not_256 : issued 0x3300310000000000#64 (fresh [(1, ones 512)]) (seeReg 3) = some (ok, 0) := by
  decide +kernel

-- B17.
theorem test_shl_crosses_limb :
    issued 0x3400310000000041#64 (fresh [(1, 0x8000000000000001)]) (seeReg 3) =
      some (ok, 0x100000000000000020000000000000000) := by decide +kernel

-- B15.
theorem test_shl_largest_count :
    issued 0x34003100FFFFFFFF#64 (fresh [(1, ones 256)]) (seeReg 3) = some (ok, 0) := by decide +kernel

-- B23.
theorem test_shr_ignores_upper_half :
    issued 0x3500310000000004#64 (fresh [(1, ones 512)]) (seeReg 3) = some (ok, ones 252) := by decide +kernel

-- B21.
theorem test_shr_top_bit :
    issued 0x35803100000001FF#64 (fresh [(1, ones 512)]) (seeReg 3) = some (ok, 1) := by decide +kernel

/-! ### The modular unit -/

-- M37.
theorem test_modred_256 :
    issued 0x4000410300000000#64 (fresh [(1, pow2 296 + 9), (3, pow2 392 + 7)]) (seeReg 4) = some (ok, 2) := by
  decide +kernel

-- M6.
theorem test_modred_zero :
    issued 0x4000410300000000#64 (fresh [(1, 12345), (4, 999)]) (seeReg 4) = some (some (.response 3#4), 999) := by
  decide +kernel

-- M7: the exact sum is reduced.
theorem test_modadd_exact :
    issued 0x4100412300000000#64 (fresh [(1, ones 256), (2, 2), (3, pow2 256 - 3)]) (seeReg 4) = some (ok, 4) := by
  decide +kernel

-- M9: a negative difference.
theorem test_modsub_negative :
    issued 0x4200412300000000#64 (fresh [(1, 3), (2, 5), (3, 7)]) (seeReg 4) = some (ok, 5) := by decide +kernel

-- M13: the exact product is reduced.
theorem test_modmul_exact :
    issued 0x4300412300000000#64 (fresh [(1, ones 256), (2, ones 256), (3, pow2 256 - 189)]) (seeReg 4) =
      some (ok, 35344) := by decide +kernel

-- M21.
theorem test_modpow_fermat :
    issued 0x4400412300000000#64 (fresh [(1, 3), (2, pow2 256 - 190), (3, pow2 256 - 189)]) (seeReg 4) =
      some (ok, 1) := by decide +kernel

-- M17: modulus 1 with exponent 0.
theorem test_modpow_modulus_one :
    issued 0x4400412300000000#64 (fresh [(1, 5), (3, 1), (4, 999)]) (seeReg 4) = some (ok, 0) := by decide +kernel

-- M29.
theorem test_modinv_prime :
    issued 0x4500410300000000#64 (fresh [(1, 3), (3, pow2 256 - 189)]) (seeReg 4) =
      some (ok, 0xaaaaaaaaaaaaaaaaaaaaaaaaaaaaaaaaaaaaaaaaaaaaaaaaaaaaaaaaaaaaaa2d) := by decide +kernel

-- M24.
theorem test_modinv_not_invertible :
    issued 0x4500410300000000#64 (fresh [(1, 2), (3, 4), (4, 999)]) (seeReg 4) =
      some (some (.response 4#4), 999) := by decide +kernel

/-! ### The SHA-256 engine -/

/-- The session of R181's example: "abc" absorbed. -/
def absorbing : State := { fresh [] with status := 0x10#32, buf := [0x61#8, 0x62#8, 0x63#8], totlen := 24#64 }

/-- The eight final words of "abc" (R184, example). -/
def abcWords : HashWords :=
  ⟨0xba7816bf#32, 0x8f01cfea#32, 0x414140de#32, 0x5dae2223#32, 0xb00361a3#32, 0x96177a9c#32, 0xb410ff61#32, 0xf20015ad#32⟩

/-- The session of R184's example: "abc" finished. -/
def finished : State := { fresh [] with status := 0x30#32, hash := abcWords, totlen := 24#64 }

-- V14, step 10.
theorem test_shainit :
    issued 0x5000000000000000#64 finished (fun t => (t.status, t.hash.w0, t.totlen)) =
      some (0#32, 0x6a09e667#32, 0#64) := by decide +kernel

-- R181, example.
theorem test_shaupd :
    issued 0x5100000000030000#64 (freshMem [] 0 [0x61, 0x62, 0x63]) (fun t => (t.buf, t.totlen, t.status, t.hash)) =
      some ([0x61#8, 0x62#8, 0x63#8], 24#64, 0x10#32, hashIV) := by decide +kernel

-- V14, step 13: the range comes before the session.
theorem test_shaupd_range_first :
    issued 0x510000000002FFFF#64 finished (fun t => (t.answer, t.status, t.hash)) =
      some (some (.response 8#4), 0x830#32, abcWords) := by decide +kernel

-- R184, example.
theorem test_shafin :
    issued 0x5200000000000000#64 absorbing (fun t => (t.hash, t.buf, t.totlen, t.status)) =
      some (abcWords, [], 24#64, 0x30#32) := by decide +kernel

-- V14, step 7.
theorem test_shafin_twice :
    issued 0x5200000000000000#64 finished (fun t => (t.answer, t.hash)) =
      some (some (.response 6#4), abcWords) := by decide +kernel

-- R187, example.
theorem test_shadig :
    issued 0x5300500000000000#64 finished (seeReg 5) =
      some (ok, 0xba7816bf8f01cfea414140de5dae2223b00361a396177a9cb410ff61f20015ad) := by decide +kernel

-- V14, step 4.
theorem test_shadig_not_ready :
    issued 0x5300500000000000#64 absorbing (fun t => (t.answer, t.status, t.buf.length)) =
      some (some (.response 6#4), 0x610#32, 3) := by decide +kernel

-- V1: the one digest the source prints.
theorem test_sha256_empty :
    issued 0x5400100000000000#64 absorbing (fun t => (seeReg 1 t, t.status)) =
      some ((ok, 0xe3b0c44298fc1c149afbf4c8996fb92427ae41e4649b934ca495991b7852b855), 0x30#32) := by decide +kernel

-- V5: the shortest message that pads into two blocks.
theorem test_sha256_two_blocks :
    issued 0x5400100000380000#64 (freshMem [] 0 (List.replicate 56 0x61)) (seeReg 1) =
      some (ok, 0xb35439a4ac6f0948b6d6f9e3c6af0f5f590ce20f1bde7090ef7970686ec6738a) := by decide +kernel

/-- The one padded block of "abc" (R183, example). -/
def abcBlock : List Byte := [0x61#8, 0x62#8, 0x63#8] ++ padding 3 24#64

-- R179: W[16] to W[19] and W[63].
theorem test_schedule :
    ((schedule abcBlock).drop 16).take 4 = [0x61626380#32, 0x000f0000#32, 0x7da86405#32, 0x600003c6#32] ∧
      (schedule abcBlock).drop 63 = [0x12b1edeb#32] := by decide +kernel

-- R179: the working words after round 0.
theorem test_round :
    shaRounds ((roundConstants.zip (schedule abcBlock)).take 1) hashIV =
      ⟨0x5d6aebcd#32, 0x6a09e667#32, 0xbb67ae85#32, 0x3c6ef372#32, 0xfa2a4622#32, 0x510e527f#32, 0x9b05688c#32,
        0x1f83d9ab#32⟩ := by decide +kernel

/-! ### Errors, CLRERR and the host's channels -/

/-- Section 2.10 after step 1: DivisionByZero stands in the record. -/
def recorded : State :=
  { fresh [(0, 100), (2, 2), (3, 4)] with status := 0x200#32, errcmd := 0x2200401500000000#64 }

-- Section 2.10, step 2: the record keeps the first error.
theorem test_second_error_not_recorded :
    issued 0x4500420300000000#64 recorded (fun t => (t.answer, t.status, t.errcmd)) =
      some (some (.response 4#4), 0x200#32, 0x2200401500000000#64) := by decide +kernel

-- Section 2.10, step 3: a captured error blocks nothing.
theorem test_error_blocks_nothing :
    issued 0x1000402000000000#64 recorded (fun t => (seeReg 4 t, t.status)) = some ((ok, 0x66), 0x200#32) := by
  decide +kernel

-- Section 2.10, step 5.
theorem test_clrerr :
    issued 0xF000000000000000#64 recorded (fun t => (t.answer, t.status, t.errcmd, t.errOut)) =
      some (ok, 0#32, 0#64, false) := by decide +kernel

-- R32.
theorem test_control_registers :
    moved (.readControl 0) recorded State.answer = some (some (.control 0x200#64)) ∧
      moved (.readControl 1) recorded State.answer = some (some (.control 0x2200401500000000#64)) ∧
      moved (.readControl 2) recorded State.answer = some (some (.control 0#64)) := by decide +kernel

-- R220.
theorem test_err_o :
    moved .observeErr recorded State.answer = some (some (.errLevel true)) ∧
      moved .observeErr finished State.answer = some (some (.errLevel false)) := by decide +kernel

-- R64: a write at MEM_BYTES does nothing.
theorem test_host_write_outside :
    moved (.memWrite 64#16 7#8) { fresh [] with memBytes := 64 } State.mem = some [] := by decide +kernel

-- R64: a byte written is the byte read.
theorem test_host_read :
    moved (.memRead 3#16) (freshMem [] 3 [0x63]) State.answer = some (some (.memByte 0x63#8)) := by decide +kernel

-- R240, U10.
theorem test_reset_abandons :
    moved (.abandon 0x0100100000000005#64) recorded (fun t => (t.answer, t.status, t.reg 0, t.mem)) =
      some (none, 0#32, 0#512, []) := by decide +kernel

/-! ### Assembler text and the datapath -/

-- E3, E16, E23, E24 (its numbers in decimal).
theorem test_asmText :
    asmText (.add .w256 2 0 1) = "ADD.256 R2, R0, R1" ∧
      asmText (.divrem .w256 2 0 1 3) = "DIVREM.256 R2, R3, R0, R1" ∧
      asmText (.shl .w512 3 1 4294967295) = "SHL.512 R3, R1, 4294967295" ∧
      asmText (.ld .w256 .little 1 0x0010 31) = "LD.256.LE R1, [16], 31" := by decide +kernel

-- E24, U10, R81, R80: text of the spec, a count that does not fit, a missing suffix.
theorem test_commandOfText :
    commandOfText "LD.256.LE R1, [0x0010], 31" = some (.ld .w256 .little 1 0x0010 31) ∧
      commandOfText "MULW.512 R15, R1, R2 ; the pair wraps" = some (.mulw .w512 15 1 2) ∧
      commandOfText "TRUNC256 R3, R1" = some (.or .w256 3 1 1) ∧
      commandOfText "SHL.256 R3, R1, 4294967296" = none ∧ commandOfText "ADD R2, R0, R1" = none := by decide +kernel

-- R114: the heights for L = 64 and L = 32.
theorem test_dadda_heights :
    daddaHeights 64 64 2 = [63, 42, 28, 19, 13, 9, 6, 4, 3, 2] ∧ daddaHeights 32 32 2 = [28, 19, 13, 9, 6, 4, 3, 2] := by
  decide

-- R114 at the largest 8-bit operands with both addends: 2^16 − 1 (R111).
theorem test_trees_largest :
    daddaProduct 8 255 255 [255, 255] = 65535 ∧ wallaceProduct 8 255 255 [255, 255] = 65535 := by decide +kernel

-- A5 on limbs of 64 bits.
theorem test_carry_chain :
    addChain 64 0 [0xffffffffffffffff, 0, 0, 0] [1, 0, 0, 0] = ([0, 1, 0, 0], 0) := by decide +kernel

/-! ### Witnesses: states and operands that meet the hypotheses of the statements

Each theorem is named after its statement and shows all hypotheses of a clause together; where a statement has several
clauses, one part for each. -/

/-- The outcome is a next state. -/
def goesOn : Result → Bool
  | .next _ => true
  | _ => false

theorem next_of_goesOn {r : Result} (h : goesOn r = true) : ∃ t, r = .next t := by
  cases r with
  | next t => exact ⟨t, rfl⟩
  | fault _ => cases h
  | refused _ => cases h

/-- The state of `s` with one move of the host before it. -/
def before (move : HostMove) (s : State) : State := { s with host := [move] }

theorem witness_DecodeOfEncode : (Instr.divrem .w512 15 0 1 14).wellFormed = true := by decide

theorem witness_EncodeOfDecode : ∃ i, decode 0x0240F000001FFFFF#64 = .ok i := ⟨_, rfl⟩

theorem witness_DecodesExactlyByTable :
    (⟨.CLRERR, 0xFFFFFFFFFFFFFFFF#64, 0xF000000000000000#64⟩ : OpRow) ∈ opRows ∧
      0xF000000000000000#64 &&& 0xFFFFFFFFFFFFFFFF#64 = 0xF000000000000000#64 := by decide

theorem witness_StepRunsIssuedCommand :
    (before (.issue 0x5200000000000000#64) absorbing).host = .issue 0x5200000000000000#64 :: [] ∧
      decode 0x5200000000000000#64 = .ok .shafin := ⟨rfl, rfl⟩

theorem witness_IllegalWordRaisesIllegalCommand :
    (before (.issue 0#64) recorded).host = .issue 0#64 :: [] ∧
      (∀ row ∈ opRows, 0#64 &&& row.mask = row.pattern → row.op = .DIVREM ∧ CmdWord.rd 0#64 = CmdWord.rc 0#64) ∧
      (∀ row ∈ opRows, 0x2200201200000000#64 &&& row.mask = row.pattern →
        row.op = .DIVREM ∧ CmdWord.rd 0x2200201200000000#64 = CmdWord.rc 0x2200201200000000#64) := by
  decide +kernel

theorem witness_ResetGivesResetValues :
    (before .reset finished).host = .reset :: [] ∧
      (before (.abandon 0x5200000000000000#64) absorbing).host = .abandon 0x5200000000000000#64 :: [] := ⟨rfl, rfl⟩

/-- The smallest block: MEM_BYTES = 64. -/
def smallest : State := { fresh [] with memBytes := 64 }

theorem witness_HostAccessesBytesOfMem :
    (before (.memWrite 63#16 1#8) smallest).host = .memWrite 63#16 1#8 :: [] ∧ (63#16).toNat < smallest.memBytes ∧
      (before (.memWrite 64#16 1#8) smallest).host = .memWrite 64#16 1#8 :: [] ∧ smallest.memBytes ≤ (64#16).toNat ∧
      (before (.memRead 63#16) smallest).host = .memRead 63#16 :: [] ∧
      (before (.memRead 64#16) smallest).host = .memRead 64#16 :: [] := by
  refine ⟨rfl, ?_, rfl, ?_, rfl, rfl⟩ <;> decide

theorem witness_HostReadsControlRegisters :
    (before (.readControl 0) recorded).host = .readControl 0 :: [] ∧
      (before (.readControl 1) recorded).host = .readControl 1 :: [] ∧
      (before (.readControl 2) recorded).host = .readControl 2 :: [] ∧
      (before .observeErr recorded).host = .observeErr :: [] ∧ recorded.err ≠ 0#4 ∧
      (before .observeErr finished).host = .observeErr :: [] ∧ finished.err = 0#4 := by
  refine ⟨rfl, rfl, rfl, rfl, ?_, rfl, ?_⟩ <;> decide +kernel

theorem witness_StepKeepsInvariant :
    State.Inv absorbing ∧ ∃ t, step absorbing = .next t := by
  refine ⟨⟨?_, ?_, ?_, ?_, ?_, ?_, ?_, ?_, ?_, ?_, ?_, ?_⟩, next_of_goesOn (by decide +kernel)⟩
  · decide
  · decide
  · intro c h; cases h
  · decide +kernel
  · decide +kernel
  · decide +kernel
  · intro _; rfl
  · decide +kernel
  · decide
  · intro h; exact absurd h (by decide +kernel)
  · intro _; decide +kernel
  · intro h; exact absurd h (by decide +kernel)

/-- A block whose byte 5 holds 1. -/
def byteFive : State := freshMem [] 5 [1]

theorem witness_MemChangesOnlyByStoreHostOrReset :
    moved (.memWrite 5#16 2#8) byteFive (fun t => t.readByte 5) = some 2#8 ∧
      issued 0x0300000000200000#64 byteFive (fun t => t.readByte 5) = some 0#8 ∧ byteFive.readByte 5 = 1#8 := by
  decide +kernel

theorem witness_FailingCommandWritesNothing :
    raises (.ld .w256 .big 0 0xFFF0 31) recorded = some .lengthMismatch ∧
      raises (.st .w512 .little 0 0xFFC1 64) recorded = some .addressRange ∧
      raises (.shaupd 0 0) finished = some .invalidSessionState ∧
      raises (.divrem .w256 4 0 1 5) recorded = some .divisionByZero ∧
      raises (.divrem .w256 4 0 1 4) recorded = some .illegalCommand ∧
      raises (.modpow .w256 4 0 0 1) recorded = some .modulusZero ∧
      raises (.modinv .w256 4 2 3) recorded = some .notInvertible := by decide +kernel

theorem witness_SuccessfulCommandKeepsErrorRecord :
    raises (.add .w256 4 0 2) recorded = none ∧ ¬ overflowsLength (.add .w256 4 0 2) recorded := by
  refine ⟨rfl, ?_⟩
  rintro ⟨_, _, h, _⟩
  cases h

theorem witness_ErrorsDependOnlyOnWordSizeSessionSources :
    ({ recorded with status := 0x001#32 } : State).memBytes = recorded.memBytes ∧
      ({ recorded with status := 0x001#32 } : State).session = recorded.session ∧
      (∀ r ∈ sources (.divrem .w256 4 0 1 5), ({ recorded with status := 0x001#32 } : State).reg r = recorded.reg r) ∧
      (∃ t, exec (.divrem .w256 4 0 1 5) recorded = .next t) ∧
      (∃ t, exec (.divrem .w256 4 0 1 5) { recorded with status := 0x001#32 } = .next t) := by
  refine ⟨rfl, ?_, ?_, next_of_goesOn (by decide +kernel), next_of_goesOn (by decide +kernel)⟩ <;> decide +kernel

theorem witness_CommandsWriteOnlyTheirDestinations : ∃ t, exec (.ldi 3 7) recorded = .next t := next_of_goesOn (by decide +kernel)

theorem witness_CommandsWriteOnlyTheirStatusBits :
    (∃ t, exec (.cmp .w256 0 1) recorded = .next t) ∧ raises (.cmp .w256 0 1) recorded = none ∧
      (∃ t, exec .shafin finished = .next t) ∧ raises .shafin finished ≠ none := by
  refine ⟨next_of_goesOn (by decide +kernel), rfl, next_of_goesOn (by decide +kernel), ?_⟩
  decide +kernel

theorem witness_CommandsWriteMemAndSessionOnlyAsNamed :
    (∃ t, exec (.st .w256 .big 0 0xFFE0 32) recorded = .next t) ∧ writesHash (.st .w256 .big 0 0xFFE0 32) = false :=
  ⟨next_of_goesOn (by decide +kernel), rfl⟩

/-- Two blocks whose R0 differ in bit 256 alone. -/
def lowSeven : State := fresh [(0, 7)]
/-- The second of them. -/
def highSeven : State := fresh [(0, pow2 256 + 7)]

theorem witness_UpperHalvesIgnoredAt256 :
    widthOf (.add .w256 2 0 1) = some .w256 ∧ highSeven = { lowSeven with regs := highSeven.regs } ∧
      (∀ r, highSeven.src .w256 r = lowSeven.src .w256 r) ∧ (∃ t, exec (.add .w256 2 0 1) lowSeven = .next t) ∧
      highSeven ≠ lowSeven ∧ raises (.add .w256 2 0 1) lowSeven = none := by
  refine ⟨rfl, rfl, ?_, next_of_goesOn (by decide +kernel), ?_, rfl⟩ <;> decide +kernel

theorem witness_LdConstructsFromBytes :
    (31#16).toNat ≠ Width.w256.bytes ∧ (33#16).toNat ≠ Width.w256.bytes ∧ (63#16).toNat ≠ Width.w512.bytes ∧
      (32#16).toNat = Width.w256.bytes ∧ (64#16).toNat = Width.w512.bytes ∧
      (fresh []).memBytes < (0xFFE1#16).toNat + (32#16).toNat ∧ (0xFFE0#16).toNat + (32#16).toNat ≤ (fresh []).memBytes ∧
      smallest.memBytes < (1#16).toNat + (64#16).toNat ∧ (0#16).toNat + (64#16).toNat ≤ smallest.memBytes := by decide

theorem witness_StSerialisesToBytes :
    (32#16).toNat ≠ Width.w512.bytes ∧ (0#16).toNat ≠ Width.w256.bytes ∧ (64#16).toNat = Width.w512.bytes ∧
      (fresh []).memBytes < (0xFFC1#16).toNat + (64#16).toNat ∧
      (0xFFC0#16).toNat + (64#16).toNat ≤ (fresh []).memBytes := by decide

theorem witness_StoreAndLoadRoundTrip :
    (32#16).toNat = Width.w256.bytes ∧ (32#16).toNat + (32#16).toNat ≤ smallest.memBytes ∧
      (0#16).toNat + (32#16).toNat ≤ smallest.memBytes ∧ ByteOrder.little ≠ ByteOrder.big := by decide

theorem witness_SubWritesDifferenceAndBorrow :
    lowSeven.src .w512 0 ≤ lowSeven.src .w512 0 ∧ lowSeven.src .w512 1 < lowSeven.src .w512 0 := by decide +kernel

theorem witness_AddAndSubUndoEachOther : (1 : Reg) ≠ 0 := by decide

theorem witness_WideProductReducesToModmul :
    (3 : Reg) ≠ 2 ∧ 0 < ((fresh [(2, 1)]).reg 2).toNat ∧ ((fresh [(2, 1)]).reg 2).toNat < 2 ^ Width.w256.bits ∧
      0 < ((fresh [(2, ones 256)]).reg 2).toNat ∧ ((fresh [(2, ones 256)]).reg 2).toNat < 2 ^ Width.w256.bits := by
  decide +kernel

theorem witness_DivremWritesQuotientAndRemainder :
    (2 : Reg) ≠ 3 ∧ (3 : Reg) = 3 ∧ highSeven.src .w256 1 = 0 ∧ (fresh [(1, pow2 256)]).src .w256 1 = 0 ∧
      (fresh [(1, pow2 256)]).src .w512 1 ≠ 0 ∧ (fresh [(1, 1)]).src .w256 1 ≠ 0 := by decide +kernel

theorem witness_ModredWritesResidue :
    (fresh []).src .w512 3 = 0 ∧ (fresh [(3, 1)]).src .w512 3 ≠ 0 ∧ (fresh [(3, ones 512)]).src .w512 3 ≠ 0 := by
  decide +kernel

theorem witness_ModaddReducesExactSum :
    (fresh [(3, pow2 256)]).src .w256 3 = 0 ∧ (fresh [(3, pow2 256)]).src .w512 3 ≠ 0 := by decide +kernel

theorem witness_ModsubReducesExactDifference :
    (fresh []).src .w256 3 = 0 ∧ (fresh [(3, ones 256)]).src .w256 3 ≠ 0 := by decide +kernel

theorem witness_ModmulReducesExactProduct :
    (fresh []).src .w512 15 = 0 ∧ (fresh [(15, 2)]).src .w512 15 ≠ 0 := by decide +kernel

theorem witness_ModpowReducesExactPower :
    (fresh []).src .w256 0 = 0 ∧ (fresh [(0, 1)]).src .w256 0 ≠ 0 := by decide +kernel

theorem witness_ModinvWritesTheInverse :
    (fresh [(1, 1)]).src .w256 3 = 0 ∧
      ((fresh [(3, 7)]).src .w256 3 ≠ 0 ∧
        Nat.gcd ((fresh [(3, 7)]).src .w256 1 % (fresh [(3, 7)]).src .w256 3) ((fresh [(3, 7)]).src .w256 3) ≠ 1) ∧
      ((fresh [(3, 1)]).src .w256 3 ≠ 0 ∧
        Nat.gcd ((fresh [(3, 1)]).src .w256 1 % (fresh [(3, 1)]).src .w256 3) ((fresh [(3, 1)]).src .w256 3) = 1) := by
  decide +kernel

theorem witness_ModularLaws :
    ((2 : Reg) ≠ 4 ∧ (3 : Reg) ≠ 4 ∧ (fresh [(3, 1)]).src .w256 3 ≠ 0) ∧
      (1 < (fresh [(3, 2)]).src .w256 3 ∧ (fresh [(3, 2)]).src .w256 2 = 0) ∧
      ((1 : Reg) ≠ 4 ∧ (fresh [(2, 0), (3, 7), (5, 1)]).src .w256 3 ≠ 0 ∧
        (fresh [(2, 0), (3, 7), (5, 1)]).src .w256 5 = (fresh [(2, 0), (3, 7), (5, 1)]).src .w256 2 + 1) ∧
      (1 < (fresh [(1, 1), (3, 2)]).src .w256 3 ∧
        Nat.gcd ((fresh [(1, 1), (3, 2)]).src .w256 1) ((fresh [(1, 1), (3, 2)]).src .w256 3) = 1) := by decide +kernel

/-- Absorbing with the counter 8 bits below its end. -/
def nearlyFull : State := { absorbing with totlen := 0xFFFFFFFFFFFFFFF8#64 }

theorem witness_ShaupdAbsorbsBytes :
    finished.memBytes < (0xFFFF#16).toNat + (2#16).toNat ∧
      ((0xFFFF#16).toNat + (1#16).toNat ≤ finished.memBytes ∧ finished.session = .done) ∧
      ((0#16).toNat + (1#16).toNat ≤ nearlyFull.memBytes ∧ nearlyFull.session ≠ .done ∧
        2 ^ 64 ≤ nearlyFull.totlen.toNat + 8 * (1#16).toNat) ∧
      (nearlyFull.session ≠ .done ∧ nearlyFull.totlen.toNat + 8 * (0#16).toNat < 2 ^ 64) := by decide +kernel

theorem witness_ShafinFinishesSession :
    finished.session = .done ∧
      ({ absorbing with buf := List.replicate 63 0#8 } : State).session ≠ .done ∧
      ({ absorbing with buf := List.replicate 63 0#8 } : State).buf.length ≤ 63 := by decide +kernel

theorem witness_ShadigWritesDigest : absorbing.session ≠ .done ∧ finished.session = .done := by decide +kernel

theorem witness_Sha256IsTheFourCommands :
    finished.memBytes < (0xFFFF#16).toNat + (2#16).toNat ∧
      (0xFFFF#16).toNat + (1#16).toNat ≤ finished.memBytes := by decide

/-- "ab" and "c" as two pieces at one address, with an empty piece between them. -/
def abcPieces : List Piece := [⟨[(0, 0x61#8), (1, 0x62#8)], 0#16, 2#16⟩, ⟨[], 0#16, 0#16⟩, ⟨[(0, 0x63#8)], 0#16, 1#16⟩]

theorem witness_ChunkingDoesNotMatter :
    (∀ p ∈ abcPieces, p.addr.toNat + p.len.toNat ≤ finished.memBytes) ∧
      8 * (abcPieces.flatMap (pieceBytes finished)).length < 2 ^ 64 ∧
      (7#16).toNat + (3#16).toNat ≤ (freshMem [] 7 [0x61, 0x62, 0x63]).memBytes ∧
      (freshMem [] 7 [0x61, 0x62, 0x63]).readBytes (7#16).toNat (3#16).toNat =
        abcPieces.flatMap (pieceBytes finished) := by decide +kernel

theorem witness_SessionTransitionsAndImmutableDigest :
    (finished.session ≠ .finalizing ∧ (∃ t, exec .shafin finished = .next t) ∧ raises .shafin finished ≠ none ∧
        finished.session = .done) ∧
      (absorbing.session ≠ .finalizing ∧ (∃ t, exec .shafin absorbing = .next t) ∧ raises .shafin absorbing = none ∧
        absorbing.session ≠ .done) := by
  refine ⟨⟨?_, next_of_goesOn (by decide +kernel), ?_, ?_⟩, ?_, next_of_goesOn (by decide +kernel), ?_, ?_⟩ <;> decide +kernel

theorem witness_AbsorbCompressesWholeBlocks :
    (⟨hashIV, List.replicate 63 1#8⟩ : Sponge).buf.length ≤ 63 := by decide

theorem witness_PaddingFillsTheLastBlocks :
    (⟨hashIV, List.replicate 55 1#8⟩ : Sponge).buf.length ≤ 63 ∧
      (⟨hashIV, List.replicate 56 1#8⟩ : Sponge).buf.length ≤ 63 := by decide

theorem witness_WindowScheduleGivesTheSameRounds : abcBlock.length = 64 := by decide +kernel

theorem witness_LimbChainsAddAndSubtract : ones 256 < 2 ^ (64 * 4) ∧ 0 < 2 ^ (64 * 4) := by decide +kernel

theorem witness_LimbMultiplierIsExact :
    (255 < 2 ^ 8 ∧ 0 < 2 ^ 8) ∧ ones 256 < 2 ^ (8 * 32) ∧ 1 < 2 ^ (8 * 32) := by decide +kernel

theorem witness_ReductionTreesMultiply :
    (8 ∈ Config.legalLimbBits ∧ 255 < 2 ^ 8) ∧ 64 ∈ Config.legalLimbBits ∧ 0xffffffffffffffff < 2 ^ 64 := by decide

theorem witness_LimbShifterShifts : 0 < 64 ∧ ones 256 < 2 ^ (64 * 4) := by decide +kernel

theorem witness_RestoringDivisionAndBarrettDivide :
    (ones 256 < 2 ^ 256 ∧ 0 < 1) ∧ (0 < 1 ∧ 3 < 2 ^ (2 * bitLength 1)) ∧ 63 < 2 ^ (2 * bitLength 4) := by decide +kernel

-- m = 251 at two limbs of 8 bits.
theorem witness_MontgomeryReduces :
    (251 * 62925 + 1) % 2 ^ (8 * 2) = 0 ∧ (251 * 205 + 1) % 2 ^ 8 = 0 ∧ 16449535 < 251 * 2 ^ (8 * 2) ∧
      251 < 2 ^ (8 * 2) ∧ 250 < 251 ∧ 0 < 251 := by decide +kernel

end Sys2Proof.Tests
end

section
/-! The invariant of the state is kept by every step (O11). The twelve clauses of `State.Inv` fall into five parts, each
about fields of its own (`inv_iff`); every write of the model touches one of them. -/

namespace Sys2Proof.Machine

/-! ### The parts of the invariant -/

/-- The clauses of the invariant on MEM_BYTES and MEM. -/
def MemLegal (memBytes : Nat) (m : Memory) : Prop :=
  (Config.minMemBytes ≤ memBytes ∧ memBytes ≤ Config.maxMemBytes) ∧ Memory.wf m = true ∧ ∀ c ∈ m, c.1 < memBytes

/-- The clause on the reserved bits of STATUS, 7:6 and 31:12 (R30). -/
def ReservedZero (status : BitVec 32) : Prop := getField status 6 2 = 0#2 ∧ getField status 12 20 = 0#20

/-- The clause on LT, EQ and GT (R29). -/
def OrderOneHot (lt eq gt : Bool) : Prop := (!(lt && eq) && !(eq && gt) && !(lt && gt)) = true

/-- The clauses on the error record, ERR and ERRCMD (R31, R211). -/
def ErrorLegal (err : BitVec 4) (errcmd : CmdWord) : Prop :=
  (err.toNat ≤ 8 ∧ err ≠ 5#4) ∧ (err = 0#4 → errcmd = 0#64)

/-- The clauses on the session: SST with H, BUF and TOTLEN (R33, R34, R184). -/
structure SessionLegal (x : SessionState) (h : HashWords) (buf : List Byte) (totlen : BitVec 64) : Prop where
  notFinalizing : x ≠ .finalizing
  bufShort : buf.length ≤ 63
  initFresh : x = .init → h = hashIV ∧ buf = [] ∧ totlen = 0#64
  bufCounted : x = .init ∨ x = .absorbing → totlen.toNat % 8 = 0 ∧ buf.length = totlen.toNat / 8 % 64
  doneEmpty : x = .done → buf = []

/-- The invariant is its five parts. -/
theorem inv_iff {s : State} : s.Inv ↔
    MemLegal s.memBytes s.mem ∧ ReservedZero s.status ∧ OrderOneHot s.flagLT s.flagEQ s.flagGT ∧
      ErrorLegal s.err s.errcmd ∧ SessionLegal s.session s.hash s.buf s.totlen := by
  constructor
  · intro h
    exact ⟨⟨h.memSize, h.memCanonical, h.memBounded⟩, h.reservedZero, h.orderOneHot, ⟨h.errLegal, h.errcmdZero⟩,
      ⟨h.notFinalizing, h.bufShort, h.initFresh, h.bufCounted, h.doneEmpty⟩⟩
  · rintro ⟨⟨hsize, hwf, hbound⟩, hres, horder, ⟨herr, hcmd⟩, ⟨hfin, hshort, hinit, hcount, hdone⟩⟩
    exact ⟨hsize, hwf, hbound, hres, horder, herr, hcmd, hfin, hshort, hinit, hcount, hdone⟩

/-! ### MEM -/

theorem MemLegal.set {n : Nat} {m : Memory} (hm : MemLegal n m) {addr : Nat} (ha : addr < n) (v : Byte) :
    MemLegal n (Memory.set m addr v) := by
  obtain ⟨hsize, hwf, hbound⟩ := hm
  refine ⟨hsize, wf_set m addr v hwf, fun c hc => ?_⟩
  rcases mem_set m addr v c hc with h | h
  · omega
  · exact hbound c h

theorem MemLegal.setBytes {n : Nat} {m : Memory} (hm : MemLegal n m) {addr : Nat} {bytes : List Byte}
    (ha : addr + bytes.length ≤ n) : MemLegal n (Memory.setBytes m addr bytes) := by
  obtain ⟨hsize, hwf, hbound⟩ := hm
  refine ⟨hsize, wf_setBytes m addr bytes hwf, fun c hc => ?_⟩
  rcases mem_setBytes m addr bytes c hc with h | h
  · omega
  · exact hbound c h

/-! ### STATUS -/

/-- A write of a field that lies in bits 5:0 or in bits 11:8 keeps the reserved bits. -/
theorem ReservedZero.putField {st : BitVec 32} (h : ReservedZero st) (lo : Nat) {n : Nat} (v : BitVec n)
    (hlo : lo + n ≤ 6 ∨ (8 ≤ lo ∧ lo + n ≤ 12)) : ReservedZero (putField st lo v) := by
  obtain ⟨h6, h12⟩ := h
  constructor
  · rwa [getField_putField_apart st lo 6 2 v (by omega) (by omega)]
  · rwa [getField_putField_apart st lo 12 20 v (by omega) (by omega)]

/-- A comparison of two integers sets exactly one flag (R140). -/
theorem orderOneHot_compare (a b : Nat) : OrderOneHot (decide (a < b)) (decide (a = b)) (decide (b < a)) := by
  unfold OrderOneHot
  rcases Nat.lt_trichotomy a b with h | h | h
  · simp [h, Nat.ne_of_lt h, Nat.le_of_lt h]
  · simp [h]
  · simp [h, Nat.ne_of_gt h, Nat.le_of_lt h]

/-- Writing C keeps LT, EQ and GT. -/
@[simp] theorem setC_order (c : Bool) (s : State) :
    (s.setC c).flagLT = s.flagLT ∧ (s.setC c).flagEQ = s.flagEQ ∧ (s.setC c).flagGT = s.flagGT :=
  ⟨setC_bit c s 1 (by decide), setC_bit c s 2 (by decide), setC_bit c s 3 (by decide)⟩

/-- Writing SST keeps LT, EQ and GT. -/
@[simp] theorem setSession_order (x : SessionState) (s : State) : (s.setSession x).flagLT = s.flagLT ∧
    (s.setSession x).flagEQ = s.flagEQ ∧ (s.setSession x).flagGT = s.flagGT :=
  ⟨setSession_bit x s 1 (by decide), setSession_bit x s 2 (by decide), setSession_bit x s 3 (by decide)⟩

/-- Writing ERR keeps LT, EQ and GT. -/
@[simp] theorem setErr_order (code : BitVec 4) (s : State) : (s.setErr code).flagLT = s.flagLT ∧
    (s.setErr code).flagEQ = s.flagEQ ∧ (s.setErr code).flagGT = s.flagGT :=
  ⟨setErr_bit code s 1 (by decide), setErr_bit code s 2 (by decide), setErr_bit code s 3 (by decide)⟩

/-! ### The error record -/

/-- Every error that is raised leaves a legal record, whatever its command word (R211). -/
theorem errorLegal_code {e : ErrorKind} (he : e ≠ .entropyUnavailable) (word : CmdWord) : ErrorLegal e.code word := by
  cases e with
  | entropyUnavailable => exact absurd rfl he
  | _ => exact ⟨by decide, fun h => absurd h (by decide)⟩

/-! ### The session -/

/-- A session just started (R180). -/
theorem sessionLegal_init : SessionLegal .init hashIV [] 0#64 where
  notFinalizing := by decide
  bufShort := by decide
  initFresh _ := ⟨rfl, rfl, rfl⟩
  bufCounted _ := ⟨rfl, rfl⟩
  doneEmpty _ := rfl

/-- A session that is done has an empty BUF, and H and TOTLEN are free (R184). -/
theorem sessionLegal_done (h : HashWords) (totlen : BitVec 64) : SessionLegal .done h [] totlen where
  notFinalizing := by decide
  bufShort := by decide
  initFresh h := absurd h (by decide)
  bufCounted h := absurd h (by decide)
  doneEmpty _ := rfl

/-- Absorbing bytes in a session that takes input: BUF fills modulo 64 as TOTLEN grows by 8 bits a byte (R176, R181). -/
theorem SessionLegal.absorb {x : SessionState} {st : Sponge} {totlen : BitVec 64}
    (hx : SessionLegal x st.h st.buf totlen) (hopen : x = .init ∨ x = .absorbing) (bytes : List Byte)
    (hfit : totlen.toNat + 8 * bytes.length < 2 ^ 64) :
    SessionLegal .absorbing (absorb st bytes).h (absorb st bytes).buf
      (totlen + BitVec.ofNat 64 (8 * bytes.length)) := by
  have hlen := absorb_length st bytes (Nat.lt_succ_of_le hx.bufShort)
  have htot : (totlen + BitVec.ofNat 64 (8 * bytes.length)).toNat = totlen.toNat + 8 * bytes.length := by
    rw [BitVec.toNat_add, BitVec.toNat_ofNat]
    omega
  obtain ⟨hmul, hcount⟩ := hx.bufCounted hopen
  exact {
    notFinalizing := by decide
    bufShort := by omega
    initFresh := fun h => absurd h (by decide)
    bufCounted := fun _ => by omega
    doneEmpty := fun h => absurd h (by decide) }

/-! ### The writes of the state -/

/-- The state right after reset meets the invariant (R37). -/
theorem inv_reset : State.Inv State.reset := by
  refine inv_iff.2 ⟨⟨by decide, rfl, fun c hc => absurd hc List.not_mem_nil⟩, ⟨rfl, rfl⟩, rfl,
    ⟨by decide, fun _ => rfl⟩, sessionLegal_init⟩

namespace State.Inv

variable {s : State}

/-- The invariant reads no register, and none of the model's own fields but MEM_BYTES. -/
theorem withUnread (hi : s.Inv) (regs : Vector RegVal 16) (host : List HostMove) (answer : Option Answer)
    (resets draws : Nat) :
    State.Inv { s with regs := regs, host := host, answer := answer, resets := resets, draws := draws } := by
  have hparts := inv_iff.1 hi
  exact inv_iff.2 hparts

theorem setReg (hi : s.Inv) (r : Reg) (v : RegVal) : (s.setReg r v).Inv := hi.withUnread ..

theorem writeW (hi : s.Inv) (w : Width) (r : Reg) (v : Nat) : (s.writeW w r v).Inv := hi.setReg ..

theorem writeWide (hi : s.Inv) (w : Width) (r : Reg) (p : Nat) : (s.writeWide w r p).Inv := by
  cases w with
  | w256 => exact hi.setReg ..
  | w512 => exact (hi.setReg ..).setReg ..

theorem writeDigest (hi : s.Inv) (r : Reg) : (s.writeDigest r).Inv := hi.setReg ..

theorem respond (hi : s.Inv) (code : BitVec 4) : (s.respond code).Inv := hi.withUnread ..

theorem withMem (hi : s.Inv) {m : Memory} (hm : MemLegal s.memBytes m) : State.Inv { s with mem := m } := by
  obtain ⟨-, hrest⟩ := inv_iff.1 hi
  exact inv_iff.2 ⟨hm, hrest⟩

theorem setC (hi : s.Inv) (c : Bool) : (s.setC c).Inv := by
  obtain ⟨hmem, hres, hrest⟩ := inv_iff.1 hi
  exact inv_iff.2 ⟨hmem, hres.putField 0 _ (by decide), by simpa using hrest⟩

theorem setOrder (hi : s.Inv) {lt eq gt : Bool} (h : OrderOneHot lt eq gt) : (s.setOrder lt eq gt).Inv := by
  obtain ⟨hmem, hres, -, hrest⟩ := inv_iff.1 hi
  exact inv_iff.2 ⟨hmem, hres.putField 1 _ (by decide), by simpa using ⟨h, hrest⟩⟩

theorem setCompare (hi : s.Inv) (a b : Nat) : (s.setCompare a b).Inv := hi.setOrder (orderOneHot_compare a b)

/-- Writing the error record, ERR and ERRCMD together. -/
theorem setErrorRecord (hi : s.Inv) {code : BitVec 4} {word : CmdWord} (h : ErrorLegal code word) :
    State.Inv { s.setErr code with errcmd := word } := by
  obtain ⟨hmem, hres, horder, -, hsession⟩ := inv_iff.1 hi
  obtain ⟨-, hLT, hEQ, hGT, hSST, hERR⟩ :=
    status_accessors (s := s.setErr code) (t := { s.setErr code with errcmd := word }) rfl
  rw [inv_iff, hLT, hEQ, hGT, hSST, hERR]
  exact ⟨hmem, hres.putField 8 _ (by decide), by simpa using ⟨horder, h, hsession⟩⟩

theorem clearError (hi : s.Inv) : s.clearError.Inv := hi.setErrorRecord ⟨by decide, fun _ => rfl⟩

theorem capture (hi : s.Inv) {e : ErrorKind} (he : e ≠ .entropyUnavailable) (word : CmdWord) :
    (s.capture e word).Inv := by
  unfold State.capture
  split
  · exact hi.setErrorRecord (errorLegal_code he word)
  · exact hi

/-- Writing the whole session: H, BUF, TOTLEN and SST. -/
theorem enterSession (hi : s.Inv) {x : SessionState} {h : HashWords} {buf : List Byte} {totlen : BitVec 64}
    (hx : SessionLegal x h buf totlen) :
    (State.setSession x { s with hash := h, buf := buf, totlen := totlen }).Inv := by
  obtain ⟨hmem, hres, horder, herr, -⟩ := inv_iff.1 hi
  exact inv_iff.2 ⟨hmem, hres.putField 4 _ (by decide), by simpa using ⟨horder, herr, hx⟩⟩

/-- A session that is not Done takes input, since Finalizing never holds between commands (R34). -/
theorem takesInput (hi : s.Inv) (hdone : s.session ≠ .done) : s.takesInput := by
  unfold State.takesInput
  cases h : s.session with
  | init => exact .inl rfl
  | absorbing => exact .inr rfl
  | finalizing => exact absurd h hi.notFinalizing
  | done => exact absurd h hdone

/-- Finishing a session whose BUF is not full (R184). -/
theorem finishSession (hi : s.Inv) (h : HashWords) {buf : List Byte} (totlen : BitVec 64) (hb : buf.length < 64) :
    (State.setSession .done (State.finishSession { s with hash := h, buf := buf, totlen := totlen })).Inv := by
  refine hi.enterSession (h := (pad ⟨h, buf⟩ totlen).h) (totlen := totlen) ?_
  show SessionLegal .done _ (pad ⟨h, buf⟩ totlen).buf _
  rw [pad_empty ⟨h, buf⟩ totlen hb]
  exact sessionLegal_done ..

/-- Reset keeps MEM_BYTES, and everything else that the invariant reads takes its reset value (R37, R240). -/
theorem resetBlock (hi : s.Inv) : s.resetBlock.Inv := by
  obtain ⟨-, hrest⟩ := inv_iff.1 inv_reset
  exact inv_iff.2 ⟨⟨hi.memSize, rfl, fun c hc => absurd hc List.not_mem_nil⟩, hrest⟩

theorem hostWrite (hi : s.Inv) (addr : BitVec 16) (byte : Byte) : (s.hostWrite addr byte).Inv := by
  unfold State.hostWrite
  obtain ⟨hmem, -⟩ := inv_iff.1 hi
  split
  next haddr => exact (hi.withMem (hmem.set haddr byte)).withUnread ..
  next => exact hi.withUnread ..

theorem hostRead (hi : s.Inv) (addr : BitVec 16) : (s.hostRead addr).Inv := by
  unfold State.hostRead
  split
  · exact hi.withUnread ..
  · exact hi.withUnread ..

end State.Inv

/-! ### Commands -/

/-- A result whose next state, if there is one, meets the invariant. -/
def EndsInInv (r : Result) : Prop := ∀ t, r = .next t → t.Inv

theorem endsInInv_next {s : State} (hi : s.Inv) : EndsInInv (.next s) := fun t ht => by
  cases ht
  exact hi

theorem endsInInv_succeed {s : State} (hi : s.Inv) : EndsInInv (succeed s) := endsInInv_next (hi.respond _)

theorem endsInInv_raiseError {s : State} (hi : s.Inv) {e : ErrorKind} (he : e ≠ .entropyUnavailable)
    (word : CmdWord) : EndsInInv (raiseError e word s) := endsInInv_next ((hi.capture he word).respond _)

theorem endsInInv_fail {s : State} (hi : s.Inv) {e : ErrorKind} (he : e ≠ .entropyUnavailable) (i : Instr) :
    EndsInInv (fail e i s) := endsInInv_raiseError hi he _

theorem endsInInv_modular {s : State} (hi : s.Inv) {i : Instr} {w : Width} {rd : Reg} {m result : Nat} :
    EndsInInv (modular i w rd m result s) := by
  rcases modular_cases i w rd m result s with ⟨-, h⟩ | ⟨-, h⟩
  · rw [h]
    exact endsInInv_fail hi (by decide) i
  · rw [h]
    exact endsInInv_succeed (hi.writeW ..)

/-- A check of a command: it fails with an error, or the command goes on (R217, R218). -/
theorem endsInInv_check {s : State} (hi : s.Inv) {applies : Prop} [Decidable applies] {e : ErrorKind} {i : Instr}
    {r : Result} (he : e ≠ .entropyUnavailable) (hr : ¬ applies → EndsInInv r) :
    EndsInInv (if applies then fail e i s else r) := by
  split
  next => exact endsInInv_fail hi he i
  next h => exact hr h

section
variable {s : State} (hi : s.Inv)
include hi

theorem execLd_endsInInv {w : Width} {e : ByteOrder} {rd : Reg} {addr len : BitVec 16} :
    EndsInInv (execLd w e rd addr len s) :=
  endsInInv_check hi (by decide) fun _ => endsInInv_check hi (by decide) fun _ => endsInInv_succeed (hi.writeW ..)

/-- ST writes only bytes that exist, by its two checks (R55, R93). -/
theorem execSt_endsInInv {w : Width} {e : ByteOrder} {ra : Reg} {addr len : BitVec 16} :
    EndsInInv (execSt w e ra addr len s) := by
  refine endsInInv_check hi (by decide) fun hlen => endsInInv_check hi (by decide) fun hrange => ?_
  have hbytes : len.toNat = w.bytes := by simpa [lengthMatches] using hlen
  have hfits : addr.toNat + len.toNat ≤ s.memBytes := by simpa [State.inRange] using hrange
  obtain ⟨hmem, -⟩ := inv_iff.1 hi
  exact endsInInv_succeed (hi.withMem (hmem.setBytes (by simpa [hbytes] using hfits)))

theorem execDivrem_endsInInv {w : Width} {rd ra rb rc : Reg} : EndsInInv (execDivrem w rd ra rb rc s) :=
  endsInInv_check hi (by decide) fun _ => endsInInv_check hi (by decide) fun _ =>
    endsInInv_succeed ((hi.writeW ..).writeW ..)

theorem execModinv_endsInInv {w : Width} {rd ra rc : Reg} : EndsInInv (execModinv w rd ra rc s) :=
  endsInInv_check hi (by decide) fun _ => endsInInv_check hi (by decide) fun _ => endsInInv_succeed (hi.writeW ..)

/-- SHAUPD absorbs only in a session that takes input, and only when TOTLEN does not overflow (R181, R182). -/
theorem execShaupd_endsInInv {addr len : BitVec 16} : EndsInInv (execShaupd addr len s) := by
  refine endsInInv_check hi (by decide) fun _ => endsInInv_check hi (by decide) fun hdone => ?_
  split
  next => exact fun t ht => by cases ht
  next hfit =>
    obtain ⟨-, -, -, -, hsession⟩ := inv_iff.1 hi
    have hlegal := SessionLegal.absorb (st := s.sponge) hsession (hi.takesInput hdone)
      (s.readBytes addr.toNat len.toNat) (by simpa [State.lengthOverflows] using hfit)
    rw [readBytes_length] at hlegal
    exact endsInInv_succeed (hi.enterSession hlegal)

theorem execShafin_endsInInv : EndsInInv (execShafin s) := by
  refine endsInInv_check hi (by decide) fun _ => ?_
  have hpass : (s.setSession .finalizing).finishSession.setSession .done = s.finishSession.setSession .done :=
    setSession_setSession .finalizing .done s.finishSession
  rw [hpass]
  exact endsInInv_succeed (hi.finishSession s.hash s.totlen (Nat.lt_succ_of_le hi.bufShort))

theorem execShadig_endsInInv {rd : Reg} : EndsInInv (execShadig rd s) := by
  unfold execShadig
  split
  · exact endsInInv_succeed (hi.writeDigest rd)
  · exact endsInInv_fail hi (by decide) _

theorem execSha256_endsInInv {rd : Reg} {addr len : BitVec 16} : EndsInInv (execSha256 rd addr len s) := by
  refine endsInInv_check hi (by decide) fun _ => ?_
  have hshort : (s.startSession.absorbMem addr len).buf.length < 64 := by
    rw [absorbMem_buf, absorb_length _ _ (by simp [State.sponge])]
    exact Nat.mod_lt _ (by decide)
  exact endsInInv_succeed ((hi.finishSession _ _ hshort).writeDigest rd)

/-- Every command keeps the invariant. -/
theorem exec_endsInInv (i : Instr) : EndsInInv (exec i s) := by
  cases i with
  | ldi => exact endsInInv_succeed (hi.setReg ..)
  | ld => exact execLd_endsInInv hi
  | st => exact execSt_endsInInv hi
  | add | sub => exact endsInInv_succeed ((hi.writeW ..).setC _)
  | cmp => exact endsInInv_succeed (hi.setCompare ..)
  | mul | and | or | xor | not | shl | shr => exact endsInInv_succeed (hi.writeW ..)
  | mulw => exact endsInInv_succeed (hi.writeWide ..)
  | divrem => exact execDivrem_endsInInv hi
  | modred | modadd | modsub | modmul | modpow => exact endsInInv_modular hi
  | modinv => exact execModinv_endsInInv hi
  | shainit => exact endsInInv_succeed (hi.enterSession sessionLegal_init)
  | shaupd => exact execShaupd_endsInInv hi
  | shafin => exact execShafin_endsInInv hi
  | shadig => exact execShadig_endsInInv hi
  | sha256 => exact execSha256_endsInInv hi
  | clrerr => exact endsInInv_succeed hi.clearError

/-! ### The step -/

/-- An issued word keeps the invariant, whether it decodes or not. -/
theorem issueWord_endsInInv (word : CmdWord) : EndsInInv (issueWord exec word s) := by
  unfold issueWord
  split
  next i _ => exact exec_endsInInv hi i
  next => exact endsInInv_raiseError hi (by decide) word

/-- Every move of the host keeps the invariant. -/
theorem performMove_endsInInv (move : HostMove) : EndsInInv (performMove exec move s) := by
  cases move with
  | issue word => exact issueWord_endsInInv hi word
  | abandon => exact endsInInv_next hi.resetBlock
  | memWrite addr byte => exact endsInInv_next (hi.hostWrite addr byte)
  | memRead addr => exact endsInInv_next (hi.hostRead addr)
  | readControl | observeErr => exact endsInInv_next (hi.withUnread ..)
  | reset => exact endsInInv_next hi.resetBlock

end

/-- Settles O11: the step is idle or one move of the host, and every move keeps the invariant, command by command. -/
theorem stepKeepsInvariant : Obligations.StepKeepsInvariant := by
  unfold Obligations.StepKeepsInvariant
  intro s t hi hstep
  rcases stepWith_cases exec s with ⟨-, hidle⟩ | ⟨move, rest, -, hmove⟩
  · exact endsInInv_next hi t (hidle.symm.trans hstep)
  · have hi' : State.Inv { s with host := rest } := hi.withUnread ..
    exact performMove_endsInInv hi' move t (hmove.symm.trans hstep)

end Sys2Proof.Machine
end

section
/-! What a command does, said once for all 27. A command first makes the checks of the matrix (R217, R218), and an error
of theirs is its whole effect (R215). A command that passes them makes the writes of `State.effect`, and answers OK;
only the SHAUPD of R182 is refused. Every frame below is a frame of `State.effect` and one of the taking of an error. -/

namespace Sys2Proof.Machine

/-! ### The writes of a command, and the equation of `exec` -/

/-- The writes of a command that succeeds, without its response (R58). -/
def State.effect (i : Instr) (s : State) : State :=
  match i with
  | .ldi rd imm => s.setReg rd (imm.setWidth 512)
  | .ld w e rd addr _ => s.writeW w rd (valueOfBytes e (s.readBytes addr.toNat w.bytes))
  | .st w e ra addr _ => s.writeBytes addr.toNat (bytesOfValue e w.bytes (s.src w ra))
  | .add w rd ra rb =>
    (s.writeW w rd (s.src w ra + s.src w rb)).setC (carryOut w (s.src w ra) (s.src w rb))
  | .sub w rd ra rb =>
    (s.writeW w rd (wrapInt w ((s.src w ra : Int) - (s.src w rb : Int)))).setC (borrowOut (s.src w ra) (s.src w rb))
  | .cmp w ra rb => s.setCompare (s.src w ra) (s.src w rb)
  | .mul w rd ra rb => s.writeW w rd (s.src w ra * s.src w rb)
  | .mulw w rd ra rb => s.writeWide w rd (s.src w ra * s.src w rb)
  | .divrem w rd ra rb rc =>
    (s.writeW w rd (s.src w ra / s.src w rb)).writeW w rc (s.src w ra - s.src w ra / s.src w rb * s.src w rb)
  | .and w rd ra rb => s.writeW w rd (s.src w ra &&& s.src w rb)
  | .or w rd ra rb => s.writeW w rd (s.src w ra ||| s.src w rb)
  | .xor w rd ra rb => s.writeW w rd (s.src w ra ^^^ s.src w rb)
  | .not w rd ra => s.writeW w rd (2 ^ w.bits - 1 - s.src w ra)
  | .shl w rd ra imm => s.writeW w rd (shiftLeft w (s.src w ra) imm.toNat)
  | .shr w rd ra imm => s.writeW w rd (shiftRight w (s.src w ra) imm.toNat)
  | .modred w rd ra rc => s.writeW w rd (s.src w ra % s.src w rc)
  | .modadd w rd ra rb rc => s.writeW w rd ((s.src w ra + s.src w rb) % s.src w rc)
  | .modsub w rd ra rb rc => s.writeW w rd (residue ((s.src w ra : Int) - (s.src w rb : Int)) (s.src w rc))
  | .modmul w rd ra rb rc => s.writeW w rd (s.src w ra * s.src w rb % s.src w rc)
  | .modpow w rd ra rb rc => s.writeW w rd (modPower w (s.src w ra) (s.src w rb) (s.src w rc))
  | .modinv w rd ra rc => s.writeW w rd (inverse w (s.src w ra) (s.src w rc))
  | .shainit => s.startSession.setSession .init
  | .shaupd addr len => (s.absorbMem addr len).setSession .absorbing
  | .shafin => (s.setSession .finalizing).finishSession.setSession .done
  | .shadig rd => s.writeDigest rd
  | .sha256 rd addr len => (((s.startSession.absorbMem addr len).finishSession).setSession .done).writeDigest rd
  | .clrerr => s.clearError

/-- How a command goes on once its checks have passed: the case of R182 is refused, every other one succeeds. -/
def afterChecks (i : Instr) (s : State) : Result :=
  match i with
  | .shaupd _ len => if s.lengthOverflows len then .refused .hashLengthOverflow else succeed (s.effect i)
  | _ => succeed (s.effect i)

/-- A list of checks selects the first error that applies, or what comes after the checks. -/
theorem firstOf_cons_elim {α : Type} (applies : Bool) (e : ErrorKind) (rest : List (Bool × ErrorKind)) (passed : α)
    (failed : ErrorKind → α) : (firstOf ((applies, e) :: rest)).elim passed failed =
      if applies then failed e else (firstOf rest).elim passed failed := by
  cases applies <;> rfl

/-- The range check of a command, as the matrix of R217 states it (R55). -/
theorem not_inRange (s : State) (addr len : BitVec 16) :
    (!s.inRange addr len) = decide (s.memBytes < addr.toNat + len.toNat) := by
  rw [State.inRange, ← decide_not, decide_eq_decide]
  exact Nat.not_le

/-- A command fails with the error of the matrix, or goes on as `afterChecks` says (R213, R217, R218). -/
theorem exec_eq (i : Instr) (s : State) :
    exec i s = (raises i s).elim (afterChecks i s) (fun e => fail e i s) := by
  cases i with
  | ldi | add | sub | cmp | mul | mulw | and | or | xor | not | shl | shr | shainit | clrerr => rfl
  | ld | st | sha256 =>
    simp only [raises, firstOf_cons_elim, ← not_inRange]
    rfl
  | divrem | modred | modadd | modsub | modmul | modpow | shafin =>
    simp only [raises, firstOf_cons_elim, beq_iff_eq]
    rfl
  | modinv w rd ra rc =>
    have hgcd : Nat.gcd (s.src w ra % s.src w rc) (s.src w rc) = Nat.gcd (s.src w ra) (s.src w rc) := by
      rw [← Nat.gcd_rec, Nat.gcd_comm]
    simp only [raises, firstOf_cons_elim, beq_iff_eq, bne_iff_ne, exec, execModinv, hgcd]
    rfl
  | shaupd =>
    simp only [raises, firstOf_cons_elim, ← not_inRange, beq_iff_eq]
    rfl
  | shadig =>
    simp only [raises, firstOf_cons_elim, bne_iff_ne, ite_not]
    rfl

/-- A command that raises an error fails with it. -/
theorem exec_of_raises {i : Instr} {s : State} {e : ErrorKind} (h : raises i s = some e) : exec i s = fail e i s := by
  rw [exec_eq, h]
  rfl

/-- A command that raises no error succeeds with its writes, but for the SHAUPD of R182. -/
theorem exec_of_raises_none {i : Instr} {s : State} (h : raises i s = none) (hfit : ¬ overflowsLength i s) :
    exec i s = succeed (s.effect i) := by
  rw [exec_eq, h]
  cases i with
  | shaupd addr len =>
    have hlen : ¬ s.lengthOverflows len = true := fun hle => hfit ⟨addr, len, rfl, h, of_decide_eq_true hle⟩
    exact if_neg hlen
  | _ => rfl

/-- The SHAUPD of R182 is refused. -/
theorem exec_of_overflowsLength {i : Instr} {s : State} (h : overflowsLength i s) :
    exec i s = .refused .hashLengthOverflow := by
  obtain ⟨addr, len, rfl, hnone, hle⟩ := h
  rw [exec_eq, hnone]
  exact if_pos (decide_eq_true hle)

/-- The two ways a command reaches a next state: the taking of its error, or its writes and the answer OK. -/
theorem exec_next_cases {i : Instr} {s t : State} (h : exec i s = .next t) :
    (∃ e, raises i s = some e ∧ t = (s.capture e (encode i)).respond e.code) ∨
      (raises i s = none ∧ t = (s.effect i).respond okCode) := by
  cases hr : raises i s with
  | some e =>
    rw [exec_of_raises hr] at h
    cases h
    exact .inl ⟨e, rfl, rfl⟩
  | none =>
    have hfit : ¬ overflowsLength i s := fun hover => by
      rw [exec_of_overflowsLength hover] at h
      cases h
    rw [exec_of_raises_none hr hfit] at h
    exact .inr ⟨rfl, succeed_next.1 h⟩

end Sys2Proof.Machine
end

section
/-! The frames over all commands (O18, O19, O20): what the writes of a command leave unchanged, and what the taking of an
error does. -/

namespace Sys2Proof.Machine

/-! ### What the writes of a command leave unchanged -/

/-- The writes of a command reach no register beyond its destinations (R25). -/
theorem effect_keepsRegsBut (i : Instr) (s : State) : KeepsRegsBut (destinations i) s (s.effect i) := by
  intro r hr
  cases i with
  | st | cmp | shainit | shaupd | shafin | clrerr => rfl
  | mulw w =>
    cases w with
    | w256 => exact setReg_reg_other _ _ _ _ (by simpa [destinations] using hr)
    | w512 =>
      obtain ⟨hlow, hhigh⟩ : r ≠ _ ∧ r ≠ _ := by simpa [destinations] using hr
      exact (setReg_reg_other _ _ _ _ hhigh).trans (setReg_reg_other _ _ _ _ hlow)
  | divrem =>
    obtain ⟨hquot, hrem⟩ : r ≠ _ ∧ r ≠ _ := by simpa [destinations] using hr
    exact (writeW_reg_other _ _ _ _ _ hrem).trans (writeW_reg_other _ _ _ _ _ hquot)
  | _ => exact setReg_reg_other _ _ _ _ (by simpa [destinations] using hr)

/-- The writes of a command reach only its own bits of STATUS (R29, R30). -/
theorem effect_keepsStatusBut (i : Instr) (s : State) : KeepsStatusBut (statusBits i) s (s.effect i) := by
  intro n hn
  cases i with
  | add | sub => exact setC_bit _ _ n (by simpa [statusBits, bitsC] using hn)
  | cmp => exact setOrder_bit _ _ _ s n (by simp [statusBits, bitsOrder] at hn; omega)
  | shainit | shaupd | sha256 => exact setSession_bit _ s n (by simp [statusBits, bitsSession] at hn; omega)
  | shafin =>
    rw [State.effect, setSession_bit, finishSession_status, setSession_bit]
    all_goals (simp [statusBits, bitsSession] at hn; omega)
  | clrerr => exact setErr_bit _ s n (by simp [statusBits, bitsErr] at hn; omega)
  | mulw w => cases w <;> rfl
  | _ => rfl

/-- The writes of a command that is none of the hash commands reach neither H nor BUF nor TOTLEN (R33). -/
theorem effect_keepsHash {i : Instr} (h : writesHash i = false) (s : State) : KeepsHash s (s.effect i) := by
  cases i with
  | shainit | shaupd | shafin | sha256 => cases h
  | mulw w => cases w <;> exact ⟨rfl, rfl, rfl⟩
  | _ => exact ⟨rfl, rfl, rfl⟩

/-- The writes of a command reach neither MEM_BYTES nor the model's own fields (R241). -/
theorem effect_keepsSize_keepsOwn (i : Instr) (s : State) : KeepsSize s (s.effect i) ∧ KeepsOwn s (s.effect i) := by
  cases i with
  | mulw w => cases w <;> exact ⟨rfl, rfl, rfl, rfl⟩
  | _ => exact ⟨rfl, rfl, rfl, rfl⟩

/-- The writes of a command reach no byte of MEM but the W/8 bytes of an ST (R35, R93). -/
theorem effect_readByte {i : Instr} {a : Nat}
    (h : ∀ w e ra addr len, i = .st w e ra addr len → ¬ (addr.toNat ≤ a ∧ a < addr.toNat + w.bytes)) (s : State) :
    (s.effect i).readByte a = s.readByte a := by
  cases i with
  | st w e ra addr len => exact writeBytes_readByte_outside s _ _ a (by simpa using h w e ra addr len rfl)
  | mulw w => cases w <;> rfl
  | _ => rfl

/-- What the taking of an error leaves behind (R213, R215, R216). -/
theorem failsWith_capture (e : ErrorKind) (word : CmdWord) (s : State) :
    FailsWith e word s ((s.capture e word).respond e.code) := by
  obtain ⟨t, ht, hfails⟩ := raiseError_spec e word s
  cases ht
  exact hfails

/-! ### The frames of a command -/

/-- A command changes no byte of MEM but the W/8 bytes of an ST, whether it succeeds or fails. -/
theorem exec_readByte {i : Instr} {s t : State} (hexec : exec i s = .next t) {a : Nat}
    (h : ∀ w e ra addr len, i = .st w e ra addr len → ¬ (addr.toNat ≤ a ∧ a < addr.toNat + w.bytes)) :
    t.readByte a = s.readByte a := by
  rcases exec_next_cases hexec with ⟨e, -, rfl⟩ | ⟨-, rfl⟩
  · obtain ⟨-, -, -, -, hmem, -⟩ := failsWith_capture e (encode i) s
    exact hmem a
  · exact effect_readByte h s

/-- Settles O18: a failing command writes no register, a succeeding one writes what `State.effect` says. -/
theorem commandsWriteOnlyTheirDestinations : Obligations.CommandsWriteOnlyTheirDestinations := by
  unfold Obligations.CommandsWriteOnlyTheirDestinations
  intro i s t h
  rcases exec_next_cases h with ⟨e, -, rfl⟩ | ⟨-, rfl⟩
  · intro r _
    exact reg_of_regs (capture_regs e (encode i) s) r
  · exact effect_keepsRegsBut i s

/-- Settles O19: success makes the writes of `State.effect`, failure the first-error capture. -/
theorem commandsWriteOnlyTheirStatusBits : Obligations.CommandsWriteOnlyTheirStatusBits := by
  unfold Obligations.CommandsWriteOnlyTheirStatusBits
  intro i s t h
  rcases exec_next_cases h with ⟨e, hr, rfl⟩ | ⟨hr, rfl⟩
  · exact ⟨fun hnone => absurd (hr.symm.trans hnone) (Option.some_ne_none e),
      fun _ n hn => capture_bit e (encode i) s n hn⟩
  · exact ⟨fun _ => effect_keepsStatusBut i s, fun hsome => absurd hr hsome⟩

/-- Settles O20: the frame of `State.effect` and that of the first-error capture, with MEM byte by byte. -/
theorem commandsWriteMemAndSessionOnlyAsNamed : Obligations.CommandsWriteMemAndSessionOnlyAsNamed := by
  unfold Obligations.CommandsWriteMemAndSessionOnlyAsNamed
  intro i s t h
  have hframe : (writesHash i = false → KeepsHash s t) ∧ KeepsSize s t ∧ KeepsOwn s t := by
    rcases exec_next_cases h with ⟨e, -, rfl⟩ | ⟨-, rfl⟩
    · obtain ⟨-, -, -, hhash, -, hsize, -⟩ := failsWith_capture e (encode i) s
      exact ⟨fun _ => hhash, hsize, capture_host .., capture_resets .., capture_draws ..⟩
    · obtain ⟨hsize, hown⟩ := effect_keepsSize_keepsOwn i s
      exact ⟨fun hw => effect_keepsHash hw s, hsize, hown⟩
  obtain ⟨hhash, hsize, hown⟩ := hframe
  refine ⟨hhash, hsize, hown, ?_⟩
  cases i with
  | st w e ra addr len =>
    intro a ha
    refine exec_readByte h fun _ _ _ _ _ heq => ?_
    cases heq
    exact ha
  | _ => exact fun a => exec_readByte h fun _ _ _ _ _ heq => nomatch heq

end Sys2Proof.Machine
end

section
/-! The channels of the host and reset (O7, O9, O10, O12). -/

namespace Sys2Proof.Machine

/-- The step of a block whose host moves next is that move, taken. -/
theorem step_of_host {s : State} {move : HostMove} {rest : List HostMove} (h : s.host = move :: rest) :
    step s = performMove exec move { s with host := rest } := by
  rw [step, stepWith, State.nextMove, h]

/-! ### Reset -/

/-- Reset clears every register (R37). -/
@[simp] theorem resetBlock_reg (s : State) (r : Reg) : s.resetBlock.reg r = 0#512 := by
  simp [State.reg, State.resetBlock, State.reset]

/-- Settles O7: the two moves of reset have the same effect, that of `State.resetBlock`. -/
theorem resetGivesResetValues : Obligations.ResetGivesResetValues := by
  unfold Obligations.ResetGivesResetValues
  intro s word rest h
  have hstep : step s = .next (State.resetBlock { s with host := rest }) := by
    rcases h with h | h
    · exact step_of_host h
    · exact step_of_host h
  exact ⟨_, hstep, resetBlock_reg _, rfl, rfl, rfl, rfl, rfl, fun _ => rfl, rfl, rfl, rfl⟩

/-- Settles O10, which the proof that every step keeps the invariant starts from. -/
theorem resetStateMeetsInvariant : Obligations.ResetStateMeetsInvariant := by
  unfold Obligations.ResetStateMeetsInvariant
  exact inv_reset

/-! ### The control registers and `err_o` -/

/-- Control register 0 reads as STATUS, zero-extended (R32). -/
theorem controlValue_zero_toNat (s : State) : (s.controlValue 0).toNat = s.status.toNat := by
  rw [State.controlValue, if_pos rfl, BitVec.toNat_setWidth]
  omega

/-- Control register 1 reads as ERRCMD (R32). -/
@[simp] theorem controlValue_one (s : State) : s.controlValue 1 = s.errcmd := rfl

/-- Any other number reads as 0 (R32). -/
theorem controlValue_of_two_le (s : State) {number : Nat} (h : 2 ≤ number) : s.controlValue number = 0#64 := by
  rw [State.controlValue, if_neg (by omega), if_neg (by omega)]

/-- `err_o` is ERR ≠ 0 (R220). -/
theorem errOut_iff (s : State) : s.errOut = true ↔ s.err ≠ 0#4 := bne_iff_ne

/-- Settles O9: each of the two reads writes only the host's list and the answer. -/
theorem hostReadsControlRegisters : Obligations.HostReadsControlRegisters := by
  unfold Obligations.HostReadsControlRegisters
  constructor
  · intro s number rest h
    refine ⟨_, s.controlValue number, step_of_host h, rfl, ⟨rfl, rfl, rfl, ⟨rfl, rfl, rfl⟩, rfl, rfl⟩, fun _ => rfl, rfl,
      ?_, ?_, controlValue_of_two_le s⟩
    · rintro rfl
      exact controlValue_zero_toNat s
    · rintro rfl
      exact controlValue_one s
  · intro s rest h
    exact ⟨_, s.errOut, step_of_host h, rfl, ⟨rfl, rfl, rfl, ⟨rfl, rfl, rfl⟩, rfl, rfl⟩, fun _ => rfl, rfl, errOut_iff s⟩

/-! ### MEM over a step -/

/-- A host write changes no byte but the one at its address (R64). -/
theorem hostWrite_readByte_of_ne (s : State) (addr : BitVec 16) (byte : Byte) {a : Nat} (h : a ≠ addr.toNat) :
    (s.hostWrite addr byte).readByte a = s.readByte a := by
  unfold State.hostWrite
  split
  · simp [State.readByte, get?_set, h]
  · rfl

/-- A host read changes no byte of MEM (R64). -/
@[simp] theorem hostRead_readByte (s : State) (addr : BitVec 16) (a : Nat) :
    (s.hostRead addr).readByte a = s.readByte a := by
  unfold State.hostRead
  split <;> rfl

/-- A word the block takes changes a byte of MEM only if it is an ST that covers it (R35). -/
theorem issueWord_changes_readByte {word : CmdWord} {s t : State} (h : issueWord exec word s = .next t) {a : Nat}
    (hne : t.readByte a ≠ s.readByte a) : ∃ w e ra addr len, decode word = .ok (.st w e ra addr len) ∧
      addr.toNat ≤ a ∧ a < addr.toNat + w.bytes := by
  unfold issueWord at h
  split at h
  next i hdecode =>
    by_contra hnone
    refine hne (exec_readByte h fun w e ra addr len hst hcovers => hnone ⟨w, e, ra, addr, len, ?_, hcovers⟩)
    rw [hdecode, hst]
  next =>
    cases h
    obtain ⟨-, -, -, -, hmem, -⟩ := failsWith_capture .illegalCommand word s
    exact absurd (hmem a) hne

/-- Settles O12: each move of the host in turn, the issued words by the frame of the commands. -/
theorem memChangesOnlyByStoreHostOrReset : Obligations.MemChangesOnlyByStoreHostOrReset := by
  unfold Obligations.MemChangesOnlyByStoreHostOrReset
  intro s t a hstep hne
  rcases stepWith_cases exec s with ⟨-, hidle⟩ | ⟨move, rest, hhost, hmove⟩
  · cases hidle.symm.trans hstep
    exact absurd rfl hne
  have hperform : performMove exec move { s with host := rest } = .next t := hmove.symm.trans hstep
  cases move with
  | issue word =>
    obtain ⟨w, e, ra, addr, len, hst, hcovers⟩ := issueWord_changes_readByte hperform hne
    exact .inl ⟨word, rest, w, e, ra, addr, len, hhost, hst, hcovers⟩
  | memWrite addr byte =>
    refine .inr (.inl ⟨addr, byte, rest, hhost, ?_⟩)
    by_contra haddr
    cases hperform
    exact hne (hostWrite_readByte_of_ne _ addr byte haddr)
  | memRead addr =>
    cases hperform
    exact absurd (hostRead_readByte _ addr a) hne
  | readControl | observeErr =>
    cases hperform
    exact absurd rfl hne
  | reset => exact .inr (.inr (.inl ⟨rest, hhost⟩))
  | abandon word => exact .inr (.inr (.inr ⟨word, rest, hhost⟩))

end Sys2Proof.Machine
end

section
/-! At W = 256 the upper halves of the registers do not matter (O21): two states that differ in registers alone, and whose
low halves agree, go through the same checks and the same writes. -/

namespace Sys2Proof.Machine

/-! ### The errors of a command depend on little -/

/-- The error of a command depends only on MEM_BYTES, SST and the sources it reads at its width (R219). -/
theorem raises_congr {i : Instr} {s s' : State} (hsize : s'.memBytes = s.memBytes) (hsession : s'.session = s.session)
    (hsrc : ∀ w, widthOf i = some w → ∀ r ∈ sources i, s'.src w r = s.src w r) : raises i s' = raises i s := by
  cases i with
  | ldi | add | sub | cmp | mul | mulw | and | or | xor | not | shl | shr | shainit | clrerr => rfl
  | ld | st | sha256 => simp only [raises, hsize]
  | shaupd | shafin | shadig => simp only [raises, hsize, hsession]
  | divrem w rd ra rb => simp only [raises, hsrc w rfl rb (by simp [sources])]
  | modred w rd ra rc | modadd w rd ra rb rc | modsub w rd ra rb rc | modmul w rd ra rb rc | modpow w rd ra rb rc =>
    simp only [raises, hsrc w rfl rc (by simp [sources])]
  | modinv w rd ra rc =>
    simp only [raises, hsrc w rfl ra (by simp [sources]), hsrc w rfl rc (by simp [sources])]

/-- A command that has a width is not the SHAUPD of R182. -/
theorem not_overflowsLength_of_widthOf {i : Instr} {w : Width} (hw : widthOf i = some w) (s : State) :
    ¬ overflowsLength i s := by
  rintro ⟨addr, len, rfl, -⟩
  cases hw

/-! ### States that differ in registers alone -/

/-- The two states differ in no field but the registers, and agree on the listed ones. -/
def DifferInOtherRegs (same : List Reg) (u u' : State) : Prop :=
  u' = { u with regs := u'.regs } ∧ ∀ r ∈ same, u'.reg r = u.reg r

namespace DifferInOtherRegs

variable {same : List Reg} {u u' : State}

/-- One write of both states, of the same value to the same register. -/
theorem setReg (h : DifferInOtherRegs same u u') (r : Reg) (v : RegVal) :
    DifferInOtherRegs (r :: same) (u.setReg r v) (u'.setReg r v) := by
  obtain ⟨hfields, hsame⟩ := h
  refine ⟨congrArg (State.setReg r v) hfields, fun x hx => ?_⟩
  by_cases hxr : x = r
  · rw [hxr, setReg_reg_same, setReg_reg_same]
  · rw [setReg_reg_other _ _ _ _ hxr, setReg_reg_other _ _ _ _ hxr]
    exact hsame x (List.mem_of_ne_of_mem hxr hx)

theorem writeW (h : DifferInOtherRegs same u u') (w : Width) (r : Reg) (v : Nat) :
    DifferInOtherRegs (r :: same) (u.writeW w r v) (u'.writeW w r v) := h.setReg r _

/-- One change of both states that neither reads nor writes a register. -/
theorem map (h : DifferInOtherRegs same u u') {f : State → State}
    (hf : ∀ (x : State) (regs : Vector RegVal 16), f { x with regs := regs } = { f x with regs := regs }) :
    DifferInOtherRegs same (f u) (f u') := by
  obtain ⟨hfields, hsame⟩ := h
  have hregs (x : State) : (f x).regs = x.regs := (congrArg State.regs (hf x x.regs) :)
  refine ⟨?_, fun r hr => ?_⟩
  · rw [hregs u', ← hf, ← hfields]
  · rw [reg_of_regs (hregs u'), reg_of_regs (hregs u)]
    exact hsame r hr

/-- The order in which registers are listed does not matter. -/
theorem mono (h : DifferInOtherRegs same u u') {fewer : List Reg} (hsub : fewer ⊆ same) :
    DifferInOtherRegs fewer u u' := by
  obtain ⟨hfields, hsame⟩ := h
  exact ⟨hfields, fun r hr => hsame r (hsub hr)⟩

/-- MEM reads the same in both states. -/
theorem readBytes (h : DifferInOtherRegs same u u') (a n : Nat) : u'.readBytes a n = u.readBytes a n := by
  obtain ⟨hfields, -⟩ := h
  exact readBytes_of_mem (by rw [hfields]) (by rw [hfields]) a n

/-- Taking an error reads ERR alone (R216). -/
theorem capture (h : DifferInOtherRegs same u u') (e : ErrorKind) (word : CmdWord) :
    DifferInOtherRegs same (u.capture e word) (u'.capture e word) := by
  refine h.map fun x regs => ?_
  have herr : State.err { x with regs := regs } = x.err := rfl
  rw [State.capture, State.capture, herr]
  split <;> rfl

end DifferInOtherRegs

/-- The writes of a command at W = 256 in two states whose registers have equal low halves. -/
theorem effect_differInOtherRegs {i : Instr} {s s' : State} (hw : widthOf i = some .w256)
    (h : DifferInOtherRegs [] s s') (hsrc : ∀ r, s'.src .w256 r = s.src .w256 r) :
    DifferInOtherRegs (destinations i) (s.effect i) (s'.effect i) := by
  cases i with
  | ldi | shainit | shaupd | shafin | shadig | sha256 | clrerr => cases hw
  | ld =>
    cases hw
    simp only [State.effect, h.readBytes]
    exact h.writeW ..
  | st | cmp =>
    cases hw
    simp only [State.effect, hsrc]
    exact h.map fun _ _ => rfl
  | add | sub =>
    cases hw
    simp only [State.effect, hsrc]
    exact (h.writeW ..).map fun _ _ => rfl
  | divrem =>
    cases hw
    simp only [State.effect, hsrc]
    exact ((h.writeW ..).writeW ..).mono (by simp [destinations])
  | _ =>
    cases hw
    simp only [State.effect, hsrc]
    exact h.setReg ..

/-- Settles O21: the same checks, then the taking of the same error or the same writes. -/
theorem upperHalvesIgnoredAt256 : Obligations.UpperHalvesIgnoredAt256 := by
  unfold Obligations.UpperHalvesIgnoredAt256
  intro i s s' t hw hfields hsrc hexec
  have hstart : DifferInOtherRegs [] s s' := ⟨hfields, fun r hr => absurd hr List.not_mem_nil⟩
  have hraises : raises i s' = raises i s := by
    refine raises_congr (by rw [hfields]) (by rw [hfields]; rfl) fun w hw' r _ => ?_
    cases hw.symm.trans hw'
    exact hsrc r
  rcases exec_next_cases hexec with ⟨e, hr, rfl⟩ | ⟨hr, rfl⟩
  · obtain ⟨hother, -⟩ := (hstart.capture e (encode i)).map (f := State.respond e.code) fun _ _ => rfl
    refine ⟨_, exec_of_raises (hraises.trans hr), hother, fun hnone => ?_⟩
    cases hr.symm.trans hnone
  · obtain ⟨hother, hdest⟩ := (effect_differInOtherRegs hw hstart hsrc).map (f := State.respond okCode) fun _ _ => rfl
    exact ⟨_, exec_of_raises_none (hraises.trans hr) (not_overflowsLength_of_widthOf hw s'), hother, fun _ => hdest⟩

end Sys2Proof.Machine
end

section
/-! The host's accesses to MEM (O8), and the step that runs an issued command (O5). -/

namespace Sys2Proof.Machine

/-! ### Host writes of MEM -/

/-- A host write changes neither the block outside MEM nor the host's list (R64). -/
theorem hostWrite_frame (s : State) (addr : BitVec 16) (byte : Byte) :
    KeepsBlockButMem s (s.hostWrite addr byte) ∧ (s.hostWrite addr byte).host = s.host := by
  unfold State.hostWrite
  split <;> exact ⟨⟨rfl, rfl, rfl, ⟨rfl, rfl, rfl⟩, rfl, rfl⟩, rfl⟩

/-- Below MEM_BYTES the byte the host wrote is read back (R64). -/
theorem hostWrite_readByte_same (s : State) {addr : BitVec 16} (haddr : addr.toNat < s.memBytes) (byte : Byte) :
    (s.hostWrite addr byte).readByte addr.toNat = byte := by
  simp [State.hostWrite, State.readByte, haddr, get?_set]

/-- At or above MEM_BYTES a host write changes no byte of MEM (R64, U4). -/
theorem hostWrite_keepsMem_of_le (s : State) {addr : BitVec 16} (haddr : s.memBytes ≤ addr.toNat) (byte : Byte) :
    KeepsMem s (s.hostWrite addr byte) := by
  rw [State.hostWrite, if_neg (Nat.not_lt.2 haddr)]
  exact fun _ => rfl

/-! ### Host reads of MEM -/

/-- A host read changes neither the block outside MEM nor the host's list (R64). -/
theorem hostRead_frame (s : State) (addr : BitVec 16) :
    KeepsBlockButMem s (s.hostRead addr) ∧ (s.hostRead addr).host = s.host := by
  unfold State.hostRead
  split <;> exact ⟨⟨rfl, rfl, rfl, ⟨rfl, rfl, rfl⟩, rfl, rfl⟩, rfl⟩

/-- Below MEM_BYTES a host read returns the byte at its address (R64). -/
theorem hostRead_answer_of_lt (s : State) {addr : BitVec 16} (haddr : addr.toNat < s.memBytes) :
    (s.hostRead addr).answer = some (.memByte (s.readByte addr.toNat)) := by
  rw [State.hostRead, if_pos haddr]

/-- At or above MEM_BYTES a host read returns the next free value (R64, U4). -/
theorem hostRead_answer_of_le (s : State) {addr : BitVec 16} (haddr : s.memBytes ≤ addr.toNat) :
    (s.hostRead addr).answer = some (.memByte (Config.outOfRangeByte s.draws)) := by
  rw [State.hostRead, if_neg (Nat.not_lt.2 haddr)]

/-- Settles O8: the two moves in turn, each by its frame and by what it does on the two sides of MEM_BYTES. -/
theorem hostAccessesBytesOfMem : Obligations.HostAccessesBytesOfMem := by
  unfold Obligations.HostAccessesBytesOfMem
  constructor
  · intro s addr byte rest h
    obtain ⟨hblock, hhost⟩ := hostWrite_frame { s with host := rest } addr byte
    refine ⟨_, step_of_host h, hhost, hblock, fun haddr => ⟨?_, fun a ha => ?_⟩, fun haddr => ?_⟩
    · exact hostWrite_readByte_same { s with host := rest } haddr byte
    · exact hostWrite_readByte_of_ne { s with host := rest } addr byte (by omega)
    · exact hostWrite_keepsMem_of_le { s with host := rest } haddr byte
  · intro s addr rest h
    obtain ⟨hblock, hhost⟩ := hostRead_frame { s with host := rest } addr
    refine ⟨_, step_of_host h, hhost, hblock, fun a => ?_, fun haddr => ?_, fun haddr => ?_⟩
    · exact hostRead_readByte { s with host := rest } addr a
    · exact hostRead_answer_of_lt { s with host := rest } haddr
    · exact ⟨_, hostRead_answer_of_le { s with host := rest } haddr⟩

/-! ### Issued commands -/

/-- The block runs the command that a word it takes decodes to (R79). -/
theorem issueWord_of_decode {word : CmdWord} {i : Instr} (hdecode : decode word = .ok i) (run : Instr → State → Result)
    (s : State) : issueWord run word s = run i s := by
  rw [issueWord, hdecode]

/-- Settles O5: the step is the issue of the word, and the word decodes to the command. -/
theorem stepRunsIssuedCommand : Obligations.StepRunsIssuedCommand := by
  unfold Obligations.StepRunsIssuedCommand
  intro s word rest i hhost hdecode
  calc step s = issueWord exec word { s with host := rest } := step_of_host hhost
    _ = exec i { s with host := rest } := issueWord_of_decode hdecode ..

end Sys2Proof.Machine
end

section
/-! The round trip of the decoder and the encoder (O1, O2), and the table of R75 as the measure of both (O3). Every row
fixes the opcode and the field `zero`; a word that matches a row decodes by it and has the row's bits in every field that
the format does not use. -/

namespace Sys2Proof

/-! ### What a matched row fixes (R75, R77) -/

/-- Every mask covers the opcode and the field `zero`, and every pattern has 0 in the latter. -/
theorem opRows_fix_opcode_and_zero : ∀ row ∈ opRows, row.mask.extractLsb' 56 8 = BitVec.allOnes 8 ∧
    row.mask.extractLsb' 48 6 = BitVec.allOnes 6 ∧ row.pattern.extractLsb' 48 6 = 0#6 := by decide

/-- A field that lies wholly under the mask holds what the pattern holds there. -/
theorem pattern_field_eq {c mask pattern : CmdWord} (h : c &&& mask = pattern) {lo n : Nat} {v : BitVec n}
    (hfield : mask.extractLsb' lo n = BitVec.allOnes n ∧ pattern.extractLsb' lo n = v) : v = c.extractLsb' lo n := by
  obtain ⟨hmask, rfl⟩ := hfield
  rw [← h, BitVec.extractLsb'_and, hmask, BitVec.and_allOnes]

/-! ### The row of a word -/

/-- Each row is found by its own opcode: no two rows share one. -/
theorem rowOfOpcode_pattern : ∀ row ∈ opRows, rowOfOpcode (row.pattern.extractLsb' 56 8) = some row := by decide

theorem mem_of_rowOfOpcode {code : BitVec 8} {row : OpRow} (h : rowOfOpcode code = some row) : row ∈ opRows :=
  List.mem_of_find?_eq_some h

/-- The opcode of a word selects the row it matches, which is therefore the only one (R75, R79). -/
theorem rowOfOpcode_of_matches {row : OpRow} (hrow : row ∈ opRows) {c : CmdWord} (h : c &&& row.mask = row.pattern) :
    rowOfOpcode c.opcode = some row := by
  obtain ⟨hmask, -⟩ := opRows_fix_opcode_and_zero row hrow
  have hopcode : row.pattern.extractLsb' 56 8 = c.opcode := pattern_field_eq h ⟨hmask, rfl⟩
  rw [← hopcode, rowOfOpcode_pattern row hrow]

/-- DIVREM is the one command whose operands can fail to make a command (R78, R125). -/
theorem wellFormed_operands (op : Op) (c : CmdWord) :
    (op.operands c).wellFormed = true ↔ (op = .DIVREM → c.rd ≠ c.rc) := by
  cases op with
  | DIVREM => simp [Op.operands, Instr.wellFormed]
  | _ => exact ⟨fun _ h => (nomatch h), fun _ => rfl⟩

/-- Decoding, said by the table of R75. -/
theorem decode_eq_ok_iff {c : CmdWord} {i : Instr} : decode c = .ok i ↔
    ∃ row ∈ opRows, c &&& row.mask = row.pattern ∧ (row.op = .DIVREM → c.rd ≠ c.rc) ∧ i = row.op.operands c := by
  constructor
  · intro h
    unfold decode at h
    split at h
    · cases h
    · next row hrow =>
      split_ifs at h with hmatch hwf
      cases h
      exact ⟨row, mem_of_rowOfOpcode hrow, eq_of_beq hmatch, (wellFormed_operands _ _).1 hwf, rfl⟩
  · rintro ⟨row, hrow, hmatch, hdivrem, rfl⟩
    have hwf := (wellFormed_operands row.op c).2 hdivrem
    simp [decode, rowOfOpcode_of_matches hrow hmatch, OpRow.matchesWord, hmatch, hwf]

/-! ### Decoding an encoded command -/

/-- The mnemonic of a command, whose row of R75 has its opcode. -/
def Instr.op : Instr → Op
  | .ldi .. => .LDI
  | .ld .. => .LD
  | .st .. => .ST
  | .add .. => .ADD
  | .sub .. => .SUB
  | .cmp .. => .CMP
  | .mul .. => .MUL
  | .mulw .. => .MULW
  | .divrem .. => .DIVREM
  | .and .. => .AND
  | .or .. => .OR
  | .xor .. => .XOR
  | .not .. => .NOT
  | .shl .. => .SHL
  | .shr .. => .SHR
  | .modred .. => .MODRED
  | .modadd .. => .MODADD
  | .modsub .. => .MODSUB
  | .modmul .. => .MODMUL
  | .modpow .. => .MODPOW
  | .modinv .. => .MODINV
  | .shainit => .SHAINIT
  | .shaupd .. => .SHAUPD
  | .shafin => .SHAFIN
  | .shadig .. => .SHADIG
  | .sha256 .. => .SHA256
  | .clrerr => .CLRERR

theorem rowOfOpcode_encode_op (i : Instr) : (rowOfOpcode (encode i).opcode).map OpRow.op = some i.op := by
  cases i <;> rw [encode, assemble_opcode] <;> rfl

/-- Each field that a format uses is read back from where the encoder put it (R71, R76). -/
theorem operands_encode (i : Instr) : i.op.operands (encode i) = i := by
  cases i <;> simp [Instr.op, Op.operands, encode]

/-- The laws of the 27 commands as one. -/
theorem encodeShape (i : Instr) : Laws.EncodeShape.Statement i :=
  open Laws.EncodeShape in
  Instr.casesOn (motive := Statement) i ldi ld st add sub cmp mul mulw divrem and or xor not shl shr modred modadd modsub
    modmul modpow modinv shainit shaupd shafin shadig sha256 clrerr

/-- The encoding of a command matches its own row of the table (R75). -/
theorem exists_row_of_encode (i : Instr) :
    ∃ row ∈ opRows, encode i &&& row.mask = row.pattern ∧ row.op = i.op := by
  obtain ⟨row, hrow, hmatch⟩ := encodeShape i
  have hop := rowOfOpcode_encode_op i
  rw [hrow] at hop
  exact ⟨row, mem_of_rowOfOpcode hrow, eq_of_beq hmatch, Option.some.inj hop⟩

/-- Settles O1: the encoding matches the row of the command's mnemonic, and its fields are the operands. -/
theorem decodeOfEncode : Obligations.DecodeOfEncode := by
  unfold Obligations.DecodeOfEncode
  intro i hwf
  obtain ⟨row, hrow, hmatch, hop⟩ := exists_row_of_encode i
  have hoperands : row.op.operands (encode i) = i := by rw [hop, operands_encode]
  refine decode_eq_ok_iff.2 ⟨row, hrow, hmatch, (wellFormed_operands _ _).1 ?_, hoperands.symm⟩
  rw [hoperands, hwf]

/-! ### Encoding a decoded word -/

theorem extractLsb'_one_eq_ofBool (c : CmdWord) (k : Nat) : c.extractLsb' k 1 = BitVec.ofBool (c.getLsbD k) := by
  apply BitVec.eq_of_getLsbD_eq
  intro n hn
  obtain rfl : n = 0 := by omega
  simp

/-- The bit `w` of the width a word has is the word's bit 55 (R72). -/
theorem width_bit (c : CmdWord) : c.width.bit = c.extractLsb' 55 1 := by
  rw [extractLsb'_one_eq_ofBool, CmdWord.width]
  cases c.getLsbD 55 <;> rfl

/-- The bit `e` of the byte order a word has is the word's bit 54 (R71). -/
theorem order_bit (c : CmdWord) : c.order.bit = c.extractLsb' 54 1 := by
  rw [extractLsb'_one_eq_ofBool, CmdWord.order]
  cases c.getLsbD 54 <;> rfl

/-- A memory operand fills the field `imm` (R73). -/
theorem len_append_addr (c : CmdWord) : c.len ++ c.addr = c.imm :=
  BitVec.extractLsb'_append_extractLsb'_eq_extractLsb' rfl

/-- A word that matches a row is the encoding of its operands by that row: each field that the format uses is the word's
own, and each other one lies under the mask (R77). -/
theorem encode_operands {row : OpRow} (hrow : row ∈ opRows) {c : CmdWord} (h : c &&& row.mask = row.pattern) :
    encode (row.op.operands c) = c := by
  have hzero : 0#6 = c.extractLsb' 48 6 := pattern_field_eq h (opRows_fix_opcode_and_zero row hrow).2
  refine Eq.trans ?_ (assemble_fields c hzero.symm)
  fin_cases hrow
  all_goals
    simp only [Op.operands, encode, len_append_addr, width_bit, order_bit]
    congr 1
  all_goals exact pattern_field_eq h (by decide)

/-- Settles O2: the word matches a row, and the encoder fills the row's fields with those of the word. -/
theorem encodeOfDecode : Obligations.EncodeOfDecode := by
  unfold Obligations.EncodeOfDecode
  intro c i h
  obtain ⟨row, hrow, hmatch, hdivrem, rfl⟩ := decode_eq_ok_iff.1 h
  exact ⟨encode_operands hrow hmatch, (wellFormed_operands _ _).2 hdivrem⟩

/-- Settles O3: decoding goes by the row that the opcode selects, and there is one such row at most. -/
theorem decodesExactlyByTable : Obligations.DecodesExactlyByTable := by
  unfold Obligations.DecodesExactlyByTable
  refine ⟨fun c i => decode_eq_ok_iff, fun c r hr r' hr' h h' => ?_⟩
  have hsame : some r = some r' := (rowOfOpcode_of_matches hr h).symm.trans (rowOfOpcode_of_matches hr' h')
  exact Option.some.inj hsame

/-- Settles O4, word by word and line by line. -/
theorem specWordsDecode : Obligations.SpecWordsDecode := by
  unfold Obligations.SpecWordsDecode
  decide +kernel

end Sys2Proof
end

section
/-! The pseudo-instructions (O60), by the one statement of how a command completes that writes registers and flags only. -/

namespace Sys2Proof.Machine

/-! ### Commands that write registers and flags only -/

/-- The commands that write nothing but registers and C, LT, EQ, GT: all but ST, CLRERR and those that write the session
(R25, R29). -/
def writesOnlyRegsAndFlags : Instr → Bool
  | .st .. | .shainit | .shaupd .. | .shafin | .sha256 .. | .clrerr => false
  | _ => true

/-- Of the commands, CLRERR alone writes ERRCMD when it succeeds (R31, R200). -/
theorem effect_errcmd {i : Instr} (h : i ≠ .clrerr) (s : State) : (s.effect i).errcmd = s.errcmd := by
  cases i with
  | clrerr => exact absurd rfl h
  | mulw w => cases w <;> rfl
  | _ => rfl

/-- A command of that kind that raises no error answers OK and changes no more than its registers and flags. -/
theorem exec_completes {i : Instr} (h : writesOnlyRegsAndFlags i = true) {s : State} (hr : raises i s = none) :
    exec i s = .next ((s.effect i).respond okCode) ∧
      Completes (destinations i) (statusBits i) s ((s.effect i).respond okCode) := by
  have hhash : writesHash i = false := by
    cases i with
    | shainit | shaupd | shafin | sha256 => cases h
    | _ => rfl
  have hfit : ¬ overflowsLength i s := by
    rintro ⟨addr, len, rfl, -⟩
    cases h
  have herrcmd : KeepsErrcmd s (s.effect i) := effect_errcmd (by rintro rfl; cases h) s
  have hmem : KeepsMem s (s.effect i) := fun a => effect_readByte (by rintro _ _ _ _ _ rfl; cases h) s
  obtain ⟨hsize, -⟩ := effect_keepsSize_keepsOwn i s
  exact ⟨exec_of_raises_none hr hfit, rfl, effect_keepsRegsBut i s, effect_keepsStatusBut i s, herrcmd,
    effect_keepsHash hhash s, hmem, hsize⟩

/-! ### The value a width leaves (R24) -/

theorem toNat_ofNat_mod {m n : Nat} (h : m ≤ n) (v : Nat) : (BitVec.ofNat n (v % 2 ^ m)).toNat = v % 2 ^ m := by
  have hlt : v % 2 ^ m < 2 ^ m := Nat.mod_lt _ (Nat.two_pow_pos m)
  rw [BitVec.toNat_ofNat, Nat.mod_eq_of_lt (hlt.trans_le (Nat.pow_le_pow_right Nat.two_pos h))]

/-- A result written at a width is the whole register: the bits above are 0 (R24). -/
theorem writeW_reg_toNat (w : Width) (r : Reg) (v : Nat) (s : State) :
    ((s.writeW w r v).reg r).toNat = v % 2 ^ w.bits := by
  have hw : w.bits ≤ 512 := by cases w <;> decide
  rw [writeW_reg_same, toNat_ofNat_mod hw]

/-- Every register value is below 2^512 (R21). -/
theorem reg_mod_w512 (s : State) (r : Reg) : (s.reg r).toNat % 2 ^ Width.w512.bits = (s.reg r).toNat :=
  Nat.mod_eq_of_lt (BitVec.isLt (w := Width.w512.bits) (s.reg r))

/-! ### MOV, MOV.256, TRUNC256 and CLR (R81) -/

/-- OR of a register with itself copies its low W bits and clears the rest (R24, R131, R81). -/
theorem exec_or_self (w : Width) (rd ra : Reg) (s : State) :
    ∃ t, exec (.or w rd ra ra) s = .next t ∧ Completes [rd] [] s t ∧
      (t.reg rd).toNat = (s.reg ra).toNat % 2 ^ w.bits := by
  obtain ⟨hexec, hcompletes⟩ := exec_completes (i := .or w rd ra ra) (s := s) rfl rfl
  refine ⟨_, hexec, hcompletes, ?_⟩
  calc ((s.writeW w rd (s.src w ra ||| s.src w ra)).reg rd).toNat
      = s.src w ra % 2 ^ w.bits := by rw [writeW_reg_toNat, Nat.or_self]
    _ = (s.reg ra).toNat % 2 ^ w.bits := Nat.mod_mod ..

/-- Settles O60: MOV, MOV.256 and TRUNC256 are an OR of a register with itself, CLR is an LDI of 0. -/
theorem pseudoInstructionsCopyAndClear : Obligations.PseudoInstructionsCopyAndClear := by
  unfold Obligations.PseudoInstructionsCopyAndClear
  intro rd ra s
  refine ⟨?mov, exec_or_self .w256 rd ra s, exec_or_self .w256 rd ra s, ?clr⟩
  case mov =>
    obtain ⟨t, hexec, hcompletes, hvalue⟩ := exec_or_self .w512 rd ra s
    exact ⟨t, hexec, hcompletes, BitVec.eq_of_toNat_eq (hvalue.trans (reg_mod_w512 s ra))⟩
  case clr =>
    obtain ⟨hexec, hcompletes⟩ := exec_completes (i := .ldi rd 0#32) (s := s) rfl rfl
    exact ⟨_, hexec, hcompletes, (setReg_reg_same ..).trans (BitVec.setWidth_zero ..)⟩

end Sys2Proof.Machine
end

section
/-! Construction and byte serialisation (O22 to O25): LDI, LD and ST. The bytes of a value and the value of bytes are said
once, byte by byte, with the weights of R52; LD and ST make the same two checks before they go on. -/

namespace Sys2Proof.Machine

/-! ### Byte sequences, byte by byte (R10, R52) -/

/-- Each byte weighs 256 times the one before. -/
theorem two_pow_byte_succ (k : Nat) : 2 ^ (8 * (k + 1)) = 256 * 2 ^ (8 * k) := by
  rw [Nat.mul_succ, Nat.pow_add, Nat.mul_comm]

/-- Byte k of `le_bytes_n(v)` is the digit of v of weight 256^k (R10). -/
theorem leBytes_getElem (n v k : Nat) (h : k < (leBytes n v).length) :
    (leBytes n v)[k] = BitVec.ofNat 8 (v / 2 ^ (8 * k)) := by
  induction n generalizing v k with
  | zero => cases h
  | succ n ih =>
    cases k with
    | zero => simp [leBytes]
    | succ k =>
      simp [leBytes, ih, Nat.div_div_eq_div_mul, two_pow_byte_succ]

/-- Byte k of a serialised W-bit value is the digit whose weight the order gives it (R52, R93). -/
theorem bytesOfValue_getElem (w : Width) (e : ByteOrder) (v k : Nat) (h : k < (bytesOfValue e w.bytes v).length) :
    (bytesOfValue e w.bytes v)[k] = BitVec.ofNat 8 (v / 2 ^ byteWeight w e k) := by
  cases e with
  | big => simp [bytesOfValue, beBytes, byteWeight, leBytes_getElem]
  | little => exact leBytes_getElem w.bytes v k h

/-- Digit k of `le_value(b)` is byte k (R10). -/
theorem leValue_digit (bs : List Byte) (k : Nat) (h : k < bs.length) :
    leValue bs / 2 ^ (8 * k) % 256 = bs[k].toNat := by
  have hdigit : BitVec.ofNat 8 (leValue bs / 2 ^ (8 * k)) = bs[k] := by
    rw [← leBytes_getElem bs.length _ _ (by simpa using h)]
    simp only [leBytes_leValue]
  rw [← hdigit, BitVec.toNat_ofNat]

/-- `le_value(b)` is the sum of its weighted bytes (R10). -/
theorem leValue_eq_sum (bs : List Byte) :
    leValue bs = ∑ k ∈ Finset.range bs.length, (bs.getD k 0#8).toNat * 2 ^ (8 * k) := by
  induction bs with
  | nil => rfl
  | cons b rest ih =>
    rw [leValue, ih, List.length_cons, Finset.sum_range_succ', Finset.mul_sum, Nat.add_comm]
    simp [two_pow_byte_succ, Nat.mul_left_comm]

/-- The integer of W/8 bytes is their sum, each with the weight the order gives it; in the big order the sum of the
reversed sequence runs backwards (R52, R92). -/
theorem valueOfBytes_eq_sum (w : Width) (e : ByteOrder) {bs : List Byte} (h : bs.length = w.bytes) :
    valueOfBytes e bs = ∑ k ∈ Finset.range w.bytes, (bs.getD k 0#8).toNat * 2 ^ byteWeight w e k := by
  cases e with
  | little => rw [valueOfBytes, leValue_eq_sum, h]; rfl
  | big =>
    rw [valueOfBytes, beValue, leValue_eq_sum, List.length_reverse, h, ← Finset.sum_range_reflect]
    refine Finset.sum_congr rfl fun k hk => ?_
    have hk : k < w.bytes := Finset.mem_range.1 hk
    have hbyte : bs.reverse[w.bytes - 1 - k]? = bs[k]? := by
      rw [List.getElem?_reverse (by omega)]
      congr 1
      omega
    simp [byteWeight, List.getD, hbyte]

/-- Reading in the other order is reading the reversed sequence from its least significant byte (R95). -/
theorem valueOfBytes_bytesOfValue_of_ne {e e' : ByteOrder} (h : e' ≠ e) (n v : Nat) :
    valueOfBytes e' (bytesOfValue e n v) = leValue (bytesOfValue .big n v) := by
  cases e <;> cases e'
  case big.little | little.big => rfl
  case big.big | little.little => exact absurd rfl h

/-- Digit k of a value read in the other order is digit W/8 - 1 - k of the value serialised (R95). -/
theorem valueOfBytes_bytesOfValue_digit (w : Width) {e e' : ByteOrder} (h : e' ≠ e) (v : Nat) {k : Nat}
    (hk : k < w.bytes) :
    valueOfBytes e' (bytesOfValue e w.bytes v) / 2 ^ (8 * k) % 256 = v / 2 ^ (8 * (w.bytes - 1 - k)) % 256 := by
  rw [valueOfBytes_bytesOfValue_of_ne h, leValue_digit _ _ (by simpa using hk), bytesOfValue_getElem,
    BitVec.toNat_ofNat]
  rfl

/-! ### The bytes an LD reads and an ST writes -/

/-- The integer an LD writes, as the sum of the bytes of MEM (R92). -/
theorem valueOfBytes_readBytes_eq_sum (w : Width) (e : ByteOrder) (s : State) (addr : Nat) :
    valueOfBytes e (s.readBytes addr w.bytes) =
      ∑ k ∈ Finset.range w.bytes, (s.readByte (addr + k)).toNat * 2 ^ byteWeight w e k := by
  rw [valueOfBytes_eq_sum w e (readBytes_length ..)]
  refine Finset.sum_congr rfl fun k hk => ?_
  have hk : k < w.bytes := Finset.mem_range.1 hk
  rw [List.getD_eq_getElem _ _ (by simpa using hk), readBytes_getElem _ _ _ _ hk]

/-- The integer of W/8 bytes of MEM is a W-bit value (R92). -/
theorem valueOfBytes_readBytes_mod (w : Width) (e : ByteOrder) (s : State) (addr : Nat) :
    valueOfBytes e (s.readBytes addr w.bytes) % 2 ^ w.bits = valueOfBytes e (s.readBytes addr w.bytes) := by
  have hlt := valueOfBytes_lt e (s.readBytes addr w.bytes)
  rw [readBytes_length, bytes_bits] at hlt
  exact Nat.mod_eq_of_lt hlt

/-! ### The checks of LD and ST (R92, R93) -/

/-- The error of an LD or ST: its length is checked before its range (R218). -/
def loadStoreError (w : Width) (addr len : BitVec 16) (s : State) : Option ErrorKind :=
  firstOf [(len.toNat != w.bytes, .lengthMismatch), (decide (s.memBytes < addr.toNat + len.toNat), .addressRange)]

theorem raises_ld (w : Width) (e : ByteOrder) (rd : Reg) (addr len : BitVec 16) (s : State) :
    raises (.ld w e rd addr len) s = loadStoreError w addr len s := rfl

theorem raises_st (w : Width) (e : ByteOrder) (ra : Reg) (addr len : BitVec 16) (s : State) :
    raises (.st w e ra addr len) s = loadStoreError w addr len s := rfl

theorem loadStoreError_of_length_ne {w : Width} {addr len : BitVec 16} {s : State} (h : len.toNat ≠ w.bytes) :
    loadStoreError w addr len s = some .lengthMismatch := if_pos (bne_iff_ne.2 h)

theorem loadStoreError_of_range {w : Width} {addr len : BitVec 16} {s : State} (hlen : len.toNat = w.bytes)
    (hrange : s.memBytes < addr.toNat + len.toNat) : loadStoreError w addr len s = some .addressRange := by
  simp [loadStoreError, firstOf, hlen, hlen ▸ hrange]

theorem loadStoreError_eq_none {w : Width} {addr len : BitVec 16} {s : State} (hlen : len.toNat = w.bytes)
    (hrange : addr.toNat + len.toNat ≤ s.memBytes) : loadStoreError w addr len s = none := by
  simp [loadStoreError, firstOf, hlen, hlen ▸ hrange]

/-- A command that raises an error has the complete effect of R213 and R216. -/
theorem exec_failsWith {i : Instr} {s : State} {e : ErrorKind} (h : raises i s = some e) :
    ∃ t, exec i s = .next t ∧ FailsWith e (encode i) s t := by
  rw [exec_of_raises h]
  exact raiseError_spec e (encode i) s

/-- The two failures of a command that makes the checks of LD and ST. -/
theorem exec_loadStoreError {i : Instr} {w : Width} {addr len : BitVec 16} {s : State}
    (hi : raises i s = loadStoreError w addr len s) :
    (len.toNat ≠ w.bytes → ∃ t, exec i s = .next t ∧ FailsWith .lengthMismatch (encode i) s t) ∧
    (len.toNat = w.bytes → s.memBytes < addr.toNat + len.toNat →
      ∃ t, exec i s = .next t ∧ FailsWith .addressRange (encode i) s t) :=
  ⟨fun hlen => exec_failsWith (hi.trans (loadStoreError_of_length_ne hlen)),
    fun hlen hrange => exec_failsWith (hi.trans (loadStoreError_of_range hlen hrange))⟩

/-! ### LDI, LD and ST (R91, R92, R93) -/

/-- The encoding of a well-formed command decodes to it (R71, R79). -/
theorem encodedAs_encode {i : Instr} (h : i.wellFormed = true) : EncodedAs (encode i) i :=
  ⟨rfl, decodeOfEncode i h⟩

/-- Settles O22: LDI raises no error, and zero extension keeps the immediate's value. -/
theorem ldiWritesItsImmediate : Obligations.LdiWritesItsImmediate := by
  unfold Obligations.LdiWritesItsImmediate
  intro rd imm s
  obtain ⟨hexec, hcompletes⟩ := exec_completes (i := .ldi rd imm) (s := s) rfl rfl
  refine ⟨encodedAs_encode rfl, _, hexec, hcompletes, ?_⟩
  calc ((s.setReg rd (imm.setWidth 512)).reg rd).toNat
      = (imm.setWidth 512).toNat := by rw [setReg_reg_same]
    _ = imm.toNat := BitVec.toNat_setWidth_of_le (by decide)

/-- An LD that passes its checks writes the integer of its W/8 bytes and answers OK (R92). -/
theorem exec_ld_next {w : Width} {addr len : BitVec 16} {s : State} (hlen : len.toNat = w.bytes)
    (hrange : addr.toNat + len.toNat ≤ s.memBytes) (e : ByteOrder) (rd : Reg) :
    exec (.ld w e rd addr len) s =
        .next ((s.writeW w rd (valueOfBytes e (s.readBytes addr.toNat w.bytes))).respond okCode) ∧
      Completes [rd] [] s ((s.writeW w rd (valueOfBytes e (s.readBytes addr.toNat w.bytes))).respond okCode) :=
  exec_completes (i := .ld w e rd addr len) rfl (loadStoreError_eq_none hlen hrange)

/-- An ST that passes its checks writes the W/8 bytes of its operand and answers OK (R93). -/
theorem exec_st_next {w : Width} {addr len : BitVec 16} {s : State} (hlen : len.toNat = w.bytes)
    (hrange : addr.toNat + len.toNat ≤ s.memBytes) (e : ByteOrder) (ra : Reg) :
    exec (.st w e ra addr len) s =
      .next ((s.writeBytes addr.toNat (bytesOfValue e w.bytes (s.src w ra))).respond okCode) :=
  exec_of_raises_none (i := .st w e ra addr len) (loadStoreError_eq_none hlen hrange)
    (not_overflowsLength_of_widthOf rfl s)

/-- Settles O23: the two failures by the checks, and the value read as the sum of its weighted bytes. -/
theorem ldConstructsFromBytes : Obligations.LdConstructsFromBytes := by
  unfold Obligations.LdConstructsFromBytes
  intro w e rd addr len s
  obtain ⟨hlength, hrange⟩ := exec_loadStoreError (raises_ld w e rd addr len s)
  refine ⟨encodedAs_encode rfl, hlength, hrange, fun hlen hfit => ?_⟩
  obtain ⟨hexec, hcompletes⟩ := exec_ld_next hlen hfit e rd
  refine ⟨_, hexec, hcompletes, ?_⟩
  calc ((s.writeW w rd (valueOfBytes e (s.readBytes addr.toNat w.bytes))).reg rd).toNat
      = valueOfBytes e (s.readBytes addr.toNat w.bytes) := by rw [writeW_reg_toNat, valueOfBytes_readBytes_mod]
    _ = ∑ k ∈ Finset.range w.bytes, (s.readByte (addr.toNat + k)).toNat * 2 ^ byteWeight w e k :=
      valueOfBytes_readBytes_eq_sum w e s addr.toNat

/-- Settles O24: the two failures by the checks, and each byte of MEM by whether it lies in the operand. -/
theorem stSerialisesToBytes : Obligations.StSerialisesToBytes := by
  unfold Obligations.StSerialisesToBytes
  intro w e ra addr len s
  obtain ⟨hlength, hrange⟩ := exec_loadStoreError (raises_st w e ra addr len s)
  refine ⟨encodedAs_encode rfl, hlength, hrange, fun hlen hfit => ?_⟩
  refine ⟨_, exec_st_next hlen hfit e ra, rfl, fun _ _ => rfl, fun _ _ => rfl, rfl, ⟨rfl, rfl, rfl⟩, rfl, ?inside,
    ?outside⟩
  case inside =>
    intro k hk
    exact (writeBytes_readByte_inside s _ _ k (by simpa using hk)).trans (bytesOfValue_getElem w e _ k _)
  case outside =>
    intro a ha
    exact writeBytes_readByte_outside s _ _ a (by simpa using ha)

/-! ### LD and ST in sequence (R94, R95) -/

/-- What an ST wrote is read back whole. -/
theorem readBytes_of_stored (s : State) (addr : Nat) (e : ByteOrder) (n v : Nat) :
    (s.writeBytes addr (bytesOfValue e n v)).readBytes addr n = bytesOfValue e n v := by
  have h := readBytes_writeBytes s addr (bytesOfValue e n v)
  rwa [bytesOfValue_length] at h

/-- What an LD wrote is read back as the integer of the bytes. -/
theorem src_of_loaded (s t : State) (w : Width) (e : ByteOrder) (rd : Reg) (addr : Nat) :
    (s.writeW w rd (valueOfBytes e (t.readBytes addr w.bytes))).src w rd = valueOfBytes e (t.readBytes addr w.bytes) := by
  rw [src_writeW, valueOfBytes_readBytes_mod]

/-- An LD after an ST of the same bytes reads what the ST serialised, whatever the two orders are. -/
theorem exec_st_then_ld {w : Width} {addr len : BitVec 16} {s : State} (hlen : len.toNat = w.bytes)
    (hrange : addr.toNat + len.toNat ≤ s.memBytes) (e e' : ByteOrder) (ra rd : Reg) :
    ∃ t u, exec (.st w e ra addr len) s = .next t ∧ exec (.ld w e' rd addr len) t = .next u ∧
      u.src w rd = valueOfBytes e' (bytesOfValue e w.bytes (s.src w ra)) := by
  have hst := exec_st_next hlen hrange e ra
  obtain ⟨hld, -⟩ := exec_ld_next
    (s := (s.writeBytes addr.toNat (bytesOfValue e w.bytes (s.src w ra))).respond okCode) hlen hrange e' rd
  refine ⟨_, _, hst, hld, (src_of_loaded _ _ w e' rd addr.toNat).trans ?_⟩
  rw [readBytes_of_mem (respond_mem ..) (respond_resets ..), readBytes_of_stored]

/-- An ST after an LD writes the bytes that the LD read. -/
theorem exec_ld_then_st {w : Width} {addr addr2 len : BitVec 16} {s : State} (hlen : len.toNat = w.bytes)
    (hrange : addr.toNat + len.toNat ≤ s.memBytes) (hrange2 : addr2.toNat + len.toNat ≤ s.memBytes) (e : ByteOrder)
    (rd : Reg) :
    ∃ t u, exec (.ld w e rd addr len) s = .next t ∧ exec (.st w e rd addr2 len) t = .next u ∧
      u.readBytes addr2.toNat w.bytes = s.readBytes addr.toNat w.bytes := by
  obtain ⟨hld, -⟩ := exec_ld_next hlen hrange e rd
  have hst := exec_st_next
    (s := (s.writeW w rd (valueOfBytes e (s.readBytes addr.toNat w.bytes))).respond okCode) hlen hrange2 e rd
  refine ⟨_, _, hld, hst, ?_⟩
  have hsrc : ((s.writeW w rd (valueOfBytes e (s.readBytes addr.toNat w.bytes))).respond okCode).src w rd =
      valueOfBytes e (s.readBytes addr.toNat w.bytes) := src_of_loaded s s w e rd addr.toNat
  rw [readBytes_of_mem (respond_mem ..) (respond_resets ..), readBytes_of_stored, hsrc]
  have hbytes := bytesOfValue_valueOfBytes e (s.readBytes addr.toNat w.bytes)
  rwa [readBytes_length] at hbytes

/-- Settles O25: each round trip is one of the conversions of byte sequences, and the other order reverses the digits. -/
theorem storeAndLoadRoundTrip : Obligations.StoreAndLoadRoundTrip := by
  unfold Obligations.StoreAndLoadRoundTrip
  intro w e ra rd addr addr2 len s hlen hrange hrange2
  refine ⟨?storeLoad, ?loadStore, fun e' he => ?otherOrder⟩
  case storeLoad =>
    obtain ⟨t, u, hst, hld, hvalue⟩ := exec_st_then_ld hlen hrange e e ra rd
    refine ⟨t, u, hst, hld, ?_⟩
    rw [hvalue, valueOfBytes_bytesOfValue, bytes_bits, Nat.mod_eq_of_lt (src_lt s w ra)]
  case loadStore =>
    obtain ⟨t, u, hld, hst, hbytes⟩ := exec_ld_then_st hlen hrange hrange2 e rd
    refine ⟨t, u, hld, hst, fun k hk => ?_⟩
    rw [← readBytes_getElem u _ _ k hk, ← readBytes_getElem s _ _ k hk]
    simp only [hbytes]
  case otherOrder =>
    obtain ⟨t, u, hst, hld, hvalue⟩ := exec_st_then_ld hlen hrange e e' ra rd
    refine ⟨t, u, hst, hld, fun k hk => ?_⟩
    rw [hvalue, valueOfBytes_bytesOfValue_digit w he _ hk]

end Sys2Proof.Machine
end

section
/-! The adder and the subtractor (O26 to O28) and their limb chains (O54). A difference wraps once at most, which is said
once for the commands and the chains; each chain loses nothing, so its limbs and its last carry are digits of the total. -/

namespace Sys2Proof.Machine

/-! ### Sums and differences of values below a modulus (R101, R102) -/

/-- The difference modulo m of two values below m wraps exactly when it is negative (R102). -/
theorem wrapped_sub {m a b : Nat} (ha : a < m) (hb : b < m) :
    (a + m - b) % m = if a < b then a + m - b else a - b := by
  split_ifs with h
  · exact Nat.mod_eq_of_lt (by omega)
  · rw [Nat.sub_add_comm (Nat.le_of_not_lt h), Nat.add_mod_right, Nat.mod_eq_of_lt (by omega)]

/-- The sum modulo m of two values below m wraps exactly when it reaches m (R101). -/
theorem wrapped_add {m a b : Nat} (ha : a < m) (hb : b < m) :
    (a + b) % m = if m ≤ a + b then a + b - m else a + b := by
  split_ifs with h
  · rw [Nat.mod_eq_sub_mod h, Nat.mod_eq_of_lt (by omega)]
  · exact Nat.mod_eq_of_lt (Nat.lt_of_not_le h)

/-- The carry of two values below 2^W is the exact quotient of their sum by 2^W (R101). -/
theorem carryOut_toNat (w : Width) {a b : Nat} (ha : a < 2 ^ w.bits) (hb : b < 2 ^ w.bits) :
    (carryOut w a b).toNat = (a + b) / 2 ^ w.bits := by
  by_cases h : 2 ^ w.bits ≤ a + b
  · rw [carryOut, decide_eq_true h, Nat.div_eq_of_lt_le (k := 1) (by omega) (by omega), Bool.toNat_true]
  · rw [carryOut, decide_eq_false h, Nat.div_eq_of_lt (Nat.lt_of_not_le h), Bool.toNat_false]

/-- The difference modulo 2^W, without negative numbers (R9). -/
theorem wrapInt_sub (w : Width) (a : Nat) {b : Nat} (hb : b < 2 ^ w.bits) :
    wrapInt w ((a : Int) - (b : Int)) = (a + 2 ^ w.bits - b) % 2 ^ w.bits := by
  have hcast : ((a + 2 ^ w.bits - b : Nat) : Int) = (a : Int) - b + (2 ^ w.bits : Nat) := by omega
  rw [wrapInt, ← Int.add_emod_right, ← hcast, ← Int.natCast_emod, Int.toNat_natCast]

/-! ### ADD and SUB (R101, R102) -/

/-- ADD raises no error, and writes the wrapped sum and the carry (R101). -/
theorem exec_add_next (w : Width) (rd ra rb : Reg) (s : State) :
    ∃ t, exec (.add w rd ra rb) s = .next t ∧ Completes [rd] bitsC s t ∧
      (t.reg rd).toNat = (s.src w ra + s.src w rb) % 2 ^ w.bits ∧
      t.flagC = carryOut w (s.src w ra) (s.src w rb) := by
  obtain ⟨hexec, hcompletes⟩ := exec_completes (i := .add w rd ra rb) (s := s) rfl rfl
  exact ⟨_, hexec, hcompletes, writeW_reg_toNat w rd _ s, setC_flagC ..⟩

/-- SUB raises no error, and writes the wrapped difference and the borrow (R102). -/
theorem exec_sub_next (w : Width) (rd ra rb : Reg) (s : State) :
    ∃ t, exec (.sub w rd ra rb) s = .next t ∧ Completes [rd] bitsC s t ∧
      (t.reg rd).toNat = (s.src w ra + 2 ^ w.bits - s.src w rb) % 2 ^ w.bits ∧
      t.flagC = borrowOut (s.src w ra) (s.src w rb) := by
  obtain ⟨hexec, hcompletes⟩ := exec_completes (i := .sub w rd ra rb) (s := s) rfl rfl
  refine ⟨_, hexec, hcompletes, ?_, setC_flagC ..⟩
  refine (writeW_reg_toNat w rd _ s).trans ?_
  rw [wrapInt_sub w _ (src_lt s w rb), Nat.mod_mod]

/-- Settles O26: ADD raises no error, and its carry is the quotient of the exact sum. -/
theorem addWritesSumAndCarry : Obligations.AddWritesSumAndCarry := by
  unfold Obligations.AddWritesSumAndCarry
  intro w rd ra rb s
  obtain ⟨t, hexec, hcompletes, hvalue, hcarry⟩ := exec_add_next w rd ra rb s
  refine ⟨encodedAs_encode rfl, t, hexec, hcompletes, hvalue, ?_⟩
  rw [hcarry, carryOut_toNat w (src_lt s w ra) (src_lt s w rb)]

/-- Settles O27: SUB raises no error, and its difference wraps exactly when the borrow is 1. -/
theorem subWritesDifferenceAndBorrow : Obligations.SubWritesDifferenceAndBorrow := by
  unfold Obligations.SubWritesDifferenceAndBorrow
  intro w rd ra rb s
  obtain ⟨t, hexec, hcompletes, hvalue, hborrow⟩ := exec_sub_next w rd ra rb s
  rw [wrapped_sub (src_lt s w ra) (src_lt s w rb)] at hvalue
  refine ⟨encodedAs_encode rfl, t, hexec, hcompletes, fun hle => ⟨?_, ?_⟩, fun hlt => ⟨?_, ?_⟩⟩
  · rw [hvalue, if_neg hle.not_gt]
  · rw [hborrow, borrowOut, decide_eq_false hle.not_gt]
  · rw [hvalue, if_pos hlt]
  · rw [hborrow, borrowOut, decide_eq_true hlt]

/-! ### ADD and SUB in sequence (R105) -/

/-- Subtracting b from a + b gives a back, and borrows exactly when the sum carried (R105). -/
theorem sub_of_wrapped_add {m a b : Nat} (ha : a < m) (hb : b < m) :
    ((a + b) % m + m - b) % m = a ∧ ((a + b) % m < b ↔ m ≤ a + b) := by
  have hsum : (a + b) % m < m := Nat.mod_lt _ (by omega)
  rw [wrapped_sub hsum hb, wrapped_add ha hb]
  split_ifs <;> omega

/-- Adding b to a - b gives a back, and carries exactly when the difference borrowed (R105). -/
theorem add_of_wrapped_sub {m a b : Nat} (ha : a < m) (hb : b < m) :
    ((a + m - b) % m + b) % m = a ∧ (m ≤ (a + m - b) % m + b ↔ a < b) := by
  have hdiff : (a + m - b) % m < m := Nat.mod_lt _ (by omega)
  rw [wrapped_add hdiff hb, wrapped_sub ha hb]
  split_ifs <;> omega

/-- A register that holds a value modulo 2^W holds it as an operand (R23). -/
theorem src_of_reg_toNat {w : Width} {r : Reg} {v : Nat} {s : State} (h : (s.reg r).toNat = v % 2 ^ w.bits) :
    s.src w r = v % 2 ^ w.bits := by
  rw [State.src, h, Nat.mod_mod]

/-- A command that completes keeps each operand that is none of its destinations (R25). -/
theorem Completes.src_eq {dests : List Reg} {bits : List Nat} {s t : State} (h : Completes dests bits s t) {r : Reg}
    (hr : r ∉ dests) (w : Width) : t.src w r = s.src w r := by
  obtain ⟨-, hregs, -⟩ := h
  rw [State.src, hregs r hr, State.src]

/-- Settles O28: b is still in its register when the second command runs, and R105 holds of the integers. -/
theorem addAndSubUndoEachOther : Obligations.AddAndSubUndoEachOther := by
  unfold Obligations.AddAndSubUndoEachOther
  intro w rd rd2 ra rb s hne
  have hrb : rb ∉ [rd] := by simpa using hne
  have ha := src_lt s w ra
  have hb := src_lt s w rb
  constructor
  case left =>
    obtain ⟨t, hadd, hcompletes, hsum, hcarry⟩ := exec_add_next w rd ra rb s
    obtain ⟨u, hsub, -, hdiff, hborrow⟩ := exec_sub_next w rd2 rd rb t
    obtain ⟨hvalue, hflag⟩ := sub_of_wrapped_add ha hb
    refine ⟨t, u, hadd, hsub, ?_, ?_⟩
    · rw [src_of_reg_toNat hdiff, src_of_reg_toNat hsum, hcompletes.src_eq hrb, hvalue]
    · rw [hborrow, hcarry, src_of_reg_toNat hsum, hcompletes.src_eq hrb]
      exact decide_eq_decide.2 hflag
  case right =>
    obtain ⟨t, hsub, hcompletes, hdiff, hborrow⟩ := exec_sub_next w rd ra rb s
    obtain ⟨u, hadd, -, hsum, hcarry⟩ := exec_add_next w rd2 rd rb t
    obtain ⟨hvalue, hflag⟩ := add_of_wrapped_sub ha hb
    refine ⟨t, u, hsub, hadd, ?_, ?_⟩
    · rw [src_of_reg_toNat hsum, src_of_reg_toNat hdiff, hcompletes.src_eq hrb, hvalue]
    · rw [hcarry, hborrow, src_of_reg_toNat hdiff, hcompletes.src_eq hrb]
      exact decide_eq_decide.2 hflag

/-! ### Limbs and their value (R7) -/

/-- Each limb weighs 2^L times the one before. -/
theorem two_pow_limb_succ (L n : Nat) : 2 ^ (L * (n + 1)) = 2 ^ L * 2 ^ (L * n) := by
  rw [Nat.mul_succ, Nat.pow_add, Nat.mul_comm]

/-- Each limb of the list has L bits. -/
def LimbsBelow (L : Nat) (as : List Nat) : Prop := ∀ a ∈ as, a < 2 ^ L

@[simp] theorem limbsBelow_nil (L : Nat) : LimbsBelow L [] := List.forall_mem_nil _

@[simp] theorem limbsBelow_cons {L a : Nat} {as : List Nat} : LimbsBelow L (a :: as) ↔ a < 2 ^ L ∧ LimbsBelow L as :=
  List.forall_mem_cons

@[simp] theorem limbsOf_length (L n v : Nat) : (limbsOf L n v).length = n := by
  induction n generalizing v with
  | zero => rfl
  | succ n ih => rw [limbsOf, List.length_cons, ih]

theorem limbsOf_below (L n v : Nat) : LimbsBelow L (limbsOf L n v) := by
  induction n generalizing v with
  | zero => exact limbsBelow_nil L
  | succ n ih => exact limbsBelow_cons.2 ⟨Nat.mod_lt _ (Nat.two_pow_pos L), ih _⟩

/-- The limbs of a value that fits them have this value. -/
theorem limbValue_limbsOf {L n v : Nat} (h : v < 2 ^ (L * n)) : limbValue L (limbsOf L n v) = v := by
  induction n generalizing v with
  | zero => exact (Nat.lt_one_iff.1 h).symm
  | succ n ih =>
    rw [two_pow_limb_succ] at h
    rw [limbsOf, limbValue, ih (Nat.div_lt_of_lt_mul h), Nat.mod_add_div]

/-- A limb before limbs of a value below 2^(L·n) makes a value below 2^(L·(n+1)). -/
theorem limbValue_cons_lt {L n a : Nat} {as : List Nat} (ha : a < 2 ^ L) (has : limbValue L as < 2 ^ (L * n)) :
    limbValue L (a :: as) < 2 ^ (L * (n + 1)) := by
  calc a + 2 ^ L * limbValue L as
      < 2 ^ L * (limbValue L as + 1) := by rw [Nat.mul_succ]; omega
    _ ≤ 2 ^ L * 2 ^ (L * n) := Nat.mul_le_mul_left _ has
    _ = 2 ^ (L * (n + 1)) := (two_pow_limb_succ ..).symm

/-- The OR of the bits of a limb list is 0 exactly when its value is 0 (R141). -/
theorem any_ne_zero_iff (L : Nat) (as : List Nat) : as.any (fun a => a != 0) = true ↔ limbValue L as ≠ 0 := by
  induction as with
  | nil => simp [limbValue]
  | cons a as ih =>
    rw [List.any_cons, Bool.or_eq_true, ih, limbValue, bne_iff_ne]
    simp [imp_iff_not_or]

/-! ### The carry chain (R103) -/

/-- The carry chain loses nothing: its limbs and its last carry make up the operands and the carry in. -/
theorem addChain_value (L c : Nat) {as bs : List Nat} (h : as.length = bs.length) :
    limbValue L (addChain L c as bs).1 + 2 ^ (L * as.length) * (addChain L c as bs).2 =
      limbValue L as + limbValue L bs + c := by
  induction as generalizing c bs with
  | nil =>
    obtain rfl := List.length_eq_zero_iff.1 h.symm
    simp [addChain, limbValue]
  | cons a as ih =>
    obtain ⟨b, bs, rfl⟩ := List.exists_cons_of_length_eq_add_one h.symm
    have hrest := ih ((a + b + c) / 2 ^ L) (Nat.succ.inj h)
    have hlimb := Nat.mod_add_div (a + b + c) (2 ^ L)
    simp only [addChain, limbValue, List.length_cons, two_pow_limb_succ]
    linear_combination 2 ^ L * hrest + hlimb

theorem addChain_value_lt (L c : Nat) (as bs : List Nat) :
    limbValue L (addChain L c as bs).1 < 2 ^ (L * as.length) := by
  fun_induction addChain L c as bs with
  | case1 c a as b bs t rest ih => exact limbValue_cons_lt (Nat.mod_lt _ (Nat.two_pow_pos L)) ih
  | case2 => exact Nat.two_pow_pos _

/-- R103 with a carry in: the limbs and the carry are the remainder and the quotient of the exact sum. -/
theorem addChain_limbsOf {L n a b : Nat} (c : Nat) (ha : a < 2 ^ (L * n)) (hb : b < 2 ^ (L * n)) :
    limbValue L (addChain L c (limbsOf L n a) (limbsOf L n b)).1 = (a + b + c) % 2 ^ (L * n) ∧
      (addChain L c (limbsOf L n a) (limbsOf L n b)).2 = (a + b + c) / 2 ^ (L * n) := by
  have hsum := addChain_value L c (as := limbsOf L n a) (bs := limbsOf L n b) (by simp)
  have hlt := addChain_value_lt L c (limbsOf L n a) (limbsOf L n b)
  rw [limbsOf_length] at hsum hlt
  rw [limbValue_limbsOf ha, limbValue_limbsOf hb] at hsum
  obtain ⟨hcarry, hvalue⟩ := (Nat.div_mod_unique (Nat.two_pow_pos _)).2 ⟨hsum, hlt⟩
  exact ⟨hvalue.symm, hcarry.symm⟩

/-- R104 by the complement: the limbs are the difference, and the inverted carry is the borrow. -/
theorem subByComplement_limbsOf {L n a b : Nat} (ha : a < 2 ^ (L * n)) (hb : b < 2 ^ (L * n)) :
    limbValue L (subByComplement L n a b).1 = (a + 2 ^ (L * n) - b) % 2 ^ (L * n) ∧
      (subByComplement L n a b).2 = if a < b then 1 else 0 := by
  have htotal : a + (2 ^ (L * n) - 1 - b) + 1 = a + 2 ^ (L * n) - b := by omega
  obtain ⟨hvalue, hcarry⟩ := addChain_limbsOf 1 ha (b := 2 ^ (L * n) - 1 - b) (by omega)
  rw [htotal] at hvalue hcarry
  refine ⟨hvalue, ?_⟩
  rw [subByComplement, hcarry]
  split_ifs with h
  · rw [Nat.div_eq_of_lt (by omega)]
  · rw [Nat.div_eq_of_lt_le (k := 1) (by omega) (by omega)]

/-! ### The borrow chain (R104) -/

/-- One limb of the borrow chain loses nothing. -/
theorem subLimb_value {m a b w : Nat} (ha : a < m) (hb : b < m) (hw : w ≤ 1) :
    ((((a : Int) - b - w) % (m : Nat)).toNat + b + w : Nat) = a + m * (if (a : Int) - b - w < 0 then 1 else 0) := by
  split_ifs with h
  · rw [← Int.add_emod_right, Int.emod_eq_of_lt (by omega) (by omega)]
    omega
  · rw [Int.emod_eq_of_lt (by omega) (by omega)]
    omega

/-- The borrow chain loses nothing: its limbs make up the difference, its last borrow what the difference lacks. -/
theorem subChain_value {L w : Nat} {as bs : List Nat} (hw : w ≤ 1) (h : as.length = bs.length) (has : LimbsBelow L as)
    (hbs : LimbsBelow L bs) :
    limbValue L (subChain L w as bs).1 + limbValue L bs + w =
        limbValue L as + 2 ^ (L * as.length) * (subChain L w as bs).2 ∧
      (subChain L w as bs).2 ≤ 1 := by
  induction as generalizing w bs with
  | nil =>
    obtain rfl := List.length_eq_zero_iff.1 h.symm
    simp [subChain, limbValue, hw]
  | cons a as ih =>
    obtain ⟨b, bs, rfl⟩ := List.exists_cons_of_length_eq_add_one h.symm
    obtain ⟨ha, has⟩ := limbsBelow_cons.1 has
    obtain ⟨hb, hbs⟩ := limbsBelow_cons.1 hbs
    have hout : (if (a : Int) - b - w < 0 then 1 else 0) ≤ 1 := by split_ifs <;> decide
    obtain ⟨hrest, hborrow⟩ := ih hout (Nat.succ.inj h) has hbs
    have hlimb := subLimb_value ha hb hw
    refine ⟨?_, hborrow⟩
    simp only [subChain, limbValue, List.length_cons, two_pow_limb_succ]
    linear_combination 2 ^ L * hrest + hlimb

theorem subChain_value_lt (L w : Nat) (as bs : List Nat) :
    limbValue L (subChain L w as bs).1 < 2 ^ (L * as.length) := by
  fun_induction subChain L w as bs with
  | case1 w a as b bs t rest ih =>
    have hpos := Nat.two_pow_pos L
    have hlimb : t % (2 ^ L : Nat) < (2 ^ L : Nat) := Int.emod_lt_of_pos _ (by omega)
    exact limbValue_cons_lt (by omega) ih
  | case2 => exact Nat.two_pow_pos _

/-- R104: the limbs are the difference, and the last borrow is 1 exactly when a < b. -/
theorem subChain_limbsOf {L n a b : Nat} (ha : a < 2 ^ (L * n)) (hb : b < 2 ^ (L * n)) :
    limbValue L (subChain L 0 (limbsOf L n a) (limbsOf L n b)).1 = (a + 2 ^ (L * n) - b) % 2 ^ (L * n) ∧
      (subChain L 0 (limbsOf L n a) (limbsOf L n b)).2 = if a < b then 1 else 0 := by
  obtain ⟨hdiff, hborrow⟩ := subChain_value (w := 0) (Nat.zero_le 1) (by simp) (limbsOf_below L n a) (limbsOf_below L n b)
  have hlt := subChain_value_lt L 0 (limbsOf L n a) (limbsOf L n b)
  rw [limbsOf_length] at hdiff hlt
  rw [limbValue_limbsOf ha, limbValue_limbsOf hb] at hdiff
  rw [wrapped_sub ha hb]
  obtain hzero | hone := Nat.le_one_iff_eq_zero_or_eq_one.1 hborrow
  · rw [hzero] at hdiff ⊢
    split_ifs <;> omega
  · rw [hone] at hdiff ⊢
    split_ifs <;> omega

/-! ### The comparator (R141) -/

/-- R141: the last borrow gives LT, and the difference is 0 exactly when the operands are equal. -/
theorem compareLimbs_limbsOf {L n a b : Nat} (ha : a < 2 ^ (L * n)) (hb : b < 2 ^ (L * n)) :
    compareLimbs L (limbsOf L n a) (limbsOf L n b) = (decide (a < b), decide (a = b), decide (b < a)) := by
  obtain ⟨hdiff, hborrow⟩ := subChain_limbsOf ha hb
  rw [wrapped_sub ha hb] at hdiff
  have hz : (subChain L 0 (limbsOf L n a) (limbsOf L n b)).1.any (fun r => r != 0) = decide (a ≠ b) := by
    rw [Bool.eq_iff_iff, any_ne_zero_iff L, decide_eq_true_iff, hdiff]
    split_ifs <;> omega
  rw [compareLimbs, hz, hborrow]
  obtain h | rfl | h := Nat.lt_trichotomy a b
  · simp [h, h.ne, h.le]
  · simp
  · simp [h, h.ne', h.not_gt]

/-- Settles O54: each chain loses nothing and its limbs stay below 2^(L·n), which fixes its limbs and its last carry. -/
theorem limbChainsAddAndSubtract : Obligations.LimbChainsAddAndSubtract := by
  unfold Obligations.LimbChainsAddAndSubtract
  intro L n a b ha hb
  obtain ⟨hsum, hcarry⟩ := addChain_limbsOf 0 ha hb
  obtain ⟨hdiff, hborrow⟩ := subChain_limbsOf ha hb
  obtain ⟨hcdiff, hcborrow⟩ := subByComplement_limbsOf ha hb
  exact ⟨hsum, hcarry, hdiff, hborrow, hcdiff, hcborrow, compareLimbs_limbsOf ha hb⟩

end Sys2Proof.Machine
end

section
/-! The multiplier: MUL and MULW (O31 to O33), and the limb multiplier (O55). A register or a pair holds the remainder and
the quotient of the exact product by 2^512; `mac` never needs more than 2L bits, so a row of operand scanning loses nothing,
and what each row settles is one digit of the product. -/

namespace Sys2Proof.Machine

/-! ### MUL (R115) -/

/-- MUL raises no error, and writes the product modulo 2^W (R115). -/
theorem exec_mul_next (w : Width) (rd ra rb : Reg) (s : State) :
    ∃ t, exec (.mul w rd ra rb) s = .next t ∧ Completes [rd] [] s t ∧
      (t.reg rd).toNat = s.src w ra * s.src w rb % 2 ^ w.bits := by
  obtain ⟨hexec, hcompletes⟩ := exec_completes (i := .mul w rd ra rb) (s := s) rfl rfl
  exact ⟨_, hexec, hcompletes, writeW_reg_toNat w rd _ s⟩

/-- Settles O31: MUL raises no error and has no flag to write. -/
theorem mulWritesTruncatedProduct : Obligations.MulWritesTruncatedProduct := by
  unfold Obligations.MulWritesTruncatedProduct
  exact fun w rd ra rb s => ⟨encodedAs_encode rfl, exec_mul_next w rd ra rb s⟩

/-! ### MULW (R116) -/

/-- The second register of a pair: the register numbers wrap from R15 to R0 (R116). -/
theorem pair_second (rd : Reg) : BitVec.ofNat 4 ((rd.toNat + 1) % 16) = rd + 1 := by
  apply BitVec.eq_of_toNat_eq
  simp [BitVec.toNat_add]

/-- The two registers of a pair differ. -/
theorem ne_pair_second (rd : Reg) : rd ≠ rd + 1 := by
  bv_omega

/-- A register keeps the low 512 bits of a value. -/
theorem toNat_ofNat_w512 (p : Nat) : (BitVec.ofNat 512 p).toNat = p % 2 ^ Width.w512.bits :=
  BitVec.toNat_ofNat p Width.w512.bits

/-- At both widths the register `rd` holds bits 511:0 of a double-width value (R116). -/
theorem writeWide_reg_low (w : Width) (rd : Reg) (p : Nat) (s : State) :
    ((s.writeWide w rd p).reg rd).toNat = p % 2 ^ Width.w512.bits := by
  cases w with
  | w256 => rw [State.writeWide, setReg_reg_same, toNat_ofNat_w512]
  | w512 => rw [State.writeWide, setReg_reg_other _ _ _ _ (ne_pair_second rd), setReg_reg_same, toNat_ofNat_w512]

/-- At W = 512 the other register of the pair holds bits 1023:512 (R116). -/
theorem writeWide_reg_high (rd : Reg) (p : Nat) (s : State) :
    ((s.writeWide .w512 rd p).reg (rd + 1)).toNat = p / 2 ^ Width.w512.bits % 2 ^ Width.w512.bits := by
  rw [State.writeWide, setReg_reg_same, toNat_ofNat_w512]

/-- A product of two W-bit operands has 2W bits. -/
theorem src_mul_src_lt (s : State) (w : Width) (ra rb : Reg) :
    s.src w ra * s.src w rb < 2 ^ w.bits * 2 ^ w.bits :=
  Nat.mul_lt_mul'' (src_lt s w ra) (src_lt s w rb)

/-- MULW raises no error, and `rd` holds bits 511:0 of the exact product (R116). -/
theorem exec_mulw_next (w : Width) (rd ra rb : Reg) (s : State) :
    ∃ t, exec (.mulw w rd ra rb) s = .next t ∧ Completes (destinations (.mulw w rd ra rb)) [] s t ∧
      (t.reg rd).toNat = s.src w ra * s.src w rb % 2 ^ Width.w512.bits := by
  obtain ⟨hexec, hcompletes⟩ := exec_completes (i := .mulw w rd ra rb) (s := s) rfl rfl
  exact ⟨_, hexec, hcompletes, writeWide_reg_low w rd _ s⟩

/-- A product of two 256-bit operands fits the one register of MULW.256 (R116). -/
theorem exec_mulw_w256_next (rd ra rb : Reg) (s : State) :
    ∃ t, exec (.mulw .w256 rd ra rb) s = .next t ∧ Completes [rd] [] s t ∧
      (t.reg rd).toNat = s.src .w256 ra * s.src .w256 rb := by
  obtain ⟨t, hexec, hcompletes, hvalue⟩ := exec_mulw_next .w256 rd ra rb s
  refine ⟨t, hexec, hcompletes, hvalue.trans (Nat.mod_eq_of_lt ?_)⟩
  calc s.src .w256 ra * s.src .w256 rb
      < 2 ^ Width.w256.bits * 2 ^ Width.w256.bits := src_mul_src_lt s .w256 ra rb
    _ = 2 ^ (Width.w256.bits + Width.w256.bits) := (Nat.pow_add ..).symm
    _ = 2 ^ Width.w512.bits := congrArg (2 ^ ·) rfl

/-- The pair of MULW.512 holds the two halves of the exact product (R116). -/
theorem exec_mulw_w512_next (rd ra rb : Reg) (s : State) :
    ∃ t, exec (.mulw .w512 rd ra rb) s = .next t ∧ Completes [rd, rd + 1] [] s t ∧
      (t.reg rd).toNat + 2 ^ Width.w512.bits * (t.reg (rd + 1)).toNat = s.src .w512 ra * s.src .w512 rb := by
  obtain ⟨hexec, hcompletes⟩ := exec_completes (i := .mulw .w512 rd ra rb) (s := s) rfl rfl
  refine ⟨_, hexec, hcompletes, ?_⟩
  have hhigh : s.src .w512 ra * s.src .w512 rb / 2 ^ Width.w512.bits < 2 ^ Width.w512.bits :=
    Nat.div_lt_of_lt_mul (src_mul_src_lt s .w512 ra rb)
  calc ((s.writeWide .w512 rd (s.src .w512 ra * s.src .w512 rb)).reg rd).toNat + 2 ^ Width.w512.bits *
        ((s.writeWide .w512 rd (s.src .w512 ra * s.src .w512 rb)).reg (rd + 1)).toNat
      = s.src .w512 ra * s.src .w512 rb % 2 ^ Width.w512.bits +
          2 ^ Width.w512.bits * (s.src .w512 ra * s.src .w512 rb / 2 ^ Width.w512.bits) := by
        rw [writeWide_reg_low, writeWide_reg_high, Nat.mod_eq_of_lt hhigh]
    _ = s.src .w512 ra * s.src .w512 rb := Nat.mod_add_div ..

/-- Settles O32: the product is computed from the state before either write, and fits the register or the pair. -/
theorem mulwWritesWholeProduct : Obligations.MulwWritesWholeProduct := by
  unfold Obligations.MulwWritesWholeProduct
  intro rd ra rb s
  rw [pair_second]
  exact ⟨encodedAs_encode rfl, encodedAs_encode rfl, exec_mulw_w256_next rd ra rb s, exec_mulw_w512_next rd ra rb s⟩

/-! ### MULW and MUL, MULW and MODMUL (R117, R158) -/

/-- A residue by an operand is below 2^W, so the register holds all of it (R146). -/
theorem writeW_residue_reg_toNat (w : Width) (rd rc : Reg) (v : Nat) (s t : State) (h : s.src w rc ≠ 0) :
    ((t.writeW w rd (v % s.src w rc)).reg rd).toNat = v % s.src w rc := by
  have hlt : v % s.src w rc < s.src w rc := Nat.mod_lt _ (Nat.pos_of_ne_zero h)
  rw [writeW_reg_toNat, Nat.mod_eq_of_lt (hlt.trans (src_lt s w rc))]

/-- The one check of a modular command passes when the modulus is not 0 (R146, R217). -/
theorem firstOf_modulusZero {m : Nat} (h : m ≠ 0) : firstOf [(m == 0, .modulusZero)] = none := by
  rw [beq_false_of_ne h]
  rfl

/-- MODRED with a modulus that is not 0 writes the residue (R148). -/
theorem exec_modred_next (w : Width) (rd ra rc : Reg) {s : State} (h : s.src w rc ≠ 0) :
    ∃ t, exec (.modred w rd ra rc) s = .next t ∧ Completes [rd] [] s t ∧
      (t.reg rd).toNat = s.src w ra % s.src w rc := by
  obtain ⟨hexec, hcompletes⟩ := exec_completes (i := .modred w rd ra rc) rfl (firstOf_modulusZero h)
  exact ⟨_, hexec, hcompletes, writeW_residue_reg_toNat w rd rc _ s s h⟩

/-- MODMUL with a modulus that is not 0 writes the residue of the exact product (R151). -/
theorem exec_modmul_next (w : Width) (rd ra rb rc : Reg) {s : State} (h : s.src w rc ≠ 0) :
    ∃ t, exec (.modmul w rd ra rb rc) s = .next t ∧ Completes [rd] [] s t ∧
      (t.reg rd).toNat = s.src w ra * s.src w rb % s.src w rc := by
  obtain ⟨hexec, hcompletes⟩ := exec_completes (i := .modmul w rd ra rb rc) rfl (firstOf_modulusZero h)
  exact ⟨_, hexec, hcompletes, writeW_residue_reg_toNat w rd rc _ s s h⟩

/-- Reading bits 511:0 of a value at a width gives the value modulo 2^W. -/
theorem src_of_reg_mod_w512 {w : Width} {r : Reg} {p : Nat} {s : State}
    (h : (s.reg r).toNat = p % 2 ^ Width.w512.bits) : s.src w r = p % 2 ^ w.bits := by
  have hw : w.bits ≤ Width.w512.bits := by cases w <;> decide
  rw [State.src, h, Nat.mod_mod_of_dvd _ (Nat.pow_dvd_pow 2 hw)]

/-- Settles O33: both hold bits W-1:0 of the product; and the product in `rp` and the modulus are read whole at W = 512. -/
theorem wideProductReducesToModmul : Obligations.WideProductReducesToModmul := by
  unfold Obligations.WideProductReducesToModmul
  constructor
  case left =>
    intro w rd ra rb s
    obtain ⟨t, hmul, -, hlow⟩ := exec_mul_next w rd ra rb s
    obtain ⟨u, hmulw, -, hwide⟩ := exec_mulw_next w rd ra rb s
    exact ⟨t, u, hmul, hmulw, (src_of_reg_toNat hlow).trans (src_of_reg_mod_w512 hwide).symm⟩
  case right =>
    intro rp rd ra rb rc s hne hpos hlt
    obtain ⟨t, hmulw, hcompletes, hproduct⟩ := exec_mulw_w256_next rp ra rb s
    have hrc : rc ∉ [rp] := by simpa using hne.symm
    have hm256 : s.src .w256 rc = (s.reg rc).toNat := Nat.mod_eq_of_lt hlt
    have hm512 : t.src .w512 rc = (s.reg rc).toNat := (hcompletes.src_eq hrc .w512).trans (reg_mod_w512 s rc)
    have hp512 : t.src .w512 rp = s.src .w256 ra * s.src .w256 rb := (reg_mod_w512 t rp).trans hproduct
    obtain ⟨u, hmodred, -, hred⟩ := exec_modred_next .w512 rd rp rc (hm512 ▸ hpos.ne')
    obtain ⟨v, hmodmul, -, hmod⟩ := exec_modmul_next .w256 rd ra rb rc (hm256 ▸ hpos.ne')
    refine ⟨t, u, v, hmulw, hmodred, hmodmul, BitVec.eq_of_toNat_eq ?_⟩
    rw [hred, hmod, hp512, hm512, hm256]

/-! ### The limb primitive `mac` (R111) -/

/-- The largest value of `mac` is 2^(2L) - 1. -/
theorem mul_add_add_lt {m x y c d : Nat} (hx : x < m) (hy : y < m) (hc : c < m) (hd : d < m) :
    x * y + c + d < m * m := by
  have hxy : x * y ≤ (m - 1) * (m - 1) := Nat.mul_le_mul (Nat.le_sub_one_of_lt hx) (Nat.le_sub_one_of_lt hy)
  obtain ⟨k, rfl⟩ := Nat.exists_eq_add_one_of_ne_zero (Nat.ne_zero_of_lt hx)
  rw [Nat.add_sub_cancel] at hxy
  linarith

/-- Both results of `mac` are L-bit values (R111). -/
theorem mac_lt {L x y c d : Nat} (hx : x < 2 ^ L) (hy : y < 2 ^ L) (hc : c < 2 ^ L) (hd : d < 2 ^ L) :
    (mac L x y c d).1 < 2 ^ L ∧ (mac L x y c d).2 < 2 ^ L :=
  ⟨Nat.div_lt_of_lt_mul (mul_add_add_lt hx hy hc hd), Nat.mod_lt _ (Nat.two_pow_pos L)⟩

/-- `mac` loses nothing (R111). -/
theorem mac_value (L x y c d : Nat) : (mac L x y c d).1 * 2 ^ L + (mac L x y c d).2 = x * y + c + d :=
  Nat.div_add_mod' ..

/-! ### Operand scanning (R113) -/

theorem scanRow_length (L a : Nat) {bs ps : List Nat} (carry : Nat) (h : bs.length = ps.length) :
    (scanRow L a bs ps carry).length = bs.length + 1 := by
  induction bs generalizing ps carry with
  | nil => rfl
  | cons b bs ih =>
    obtain ⟨p, ps, rfl⟩ := List.exists_cons_of_length_eq_add_one h.symm
    rw [scanRow, List.length_cons, ih _ (Nat.succ.inj h), List.length_cons]

/-- A row adds `a · b` to the limbs it passes over, and loses nothing (R113). -/
theorem scanRow_value (L a : Nat) {bs ps : List Nat} (carry : Nat) (h : bs.length = ps.length) :
    limbValue L (scanRow L a bs ps carry) = a * limbValue L bs + limbValue L ps + carry := by
  induction bs generalizing ps carry with
  | nil =>
    obtain rfl := List.length_eq_zero_iff.1 h.symm
    simp [scanRow, limbValue]
  | cons b bs ih =>
    obtain ⟨p, ps, rfl⟩ := List.exists_cons_of_length_eq_add_one h.symm
    have hmac := mac_value L a b p carry
    simp only [scanRow, limbValue, ih _ (Nat.succ.inj h)]
    linear_combination hmac

/-- The limbs of a row, its carry included, are L-bit values (R113). -/
theorem scanRow_below {L a : Nat} {bs ps : List Nat} {carry : Nat} (ha : a < 2 ^ L) (hbs : LimbsBelow L bs)
    (hps : LimbsBelow L ps) (hcarry : carry < 2 ^ L) : LimbsBelow L (scanRow L a bs ps carry) := by
  fun_induction scanRow L a bs ps carry with
  | case1 b bs p ps carry ih =>
    obtain ⟨hb, hbs⟩ := limbsBelow_cons.1 hbs
    obtain ⟨hp, hps⟩ := limbsBelow_cons.1 hps
    obtain ⟨hhi, hlo⟩ := mac_lt ha hb hp hcarry
    exact limbsBelow_cons.2 ⟨hlo, ih hbs hps hhi⟩
  | case2 => exact limbsBelow_cons.2 ⟨hcarry, limbsBelow_nil L⟩

/-- A row is the limb it settles, before the limbs the next row goes over. -/
theorem exists_scanRow_eq_cons (L a : Nat) {bs ps : List Nat} (carry : Nat) (h : bs.length = ps.length) :
    ∃ r rest, scanRow L a bs ps carry = r :: rest ∧ bs.length = rest.length := by
  have hlength := scanRow_length L a carry h
  obtain ⟨r, rest, hrow⟩ := List.exists_cons_of_length_eq_add_one hlength
  rw [hrow, List.length_cons] at hlength
  exact ⟨r, rest, hrow, (Nat.succ.inj hlength).symm⟩

/-- The rows settle one limb each and leave the limbs of the last one. -/
theorem scanRows_length (L : Nat) {bs acc : List Nat} (as : List Nat) (h : bs.length = acc.length) :
    (scanRows L bs as acc).length = as.length + bs.length := by
  induction as generalizing acc with
  | nil => rw [scanRows, List.length_nil, h, Nat.zero_add]
  | cons a as ih =>
    obtain ⟨r, rest, hrow, hrest⟩ := exists_scanRow_eq_cons L a 0 h
    simp only [scanRows, hrow, List.headD_cons, List.tail_cons, List.length_cons, ih hrest]
    omega

/-- The rows add the product to the limbs they start from (R113). -/
theorem scanRows_value (L : Nat) {bs acc : List Nat} (as : List Nat) (h : bs.length = acc.length) :
    limbValue L (scanRows L bs as acc) = limbValue L as * limbValue L bs + limbValue L acc := by
  induction as generalizing acc with
  | nil => simp [scanRows, limbValue]
  | cons a as ih =>
    obtain ⟨r, rest, hrow, hrest⟩ := exists_scanRow_eq_cons L a 0 h
    have hvalue := scanRow_value L a 0 h
    rw [hrow, limbValue] at hvalue
    simp only [scanRows, hrow, List.headD_cons, List.tail_cons, limbValue, ih hrest]
    linear_combination hvalue

theorem scanRows_below {L : Nat} {bs as acc : List Nat} (h : bs.length = acc.length) (has : LimbsBelow L as)
    (hbs : LimbsBelow L bs) (hacc : LimbsBelow L acc) : LimbsBelow L (scanRows L bs as acc) := by
  induction as generalizing acc with
  | nil => exact hacc
  | cons a as ih =>
    obtain ⟨ha, has⟩ := limbsBelow_cons.1 has
    obtain ⟨r, rest, hrow, hrest⟩ := exists_scanRow_eq_cons L a 0 h
    have hbelow := scanRow_below ha hbs hacc (Nat.two_pow_pos L)
    rw [hrow, limbsBelow_cons] at hbelow
    obtain ⟨hr, hbelow⟩ := hbelow
    simp only [scanRows, hrow, List.headD_cons, List.tail_cons]
    exact limbsBelow_cons.2 ⟨hr, ih hrest has hbelow⟩

/-! ### The product of two limb lists (R113) -/

theorem limbsBelow_replicate_zero (L n : Nat) : LimbsBelow L (List.replicate n 0) := fun _ ha =>
  List.eq_of_mem_replicate ha ▸ Nat.two_pow_pos L

theorem limbValue_replicate_zero (L n : Nat) : limbValue L (List.replicate n 0) = 0 := by
  induction n with
  | zero => rfl
  | succ n ih => rw [List.replicate_succ, limbValue, ih, Nat.mul_zero]

theorem mulLimbs_length (L : Nat) (as bs : List Nat) : (mulLimbs L as bs).length = as.length + bs.length :=
  scanRows_length L as List.length_replicate.symm

/-- Operand scanning gives the exact product (R113). -/
theorem mulLimbs_value (L : Nat) (as bs : List Nat) : limbValue L (mulLimbs L as bs) = limbValue L as * limbValue L bs := by
  rw [mulLimbs, scanRows_value L as List.length_replicate.symm, limbValue_replicate_zero, Nat.add_zero]

theorem mulLimbs_below {L : Nat} {as bs : List Nat} (has : LimbsBelow L as) (hbs : LimbsBelow L bs) :
    LimbsBelow L (mulLimbs L as bs) :=
  scanRows_below List.length_replicate.symm has hbs (limbsBelow_replicate_zero L _)

/-- The low n limbs of a list are its value modulo 2^(L·n). -/
theorem limbValue_take {L : Nat} {as : List Nat} (n : Nat) (h : LimbsBelow L as) :
    limbValue L (as.take n) = limbValue L as % 2 ^ (L * n) := by
  induction as generalizing n with
  | nil => rw [List.take_nil, limbValue, Nat.zero_mod]
  | cons a as ih =>
    obtain ⟨ha, has⟩ := limbsBelow_cons.1 h
    cases n with
    | zero => rw [List.take_zero, Nat.mul_zero, Nat.pow_zero, Nat.mod_one, limbValue]
    | succ n =>
      rw [List.take_succ_cons, limbValue, ih n has, limbValue, two_pow_limb_succ, Nat.mod_mul,
        Nat.add_mul_mod_self_left, Nat.mod_eq_of_lt ha, Nat.add_mul_div_left _ _ (Nat.two_pow_pos L),
        Nat.div_eq_of_lt ha, Nat.zero_add]

/-- Settles O55: `mac` fits 2L bits, and every row of operand scanning loses nothing. -/
theorem limbMultiplierIsExact : Obligations.LimbMultiplierIsExact := by
  unfold Obligations.LimbMultiplierIsExact
  constructor
  case left =>
    intro L x y c d hx hy hc hd
    obtain ⟨hhi, hlo⟩ := mac_lt hx hy hc hd
    exact ⟨hhi, hlo, mac_value L x y c d⟩
  case right =>
    intro L n a b ha hb
    have hvalue : limbValue L (mulLimbs L (limbsOf L n a) (limbsOf L n b)) = a * b := by
      rw [mulLimbs_value, limbValue_limbsOf ha, limbValue_limbsOf hb]
    refine ⟨?_, hvalue, ?_⟩
    · rw [mulLimbs_length, limbsOf_length, limbsOf_length, Nat.two_mul]
    · rw [limbValue_take n (mulLimbs_below (limbsOf_below L n a) (limbsOf_below L n b)), hvalue]

end Sys2Proof.Machine
end

section
/-! The Wallace and the Dadda tree (O56). Every stage keeps the sum of the weighted bits modulo 2^(2L), the carries out of the
top column being all that is lost; the last Dadda stage, and 2L Wallace stages, leave at most two bits in each column; and the
columns of the partial products start with the bits of the rows x_i · 2^i · y and of the addends. -/

namespace Sys2Proof.Machine

/-! ### Columns -/

/-- The number of bits of a column that are 1. -/
def columnSum (c : List Bool) : Nat := (c.map Bool.toNat).sum

@[simp] theorem columnSum_nil : columnSum [] = 0 := rfl

@[simp] theorem columnSum_cons (b : Bool) (c : List Bool) : columnSum (b :: c) = b.toNat + columnSum c := by
  rw [columnSum, List.map_cons, List.sum_cons, columnSum]

@[simp] theorem columnSum_append (c d : List Bool) : columnSum (c ++ d) = columnSum c + columnSum d := by
  rw [columnSum, List.map_append, List.sum_append, columnSum, columnSum]

/-- The first column has weight 1, and each column twice the weight of the one before (R114). -/
theorem columnsValue_cons (c : List Bool) (cols : Columns) :
    columnsValue (c :: cols) = columnSum c + 2 * columnsValue cols := by
  have hcount : (c.filter id).length = columnSum c := by
    induction c with
    | nil => rfl
    | cons b c ih => cases b <;> simp [ih, Nat.add_comm]
  rw [columnsValue, hcount]

/-- Every column has at most `h` bits. -/
def HeightAtMost (h : Nat) (cols : Columns) : Prop := ∀ c ∈ cols, c.length ≤ h

theorem heightAtMost_nil (h : Nat) : HeightAtMost h [] := List.forall_mem_nil _

theorem heightAtMost_cons {h : Nat} {c : List Bool} {cols : Columns} :
    HeightAtMost h (c :: cols) ↔ c.length ≤ h ∧ HeightAtMost h cols :=
  List.forall_mem_cons

/-- What a reduction of columns with carries into the first of them keeps: the number of columns, and the weighted sum of the
bits, up to the carries out of the top column (R114). -/
def KeepsSum (carries : List Bool) (before after : Columns) : Prop :=
  after.length = before.length ∧
    columnsValue after ≡ columnSum carries + columnsValue before [MOD 2 ^ before.length]

theorem keepsSum_refl (cols : Columns) : KeepsSum [] cols cols := ⟨rfl, by simp [Nat.ModEq.refl]⟩

theorem KeepsSum.trans {a b c : Columns} (hab : KeepsSum [] a b) (hbc : KeepsSum [] b c) : KeepsSum [] a c := by
  obtain ⟨hlab, hvab⟩ := hab
  obtain ⟨hlbc, hvbc⟩ := hbc
  rw [columnSum_nil, Nat.zero_add] at hvab hvbc
  rw [hlab] at hvbc
  exact ⟨hlbc.trans hlab, by simpa using hvbc.trans hvab⟩

/-- The carries into any number of columns are lost when there is none. -/
theorem keepsSum_nil (carries : List Bool) : KeepsSum carries [] [] := ⟨rfl, Nat.modEq_one⟩

/-- A reduction goes column by column: the carries out of one column are the carries into the next. -/
theorem keepsSum_cons {carries c bits out : List Bool} {rest rest' : Columns}
    (hcol : columnSum bits + 2 * columnSum out = columnSum c + columnSum carries) (hrest : KeepsSum out rest rest') :
    KeepsSum carries (c :: rest) (bits :: rest') := by
  obtain ⟨hlength, hvalue⟩ := hrest
  refine ⟨by rw [List.length_cons, hlength, List.length_cons], ?_⟩
  rw [columnsValue_cons, columnsValue_cons, List.length_cons, Nat.pow_succ']
  calc columnSum bits + 2 * columnsValue rest'
      ≡ columnSum bits + 2 * (columnSum out + columnsValue rest) [MOD 2 * 2 ^ rest.length] :=
        (hvalue.mul_left' 2).add_left _
    _ = columnSum carries + (columnSum c + 2 * columnsValue rest) := by omega

/-! ### The two cells (R114) -/

theorem fullAdder_value (u v t : Bool) :
    (fullAdder u v t).1.toNat + 2 * (fullAdder u v t).2.toNat = u.toNat + v.toNat + t.toNat := by
  revert u v t
  decide

theorem halfAdder_value (u v : Bool) : (halfAdder u v).1.toNat + 2 * (halfAdder u v).2.toNat = u.toNat + v.toNat := by
  revert u v
  decide

/-! ### The Dadda tree -/

/-- The cells of a Dadda column keep the weighted sum of its bits. -/
theorem daddaColumn_value (d fuel : Nat) (col : List Bool) :
    columnSum (daddaColumn d fuel col).1 + 2 * columnSum (daddaColumn d fuel col).2 = columnSum col := by
  fun_induction daddaColumn d fuel col with
  | case1 | case4 => rfl
  | case2 fuel u v t rest =>
    have hcell := halfAdder_value u v
    simp only [columnSum_append, columnSum_cons, columnSum_nil]
    omega
  | case3 fuel u v t rest _ _ next ih =>
    have hcell := fullAdder_value u v t
    simp only [next, columnSum_append, columnSum_cons, columnSum_nil] at ih ⊢
    omega

/-- A pass that applies a full adder takes two bits from the column, so enough passes reach the height of the stage. -/
theorem daddaColumn_height {d fuel : Nat} {col : List Bool} (hd : 2 ≤ d) (hfuel : col.length ≤ fuel) :
    (daddaColumn d fuel col).1.length ≤ d := by
  induction fuel generalizing col with
  | zero =>
    obtain rfl := List.length_eq_zero_iff.1 (Nat.le_zero.1 hfuel)
    exact Nat.zero_le d
  | succ fuel ih =>
    match col with
    | [] => exact Nat.zero_le d
    | [_] => exact Nat.le_of_succ_le hd
    | [_, _] => exact hd
    | u :: v :: t :: rest =>
      simp only [List.length_cons] at hfuel
      rw [daddaColumn]
      split_ifs with hle heq
      · exact hle
      · simp only [List.length_append, List.length_cons, List.length_nil]
        omega
      · refine ih ?_
        simp only [List.length_append, List.length_cons, List.length_nil]
        omega

theorem daddaStage_keepsSum (d : Nat) (carries : List Bool) (cols : Columns) :
    KeepsSum carries cols (daddaStage d carries cols) := by
  fun_induction daddaStage d carries cols with
  | case1 carries => exact keepsSum_nil carries
  | case2 carries c rest col ih =>
    exact keepsSum_cons ((daddaColumn_value ..).trans (columnSum_append c carries)) ih

theorem daddaStage_height {d : Nat} (hd : 2 ≤ d) (carries : List Bool) (cols : Columns) :
    HeightAtMost d (daddaStage d carries cols) := by
  fun_induction daddaStage d carries cols with
  | case1 => exact heightAtMost_nil d
  | case2 carries c rest col ih =>
    exact heightAtMost_cons.2 ⟨daddaColumn_height hd (by rw [List.length_append]), ih⟩

theorem daddaStages_keepsSum (heights : List Nat) (cols : Columns) :
    KeepsSum [] cols (heights.foldl (fun cs d => daddaStage d [] cs) cols) := by
  induction heights generalizing cols with
  | nil => exact keepsSum_refl cols
  | cons d heights ih => exact (daddaStage_keepsSum d [] cols).trans (ih _)

/-- The last stage of a Dadda tree is the one of height 2 (R114). -/
theorem daddaTree_eq_lastStage {h : Nat} (hh : 2 < h) (cols : Columns) :
    ∃ reduced, daddaTree h cols = daddaStage 2 [] reduced := by
  obtain ⟨fuel, rfl⟩ := Nat.exists_eq_add_one_of_ne_zero (Nat.ne_zero_of_lt hh)
  rw [daddaTree, daddaHeights, if_pos hh, List.foldl_append]
  exact ⟨_, rfl⟩

theorem daddaTree_height {h : Nat} (hh : 2 < h) (cols : Columns) : HeightAtMost 2 (daddaTree h cols) := by
  obtain ⟨reduced, htree⟩ := daddaTree_eq_lastStage hh cols
  rw [htree]
  exact daddaStage_height (Nat.le_refl 2) [] reduced

/-! ### The Wallace tree -/

/-- The cells of a Wallace column keep the weighted sum of its bits. -/
theorem wallaceColumn_value (col : List Bool) :
    columnSum (wallaceColumn col).1 + 2 * columnSum (wallaceColumn col).2 = columnSum col := by
  fun_induction wallaceColumn col with
  | case1 u v t rest next ih =>
    have hcell := fullAdder_value u v t
    simp only [next, columnSum_cons]
    omega
  | case2 u v =>
    have hcell := halfAdder_value u v
    simp only [columnSum_cons, columnSum_nil]
    omega
  | case3 => rfl

/-- Three bits leave one bit and one carry, and so does a leftover pair. -/
theorem wallaceColumn_lengths (col : List Bool) :
    (wallaceColumn col).1.length = (col.length + 2) / 3 ∧ (wallaceColumn col).2.length = (col.length + 1) / 3 := by
  fun_induction wallaceColumn col with
  | case1 u v t rest next ih =>
    obtain ⟨hbits, hcarries⟩ := ih
    simp only [next, List.length_cons]
    omega
  | case2 => simp
  | case3 col hmany hpair =>
    match col, hmany, hpair with
    | [], _, _ | [_], _, _ => simp
    | [u, v], _, hpair => exact (hpair u v rfl).elim
    | u :: v :: t :: rest, hmany, _ => exact (hmany u v t rest rfl).elim

theorem wallaceStage_keepsSum (carries : List Bool) (cols : Columns) :
    KeepsSum carries cols (wallaceStage carries cols) := by
  fun_induction wallaceStage carries cols with
  | case1 carries => exact keepsSum_nil carries
  | case2 carries c rest ih =>
    refine keepsSum_cons ?_ ih
    rw [columnSum_append, ← wallaceColumn_value c]
    omega

/-- A stage lowers the height while it is above 2: a column keeps a third of its bits, rounded up, and gets the carries of a
column that is no higher. -/
theorem wallaceStage_height {h : Nat} (hh : 2 ≤ h) {carries : List Bool} {cols : Columns}
    (hcarries : carries.length ≤ (h + 2) / 3) (hcols : HeightAtMost (h + 1) cols) :
    HeightAtMost h (wallaceStage carries cols) := by
  fun_induction wallaceStage carries cols with
  | case1 => exact heightAtMost_nil h
  | case2 carries c rest ih =>
    obtain ⟨hc, hrest⟩ := heightAtMost_cons.1 hcols
    obtain ⟨hbits, hout⟩ := wallaceColumn_lengths c
    refine heightAtMost_cons.2 ⟨?_, ih (by omega) hrest⟩
    rw [List.length_append]
    omega

theorem wallaceTree_keepsSum (fuel : Nat) (cols : Columns) : KeepsSum [] cols (wallaceTree fuel cols) := by
  fun_induction wallaceTree fuel cols with
  | case1 cols | case2 _ cols => exact keepsSum_refl cols
  | case3 _ cols _ ih => exact (wallaceStage_keepsSum [] cols).trans ih

/-- A tree of n stages reduces columns of at most n + 2 bits. -/
theorem wallaceTree_height {fuel : Nat} {cols : Columns} (hcols : HeightAtMost (fuel + 2) cols) :
    HeightAtMost 2 (wallaceTree fuel cols) := by
  fun_induction wallaceTree fuel cols with
  | case1 => exact hcols
  | case2 _ cols hdone => simpa [HeightAtMost] using hdone
  | case3 fuel cols _ ih => exact ih (wallaceStage_height (Nat.le_add_left 2 fuel) (Nat.zero_le _) hcols)

/-! ### The carry-propagate adder -/

/-- The two rows of columns of at most two bits hold the whole value. -/
theorem rowValues_of_height {cols : Columns} (h : HeightAtMost 2 cols) :
    rowValue 0 cols + rowValue 1 cols = columnsValue cols := by
  induction cols with
  | nil => rfl
  | cons c cols ih =>
    obtain ⟨hc, hcols⟩ := heightAtMost_cons.1 h
    have hbits : (c.getD 0 false).toNat + (c.getD 1 false).toNat = columnSum c := by
      match c, hc with
      | [], _ | [_], _ | [_, _], _ => simp
    rw [rowValue, rowValue, columnsValue_cons, ← ih hcols, ← hbits]
    omega

/-- The adder gives the value that columns of at most two bits hold modulo 2^(2L) (R114). -/
theorem addRows_of_height {L v : Nat} {cols : Columns} (h : HeightAtMost 2 cols) (hv : v < 2 ^ (2 * L))
    (hvalue : columnsValue cols ≡ v [MOD 2 ^ (2 * L)]) : addRows L cols = v := by
  rw [addRows, rowValues_of_height h]
  exact Nat.mod_eq_of_modEq hvalue hv

/-! ### The partial products (R114) -/

/-- Row i of the partial products: x_i · 2^i · y. -/
def partialRow (x y i : Nat) : Nat := (x.testBit i).toNat * (2 ^ i * y)

/-- The rows of a multiplication with further addends. -/
def productRows (L x y : Nat) (addends : List Nat) : List Nat := (List.range L).map (partialRow x y) ++ addends

/-- The first n rows of the partial products are the low n bits of x times y. -/
theorem partialRows_sum (x y n : Nat) : ((List.range n).map (partialRow x y)).sum = x % 2 ^ n * y := by
  induction n with
  | zero => simp [Nat.mod_one]
  | succ n ih =>
    rw [List.sum_range_succ, ih, partialRow, Nat.toNat_testBit, Nat.mod_pow_succ]
    ring

/-- The rows of a multiplication make up its result. -/
theorem productRows_sum {L x : Nat} (y : Nat) (addends : List Nat) (hx : x < 2 ^ L) :
    (productRows L x y addends).sum = x * y + addends.sum := by
  rw [productRows, List.sum_append, partialRows_sum, Nat.mod_eq_of_lt hx]

/-- Bit k of row i is the partial product x_i · y_(k-i), when there is one. -/
theorem partialRow_testBit {L y : Nat} (x i k : Nat) (hy : y < 2 ^ L) :
    (partialRow x y i).testBit k = (decide (i ≤ k ∧ k - i < L) && (x.testBit i && y.testBit (k - i))) := by
  by_cases hk : k - i < L
  · cases hx : x.testBit i <;> simp [partialRow, hx, hk, Nat.testBit_two_pow_mul]
  · have hhigh : y.testBit (k - i) = false :=
      Nat.testBit_lt_two_pow (hy.trans_le (Nat.pow_le_pow_right Nat.two_pos (Nat.le_of_not_lt hk)))
    cases hx : x.testBit i <;> simp [partialRow, hx, hk, hhigh, Nat.testBit_two_pow_mul]

theorem columnSum_map_filter {α : Type} (p f : α → Bool) (l : List α) :
    columnSum ((l.filter p).map f) = columnSum (l.map fun a => p a && f a) := by
  induction l with
  | nil => rfl
  | cons a l ih => cases h : p a <;> simp [h, ih]

/-- The addends stand in the low L columns, and have no bits above them. -/
theorem columnSum_addends {L : Nat} {addends : List Nat} (k : Nat) (h : LimbsBelow L addends) :
    columnSum (if k < L then addends.map (fun a => a.testBit k) else []) = columnSum (addends.map fun a => a.testBit k) := by
  split_ifs with hk
  · rfl
  · have hzero : addends.map (fun a => a.testBit k) = addends.map fun _ => false := List.map_congr_left fun a ha =>
      Nat.testBit_lt_two_pow ((h a ha).trans_le (Nat.pow_le_pow_right Nat.two_pos (Nat.le_of_not_lt hk)))
    rw [hzero]
    simp [columnSum]

/-- Column k holds bit k of each row, up to bits that are 0. -/
theorem productColumn_sum {L y : Nat} {addends : List Nat} (x k : Nat) (hy : y < 2 ^ L) (h : LimbsBelow L addends) :
    columnSum (productColumn L x y addends k) = columnSum ((productRows L x y addends).map fun r => r.testBit k) := by
  rw [productColumn, columnSum_append, columnSum_map_filter, columnSum_addends k h, productRows, List.map_append,
    columnSum_append, List.map_map]
  simp only [Function.comp_def, partialRow_testBit x _ k hy]

/-- Each row is its bit 0 and twice the half of it. -/
theorem columnSum_add_halves (rows : List Nat) :
    columnSum (rows.map fun r => r.testBit 0) + 2 * (rows.map (· / 2)).sum = rows.sum := by
  induction rows with
  | nil => rfl
  | cons r rows ih =>
    have hrow : (r.testBit 0).toNat + 2 * (r / 2) = r := by
      rw [Nat.toNat_testBit, Nat.pow_zero, Nat.div_one, Nat.mod_add_div]
    simp only [List.map_cons, columnSum_cons, List.sum_cons]
    omega

/-- Columns that hold the bits of rows have the value of the rows, modulo the weight above the top column. -/
theorem columnsValue_of_rows {n : Nat} {column : Nat → List Bool} {rows : List Nat}
    (h : ∀ k, columnSum (column k) = columnSum (rows.map fun r => r.testBit k)) :
    columnsValue ((List.range n).map column) ≡ rows.sum [MOD 2 ^ n] := by
  induction n generalizing column rows with
  | zero => exact Nat.modEq_one
  | succ n ih =>
    have hrest := ih (column := fun k => column (k + 1)) (rows := rows.map (· / 2)) fun k => by
      simp only [h (k + 1), List.map_map, Function.comp_def, Nat.testBit_add_one]
    rw [List.range_succ_eq_map, List.map_cons, List.map_map, columnsValue_cons, h 0, ← columnSum_add_halves rows,
      Nat.pow_succ']
    exact (hrest.mul_left' 2).add_left _

theorem productColumns_value {L x y : Nat} {addends : List Nat} (hx : x < 2 ^ L) (hy : y < 2 ^ L)
    (h : LimbsBelow L addends) :
    columnsValue (productColumns L x y addends) ≡ x * y + addends.sum [MOD 2 ^ (2 * L)] := by
  rw [← productRows_sum y addends hx]
  exact columnsValue_of_rows fun k => productColumn_sum x k hy h

theorem productColumns_length (L x y : Nat) (addends : List Nat) : (productColumns L x y addends).length = 2 * L := by
  rw [productColumns, List.length_map, List.length_range]

/-- The tallest column has L bits and one for each addend. -/
theorem productColumns_height (L x y : Nat) (addends : List Nat) :
    HeightAtMost (L + addends.length) (productColumns L x y addends) := by
  intro c hc
  obtain ⟨k, -, rfl⟩ := List.mem_map.1 hc
  rw [productColumn, List.length_append, List.length_map]
  refine Nat.add_le_add ((List.length_filter_le ..).trans_eq List.length_range) ?_
  split_ifs
  · rw [List.length_map]
  · exact Nat.zero_le _

/-! ### The products -/

/-- A tree that keeps the sum of the partial products and leaves two rows gives the product plus the addends. -/
theorem addRows_of_keepsSum {L x y : Nat} {addends : List Nat} {reduced : Columns} (hx : x < 2 ^ L) (hy : y < 2 ^ L)
    (haddends : LimbsBelow L addends) (hfit : x * y + addends.sum < 2 ^ (2 * L))
    (hkeeps : KeepsSum [] (productColumns L x y addends) reduced) (hheight : HeightAtMost 2 reduced) :
    addRows L reduced = x * y + addends.sum := by
  obtain ⟨-, hvalue⟩ := hkeeps
  rw [columnSum_nil, Nat.zero_add, productColumns_length] at hvalue
  exact addRows_of_height hheight hfit (hvalue.trans (productColumns_value hx hy haddends))

/-- Both trees give the product plus the addends at every limb width above 2. -/
theorem treeProducts_eq {L x y : Nat} {addends : List Nat} (hL : 2 < L) (hx : x < 2 ^ L) (hy : y < 2 ^ L)
    (haddends : LimbsBelow L addends) (hcount : addends.length ≤ L) (hfit : x * y + addends.sum < 2 ^ (2 * L)) :
    daddaProduct L x y addends = x * y + addends.sum ∧ wallaceProduct L x y addends = x * y + addends.sum := by
  constructor
  case left =>
    exact addRows_of_keepsSum hx hy haddends hfit (daddaStages_keepsSum ..) (daddaTree_height (by omega) _)
  case right =>
    have hstart : HeightAtMost (2 * L + 2) (productColumns L x y addends) := fun c hc =>
      (productColumns_height L x y addends c hc).trans (by omega)
    exact addRows_of_keepsSum hx hy haddends hfit (wallaceTree_keepsSum ..) (wallaceTree_height hstart)

/-- Settles O56: the trees are sound at every limb width above 2, and the largest value of `mac` fits 2L bits. -/
theorem reductionTreesMultiply : Obligations.ReductionTreesMultiply := by
  unfold Obligations.ReductionTreesMultiply
  intro L hL x y c d hx hy hc hd
  have hwidths : ∀ L ∈ Config.legalLimbBits, 2 < L := by decide
  have hwide : 2 < L := hwidths L hL
  have hmac : x * y + c + d < 2 ^ (2 * L) := by
    rw [Nat.two_mul, Nat.pow_add]
    exact mul_add_add_lt hx hy hc hd
  obtain ⟨hdadda, hwallace⟩ := treeProducts_eq (addends := []) hwide hx hy (limbsBelow_nil L) (Nat.zero_le L)
    (by rw [List.sum_nil]; omega)
  obtain ⟨hdaddaMac, hwallaceMac⟩ := treeProducts_eq (addends := [c, d]) hwide hx hy (by simp [hc, hd]) hwide.le
    (by simpa [← Nat.add_assoc] using hmac)
  refine ⟨hdadda, hwallace, ?_, ?_⟩
  · simpa [← Nat.add_assoc] using hdaddaMac
  · simpa [← Nat.add_assoc] using hwallaceMac

end Sys2Proof.Machine
end

section
/-! The divider: DIVREM (O34), and the methods of restoring division and of Barrett reduction (O58). One bit brought
down doubles the quotient and the remainder so far; Barrett's estimate is at most two below the quotient. -/

namespace Sys2Proof.Machine

/-! ### DIVREM (R125) -/

/-- The encoding of a term that is no command is refused for the one reason there is, two equal destinations (R125). -/
theorem decode_encode_of_not_wellFormed {i : Instr} (h : i.wellFormed = false) :
    decode (encode i) = .error .divremSameDestination := by
  obtain ⟨row, hrow, hmatch, hop⟩ := exists_row_of_encode i
  have hoperands : row.op.operands (encode i) = i := by rw [hop, operands_encode]
  simp [decode, rowOfOpcode_of_matches hrow hmatch, OpRow.matchesWord, hmatch, hoperands, h]

theorem raises_divrem_of_eq {rd rc : Reg} (h : rd = rc) (w : Width) (ra rb : Reg) (s : State) :
    raises (.divrem w rd ra rb rc) s = some .illegalCommand := if_pos (beq_iff_eq.2 h)

theorem raises_divrem_of_ne {rd rc : Reg} (h : rd ≠ rc) (w : Width) (ra rb : Reg) (s : State) :
    raises (.divrem w rd ra rb rc) s = if s.src w rb = 0 then some .divisionByZero else none := by
  simp [raises, firstOf, h]

/-- DIVREM with two destinations and a divisor that is not 0 writes both results, each whole (R125). -/
theorem exec_divrem_next {w : Width} {rd rb rc : Reg} {s : State} (hne : rd ≠ rc) (hb : s.src w rb ≠ 0) (ra : Reg) :
    ∃ t, exec (.divrem w rd ra rb rc) s = .next t ∧ Completes [rd, rc] [] s t ∧
      (t.reg rd).toNat = s.src w ra / s.src w rb ∧ (t.reg rc).toNat = s.src w ra % s.src w rb := by
  have hraises : raises (.divrem w rd ra rb rc) s = none := by rw [raises_divrem_of_ne hne, if_neg hb]
  obtain ⟨hexec, hcompletes⟩ := exec_completes rfl hraises
  refine ⟨_, hexec, hcompletes, ?quotient, ?remainder⟩
  case quotient =>
    refine (congrArg BitVec.toNat (writeW_reg_other w rc rd _ _ hne)).trans ?_
    rw [writeW_reg_toNat, Nat.mod_eq_of_lt ((Nat.div_le_self ..).trans_lt (src_lt s w ra))]
  case remainder =>
    have hrem : s.src w ra - s.src w ra / s.src w rb * s.src w rb = s.src w ra % s.src w rb := by
      rw [Nat.mul_comm, Nat.mod_eq_sub]
    simp only [State.effect, hrem]
    exact writeW_residue_reg_toNat w rc rb _ s _ hb

/-- Settles O34: the checks of DIVREM in their order, and its results by the division of naturals. -/
theorem divremWritesQuotientAndRemainder : Obligations.DivremWritesQuotientAndRemainder := by
  unfold Obligations.DivremWritesQuotientAndRemainder
  intro w rd ra rb rc s
  refine ⟨fun hne => ?encoded, fun heq => ⟨?refused, ?illegal⟩, fun hne hzero => ?zero, fun hne hb => ?divides⟩
  case encoded => exact encodedAs_encode (bne_iff_ne.2 hne)
  case refused => exact decode_encode_of_not_wellFormed (i := .divrem w rd ra rb rc) (by simp [Instr.wellFormed, heq])
  case illegal => exact exec_failsWith (raises_divrem_of_eq heq w ra rb s)
  case zero => exact exec_failsWith (by rw [raises_divrem_of_ne hne, if_pos hzero])
  case divides =>
    obtain ⟨t, hexec, hcompletes, hquotient, hremainder⟩ := exec_divrem_next hne hb ra
    refine ⟨t, hexec, hcompletes, ?_⟩
    rw [hquotient, hremainder]
    exact ⟨(Nat.div_add_mod ..).symm, Nat.mod_lt _ (Nat.pos_of_ne_zero hb)⟩

/-! ### Restoring division (R126) -/

/-- The bits of a number from bit i on are those from bit i + 1 on with bit i below them. -/
theorem div_two_pow_eq_two_mul_add_testBit (a i : Nat) :
    a / 2 ^ i = 2 * (a / 2 ^ (i + 1)) + (a.testBit i).toNat := by
  rw [Nat.pow_succ, ← Nat.div_div_eq_div_mul, Nat.toNat_testBit, Nat.div_add_mod]

/-- Long division of x, one bit c brought down: the remainder so far takes the bit, and b is subtracted if it fits. -/
theorem div_mod_bringDown {b c : Nat} (hb : 0 < b) (hc : c ≤ 1) (x : Nat) :
    (2 * x + c) / b = 2 * (x / b) + (if b ≤ 2 * (x % b) + c then 1 else 0) ∧
      (2 * x + c) % b = if b ≤ 2 * (x % b) + c then 2 * (x % b) + c - b else 2 * (x % b) + c := by
  have hx : b * (x / b) + x % b = x := Nat.div_add_mod x b
  have hr : x % b < b := Nat.mod_lt x hb
  rw [Nat.div_mod_unique hb, Nat.mul_add, Nat.mul_left_comm]
  split_ifs <;> omega

/-- The invariant of R126: from the quotient and the remainder of `a / 2^i` the steps below `i` reach those of `a`. -/
theorem restoringSteps_eq {b : Nat} (hb : 0 < b) (a i : Nat) :
    restoringSteps a b i (2 ^ i * (a / 2 ^ i / b)) (a / 2 ^ i % b) = (a / b, a % b) := by
  induction i with
  | zero => simp [restoringSteps]
  | succ i ih =>
    obtain ⟨hq, hr⟩ := div_mod_bringDown hb (Bool.toNat_le (a.testBit i)) (a / 2 ^ (i + 1))
    rw [div_two_pow_eq_two_mul_add_testBit a i, hq, hr] at ih
    rw [restoringSteps, ← ih, Nat.pow_succ, Nat.mul_assoc, Nat.mul_add]
    split_ifs <;> simp

theorem restoringDivide_eq {W a b : Nat} (ha : a < 2 ^ W) (hb : 0 < b) : restoringDivide W a b = (a / b, a % b) := by
  have h := restoringSteps_eq hb a W
  rwa [Nat.div_eq_of_lt ha, Nat.zero_div, Nat.mul_zero, Nat.zero_mod] at h

/-! ### Barrett reduction (R156) -/

/-- One correction: the modulus is subtracted if it fits. -/
def correctOnce (m r : Nat) : Nat := if m ≤ r then r - m else r

theorem correctOnce_mod (m r : Nat) : correctOnce m r % m = r % m := by
  rw [correctOnce]
  split_ifs with h
  · exact (Nat.mod_eq_sub_mod h).symm
  · rfl

/-- Two corrections reach the residue from below 3m. -/
theorem correctOnce_correctOnce_eq_mod {m r : Nat} (h : r < 3 * m) : correctOnce m (correctOnce m r) = r % m := by
  have hlt : correctOnce m (correctOnce m r) < m := by
    simp only [correctOnce]
    split_ifs <;> omega
  calc correctOnce m (correctOnce m r)
      = correctOnce m (correctOnce m r) % m := (Nat.mod_eq_of_lt hlt).symm
    _ = r % m := by rw [correctOnce_mod, correctOnce_mod]

/-- The estimate of a quotient by m for the radices A and B: x without its low digit, times the reciprocal of m scaled
by A·B (R156). -/
def quotientEstimate (A B m x : Nat) : Nat := x / A * (A * B / m) / B

/-- The estimate is never above the quotient. -/
theorem quotientEstimate_mul_le {A B : Nat} (hA : 0 < A) (hB : 0 < B) (m x : Nat) :
    quotientEstimate A B m x * m ≤ x := by
  refine Nat.le_of_mul_le_mul_right ?_ (Nat.mul_pos hA hB)
  calc quotientEstimate A B m x * m * (A * B)
      = quotientEstimate A B m x * B * (A * m) := by ring
    _ ≤ x / A * (A * B / m) * (A * m) := Nat.mul_le_mul_right _ (Nat.div_mul_le_self ..)
    _ = x / A * A * (A * B / m * m) := by ring
    _ ≤ x * (A * B) := Nat.mul_le_mul (Nat.div_mul_le_self ..) (Nat.div_mul_le_self ..)

/-- The estimate is at most two below the quotient when the modulus has its top digit and x has two digits. -/
theorem lt_quotientEstimate_add_three_mul {A B m x : Nat} (hA : 0 < A) (hm : A ≤ m) (hx : x < A * B) :
    x < (quotientEstimate A B m x + 3) * m := by
  have hB : 0 < B := Nat.pos_of_mul_pos_left (Nat.zero_lt_of_lt hx)
  have hm0 : 0 < m := hA.trans_le hm
  set mu := A * B / m
  set q := quotientEstimate A B m x
  have htop : x ≤ A * (x / A + 1) := (Nat.lt_mul_div_succ x hA).le
  have hmu : A * B ≤ m * (mu + 1) := (Nat.lt_mul_div_succ (A * B) hm0).le
  have hq : x / A * mu ≤ B * (q + 1) := (Nat.lt_mul_div_succ _ hB).le
  have hAmu : A * mu ≤ A * B := (Nat.mul_le_mul_right mu hm).trans (Nat.mul_div_le ..)
  have hxmu : x * mu ≤ A * B * (q + 2) := calc
    x * mu ≤ A * (x / A + 1) * mu := Nat.mul_le_mul_right mu htop
    _ = A * (x / A * mu) + A * mu := by ring
    _ ≤ A * (B * (q + 1)) + A * B := Nat.add_le_add (Nat.mul_le_mul_left A hq) hAmu
    _ = A * B * (q + 2) := by ring
  refine Nat.lt_of_mul_lt_mul_right (a := A * B) ?_
  calc x * (A * B)
      ≤ x * (m * (mu + 1)) := Nat.mul_le_mul_left x hmu
    _ = m * (x * mu + x) := by ring
    _ < m * (A * B * (q + 2) + A * B) := Nat.mul_lt_mul_of_pos_left (Nat.add_lt_add_of_le_of_lt hxmu hx) hm0
    _ = (q + 3) * m * (A * B) := by ring

/-- The radices of Barrett reduction are the two parts of 2^(2k), on either side of bit k - 1. -/
theorem two_pow_two_mul_bitLength (m : Nat) :
    2 ^ (2 * bitLength m) = 2 ^ (bitLength m - 1) * 2 ^ (bitLength m + 1) := by
  rw [← Nat.pow_add]
  congr 1
  simp only [bitLength]
  omega

/-- The modulus has its top bit, bit k - 1 (R156). -/
theorem two_pow_bitLength_sub_one_le {m : Nat} (hm : 0 < m) : 2 ^ (bitLength m - 1) ≤ m := Nat.log2_self_le hm.ne'

/-- Barrett reduction is two corrections of what the estimate leaves. -/
theorem barrett_eq_correctOnce (m x : Nat) : barrett m x =
    correctOnce m (correctOnce m (x - quotientEstimate (2 ^ (bitLength m - 1)) (2 ^ (bitLength m + 1)) m x * m)) := by
  rw [quotientEstimate, ← two_pow_two_mul_bitLength]
  rfl

theorem barrett_eq_mod {m x : Nat} (hm : 0 < m) (hx : x < 2 ^ (2 * bitLength m)) : barrett m x = x % m := by
  rw [two_pow_two_mul_bitLength] at hx
  have hle := quotientEstimate_mul_le (Nat.two_pow_pos (bitLength m - 1)) (Nat.two_pow_pos (bitLength m + 1)) m x
  have hlt := lt_quotientEstimate_add_three_mul (Nat.two_pow_pos _) (two_pow_bitLength_sub_one_le hm) hx
  rw [barrett_eq_correctOnce, correctOnce_correctOnce_eq_mod, Nat.mul_comm, Nat.sub_mul_mod]
  · rwa [Nat.mul_comm]
  · rw [Nat.add_mul] at hlt
    omega

/-- Settles O58: the invariant of restoring division from the top bit on, and the bounds of Barrett's estimate. -/
theorem restoringDivisionAndBarrettDivide : Obligations.RestoringDivisionAndBarrettDivide := by
  unfold Obligations.RestoringDivisionAndBarrettDivide
  exact ⟨fun _ _ _ ha hb => restoringDivide_eq ha hb, fun _ _ hm hx => barrett_eq_mod hm hx⟩

end Sys2Proof.Machine
end

section
/-! Bitwise logic and shifts: the six commands (O35, O36), and the limb shifter (O57). Each command writes one value at its
width, so its bits are those of the value below bit W. A limb of a shifted number is cut out of two neighbouring limbs. -/

namespace Sys2Proof.Machine

/-! ### Bits of operands and results (R23, R24) -/

/-- The bits of an operand are the low W bits of its register (R23). -/
theorem src_testBit (s : State) (w : Width) (r : Reg) (k : Nat) :
    (s.src w r).testBit k = (decide (k < w.bits) && (s.reg r).getLsbD k) := Nat.testBit_mod_two_pow ..

/-- The bits of a result written at a width are those of the value below bit W, and 0 above (R24). -/
theorem writeW_reg_getLsbD (w : Width) (r : Reg) (v : Nat) (s : State) (k : Nat) :
    ((s.writeW w r v).reg r).getLsbD k = (decide (k < w.bits) && v.testBit k) := by
  rw [BitVec.getLsbD, writeW_reg_toNat, Nat.testBit_mod_two_pow]

/-- A command that raises no error and whose one effect is to write a value at a width completes with the bits of that value,
whatever form `f` they have. -/
theorem exec_writeW_bits {i : Instr} {s : State} {w : Width} {rd : Reg} {v : Nat} {f : Nat → Bool}
    (hkind : writesOnlyRegsAndFlags i = true) (hraises : raises i s = none) (hdest : destinations i = [rd])
    (hbits : statusBits i = []) (heffect : s.effect i = s.writeW w rd v)
    (hvalue : ∀ k, (decide (k < w.bits) && v.testBit k) = f k) :
    ∃ t, exec i s = .next t ∧ Completes [rd] [] s t ∧ ∀ k, (t.reg rd).getLsbD k = f k := by
  obtain ⟨hexec, hcompletes⟩ := exec_completes hkind hraises
  rw [hdest, hbits] at hcompletes
  rw [heffect] at hexec hcompletes
  exact ⟨_, hexec, hcompletes, fun k => (writeW_reg_getLsbD w rd v s k).trans (hvalue k)⟩

/-! ### AND, OR, XOR and NOT (R130 to R133) -/

/-- The complement over W bits inverts each of them (R133). -/
theorem complement_testBit (s : State) (w : Width) (r : Reg) (k : Nat) :
    (2 ^ w.bits - 1 - s.src w r).testBit k = (decide (k < w.bits) && !(s.src w r).testBit k) := by
  rw [Nat.sub_sub, Nat.add_comm, Nat.testBit_two_pow_sub_succ (src_lt s w r)]

/-- Settles O35: each command writes a value whose bits below W are those of the operands' bits. -/
theorem logicActsBitwise : Obligations.LogicActsBitwise := by
  unfold Obligations.LogicActsBitwise
  intro w rd ra rb s
  refine ⟨⟨encodedAs_encode rfl, ?and⟩, ⟨encodedAs_encode rfl, ?or⟩, ⟨encodedAs_encode rfl, ?xor⟩,
    ⟨encodedAs_encode rfl, ?not⟩⟩
  case and =>
    refine exec_writeW_bits rfl rfl rfl rfl rfl fun k => ?_
    rw [Nat.testBit_and, src_testBit, src_testBit]
    cases decide (k < w.bits) <;> rfl
  case or =>
    refine exec_writeW_bits rfl rfl rfl rfl rfl fun k => ?_
    rw [Nat.testBit_or, src_testBit, src_testBit]
    cases decide (k < w.bits) <;> rfl
  case xor =>
    refine exec_writeW_bits rfl rfl rfl rfl rfl fun k => ?_
    rw [Nat.testBit_xor, src_testBit, src_testBit]
    cases decide (k < w.bits) <;> rfl
  case not =>
    refine exec_writeW_bits rfl rfl rfl rfl rfl fun k => ?_
    rw [complement_testBit, src_testBit]
    cases decide (k < w.bits) <;> rfl

/-! ### SHL and SHR (R134, R135) -/

/-- A count of W or more leaves no bit below bit W, as the formula of the smaller counts says too (R134). -/
theorem shiftLeft_eq (w : Width) (a n : Nat) : shiftLeft w a n = a * 2 ^ n % 2 ^ w.bits := by
  rw [shiftLeft]
  split_ifs with h
  · exact (Nat.mod_eq_zero_of_dvd ((Nat.pow_dvd_pow 2 h).mul_left a)).symm
  · rfl

/-- A count of W or more leaves nothing of a W-bit value, as the formula of the smaller counts says too (R135). -/
theorem shiftRight_eq {w : Width} {a : Nat} (ha : a < 2 ^ w.bits) (n : Nat) : shiftRight w a n = a / 2 ^ n := by
  rw [shiftRight]
  split_ifs with h
  · exact (Nat.div_eq_of_lt (ha.trans_le (Nat.pow_le_pow_right Nat.two_pos h))).symm
  · rfl

/-- Bit k of a left shift is the bit n below it, or a zero that entered (R134). -/
theorem shiftLeft_testBit (w : Width) (a n k : Nat) :
    (shiftLeft w a n).testBit k = (decide (k < w.bits) && (decide (n ≤ k) && a.testBit (k - n))) := by
  rw [shiftLeft_eq, Nat.testBit_mod_two_pow, Nat.testBit_mul_two_pow]

/-- Bit k of a right shift is the bit n above it (R135). -/
theorem shiftRight_testBit {w : Width} {a : Nat} (ha : a < 2 ^ w.bits) (n k : Nat) :
    (shiftRight w a n).testBit k = a.testBit (k + n) := by
  rw [shiftRight_eq ha, Nat.testBit_div_two_pow]

/-- Settles O36: the bits that a shift moves come from the low W bits of its source, for every count. -/
theorem shiftsMoveBits : Obligations.ShiftsMoveBits := by
  unfold Obligations.ShiftsMoveBits
  intro w rd ra imm s
  refine ⟨⟨encodedAs_encode rfl, ?shl⟩, ⟨encodedAs_encode rfl, ?shr⟩⟩
  case shl =>
    refine exec_writeW_bits rfl rfl rfl rfl rfl fun k => ?_
    rw [shiftLeft_testBit, src_testBit]
    by_cases hk : k < w.bits
    · have hsource : k - imm.toNat < w.bits := (Nat.sub_le ..).trans_lt hk
      simp [hk, hsource]
    · simp [hk]
  case shr =>
    refine exec_writeW_bits rfl rfl rfl rfl rfl fun k => ?_
    rw [shiftRight_testBit (src_lt s w ra), src_testBit]
    by_cases hk : k + imm.toNat < w.bits
    · have hdest : k < w.bits := (Nat.le_add_right ..).trans_lt hk
      simp [hk, hdest]
    · simp [hk]

/-! ### The limbs of a value, one by one (R7) -/

/-- Limb i of a value: L bits from bit L·i on. -/
def limbAt (L v i : Nat) : Nat := v / 2 ^ (L * i) % 2 ^ L

theorem limbAt_lt (L v i : Nat) : limbAt L v i < 2 ^ L := Nat.mod_lt _ (Nat.two_pow_pos L)

theorem limbAt_zero (L v : Nat) : limbAt L v 0 = v % 2 ^ L := by
  rw [limbAt, Nat.mul_zero, Nat.pow_zero, Nat.div_one]

theorem limbAt_succ (L v i : Nat) : limbAt L v (i + 1) = limbAt L (v / 2 ^ L) i := by
  rw [limbAt, limbAt, two_pow_limb_succ, Nat.div_div_eq_div_mul]

theorem limbsOf_eq_map (L n v : Nat) : limbsOf L n v = (List.range n).map (limbAt L v) := by
  induction n generalizing v with
  | zero => rfl
  | succ n ih =>
    rw [limbsOf, ih, List.range_succ_eq_map, List.map_cons, List.map_map, limbAt_zero]
    exact congrArg _ (List.map_congr_left fun i _ => (limbAt_succ L v i).symm)

/-- Beyond the limbs of a value that fits them there are only zeros, in the list and in the value. -/
theorem limbsOf_getD {L n v : Nat} (h : v < 2 ^ (L * n)) (i : Nat) : (limbsOf L n v).getD i 0 = limbAt L v i := by
  rw [limbsOf_eq_map, List.getD_eq_getElem?_getD, List.getElem?_map]
  by_cases hi : i < n
  · rw [List.getElem?_range hi]
    rfl
  · have hpow : 2 ^ (L * n) ≤ 2 ^ (L * i) :=
      Nat.pow_le_pow_right Nat.two_pos (Nat.mul_le_mul_left L (Nat.le_of_not_lt hi))
    rw [limbAt, Nat.div_eq_of_lt (h.trans_le hpow), List.getElem?_eq_none (by simpa using hi), Option.map_none,
      Option.getD_none, Nat.zero_mod]

/-- Limbs of a value that does not fit them have its remainder. -/
theorem limbValue_limbsOf_mod (L n v : Nat) : limbValue L (limbsOf L n v) = v % 2 ^ (L * n) := by
  induction n generalizing v with
  | zero => rw [limbsOf, limbValue, Nat.mul_zero, Nat.pow_zero, Nat.mod_one]
  | succ n ih => rw [limbsOf, limbValue, ih, two_pow_limb_succ, Nat.mod_mul]

/-! ### The limb shifter (R136) -/

/-- A digit in base S·T that starts inside a digit of x: the upper part of that digit, and above it the lower part of the
next one. -/
theorem div_mod_eq_digit_parts (S T x : Nat) :
    x / S % (S * T) = x / (S * T) % (S * T) * T % (S * T) + x % (S * T) / S := by
  calc x / S % (S * T)
      = x / S % T + T * (x / S / T % S) := by rw [Nat.mul_comm S T, Nat.mod_mul]
    _ = x / (S * T) % S * T + x / S % T := by rw [Nat.div_div_eq_div_mul]; ring
    _ = x / (S * T) % (S * T) * T % (S * T) + x % (S * T) / S := by
      rw [Nat.mul_mod_mul_right, Nat.mod_mul_right_mod, Nat.mod_mul_right_div_self]

/-- A limb that starts s bits into limb j is made up of limbs j + 1 and j. -/
theorem limbAt_shift {L s : Nat} (hs : s ≤ L) (v j : Nat) :
    v / 2 ^ (L * j + s) % 2 ^ L = limbAt L v (j + 1) * 2 ^ (L - s) % 2 ^ L + limbAt L v j / 2 ^ s := by
  have hL : 2 ^ L = 2 ^ s * 2 ^ (L - s) := by rw [← Nat.pow_add, Nat.add_sub_cancel' hs]
  rw [limbAt, limbAt, Nat.mul_succ, Nat.pow_add, Nat.pow_add, ← Nat.div_div_eq_div_mul, ← Nat.div_div_eq_div_mul, hL]
  exact div_mod_eq_digit_parts ..

/-- Each limb of a right shift is the limb of the shifted value (R136). -/
theorem shiftRightLimb_limbsOf {L m a s : Nat} (ha : a < 2 ^ (L * m)) (hs : s < L) (k i : Nat) :
    shiftRightLimb L k s (limbsOf L m a) i = limbAt L (a / 2 ^ (L * k + s)) i := by
  have hposition : L * k + s + L * i = L * (i + k) + s := by ring
  rw [shiftRightLimb, limbsOf_getD ha, limbsOf_getD ha, Nat.add_comm, ← limbAt_shift hs.le, limbAt,
    Nat.div_div_eq_div_mul, ← Nat.pow_add, hposition]

/-- Whole limbs that a left shift brings in are zeros. -/
theorem limbAt_mul_of_lt {L k i : Nat} (h : i < k) (v : Nat) : limbAt L (v * 2 ^ (L * k)) i = 0 := by
  have hdvd : 2 ^ (L * i) * 2 ^ L ∣ v * 2 ^ (L * k) := by
    rw [← Nat.pow_add, ← Nat.mul_succ]
    exact (Nat.pow_dvd_pow 2 (Nat.mul_le_mul_left L h)).mul_left v
  rw [limbAt, ← Nat.mod_mul_right_div_self, Nat.mod_eq_zero_of_dvd hdvd, Nat.zero_div]

/-- A left shift by k whole limbs moves limb j to limb j + k. -/
theorem limbAt_mul_add (L k v j : Nat) : limbAt L (v * 2 ^ (L * k)) (j + k) = limbAt L v j := by
  rw [limbAt, Nat.mul_add, Nat.pow_add, Nat.mul_div_mul_right _ _ (Nat.two_pow_pos (L * k)), limbAt]

/-- In a left shift by s < L bits, limb j + 1 is a limb that starts L - s bits into limb j of the source. -/
theorem limbAt_mul_two_pow_succ {L s : Nat} (hs : s ≤ L) (v j : Nat) :
    limbAt L (v * 2 ^ s) (j + 1) = limbAt L v (j + 1) * 2 ^ s % 2 ^ L + limbAt L v j / 2 ^ (L - s) := by
  have hposition : L * (j + 1) = L * j + (L - s) + s := by rw [Nat.mul_succ, Nat.add_assoc, Nat.sub_add_cancel hs]
  have hshift := limbAt_shift (Nat.sub_le L s) v j
  rw [Nat.sub_sub_self hs] at hshift
  rw [← hshift, limbAt, hposition, Nat.pow_add _ _ s, Nat.mul_div_mul_right _ _ (Nat.two_pow_pos s)]

/-- The guard `s ≠ 0` of R136 leaves out only a term that is 0: a limb has no bit L. -/
theorem carriedBits_eq (L s v j : Nat) :
    (if s ≠ 0 then limbAt L v j / 2 ^ (L - s) else 0) = limbAt L v j / 2 ^ (L - s) := by
  split_ifs with h
  · rfl
  · rw [not_not.1 h, Nat.sub_zero, Nat.div_eq_of_lt (limbAt_lt L v j)]

/-- Each limb of a left shift is the limb of the shifted value (R136): zeros below limb k, the low limb of the source moved up
at limb k, and above it two neighbouring limbs. -/
theorem shiftLeftLimb_limbsOf {L m a s : Nat} (ha : a < 2 ^ (L * m)) (hs : s < L) (k i : Nat) :
    shiftLeftLimb L k s (limbsOf L m a) i = limbAt L (a * 2 ^ (L * k + s)) i := by
  have hamount : a * 2 ^ (L * k + s) = a * 2 ^ s * 2 ^ (L * k) := by rw [Nat.add_comm, Nat.pow_add, Nat.mul_assoc]
  rw [shiftLeftLimb, limbsOf_getD ha, limbsOf_getD ha, hamount]
  obtain hbelow | hfrom := Nat.lt_or_ge i k
  · rw [if_neg (by omega), if_neg (by omega), limbAt_mul_of_lt hbelow]
  obtain ⟨j, rfl⟩ := Nat.exists_eq_add_of_le' hfrom
  rw [if_pos hfrom, Nat.add_sub_cancel, limbAt_mul_add]
  cases j with
  | zero =>
    rw [if_neg (by omega), limbAt_zero, limbAt_zero, Nat.mod_mul_mod, Nat.add_zero]
  | succ j =>
    have hguard : k + 1 ≤ j + 1 + k ∧ s ≠ 0 ↔ s ≠ 0 := and_iff_right (by omega)
    rw [if_congr hguard rfl rfl, Nat.add_sub_cancel, carriedBits_eq, limbAt_mul_two_pow_succ hs.le]

/-- The limb shifter moves the limbs of a value to those of the value shifted left (R136). -/
theorem shiftLeftLimbs_limbsOf {L m a : Nat} (hL : 0 < L) (ha : a < 2 ^ (L * m)) (n : Nat) :
    shiftLeftLimbs L n (limbsOf L m a) = limbsOf L m (a * 2 ^ n) := by
  rw [shiftLeftLimbs, limbsOf_length, limbsOf_eq_map L m (a * 2 ^ n)]
  refine List.map_congr_left fun i _ => ?_
  rw [shiftLeftLimb_limbsOf ha (Nat.mod_lt n hL), Nat.div_add_mod]

/-- The limb shifter moves the limbs of a value to those of the value shifted right (R136). -/
theorem shiftRightLimbs_limbsOf {L m a : Nat} (hL : 0 < L) (ha : a < 2 ^ (L * m)) (n : Nat) :
    shiftRightLimbs L n (limbsOf L m a) = limbsOf L m (a / 2 ^ n) := by
  rw [shiftRightLimbs, limbsOf_length, limbsOf_eq_map L m (a / 2 ^ n)]
  refine List.map_congr_left fun i _ => ?_
  rw [shiftRightLimb_limbsOf ha (Nat.mod_lt n hL), Nat.div_add_mod]

/-- Settles O57: limb by limb the shifter has the limbs of the shifted value, so it has its value modulo 2^(L·m). -/
theorem limbShifterShifts : Obligations.LimbShifterShifts := by
  unfold Obligations.LimbShifterShifts
  intro L m n a hL ha
  constructor
  case left => rw [shiftLeftLimbs_limbsOf hL ha, limbValue_limbsOf_mod]
  case right => rw [shiftRightLimbs_limbsOf hL ha, limbValue_limbsOf ((Nat.div_le_self ..).trans_lt ha)]

end Sys2Proof.Machine
end

section
/-! The comparator: CMP (O29, O30). Its three flags are the order of the integers, of which exactly one case holds, and a
difference modulo 2^W is 0 exactly when the operands are equal. -/

namespace Sys2Proof.Machine

/-! ### The order of two integers -/

/-- Exactly one of less, equal and greater holds (R140). -/
theorem order_toNat_sum (a b : Nat) : (decide (a < b)).toNat + (decide (a = b)).toNat + (decide (b < a)).toNat = 1 := by
  obtain h | rfl | h := Nat.lt_trichotomy a b
  · simp [h, h.ne, h.not_gt]
  · simp
  · simp [h, h.ne', h.not_gt]

/-- The difference modulo m of two values below m is 0 exactly when they are equal (R102, R142). -/
theorem wrapped_sub_eq_zero_iff {m a b : Nat} (ha : a < m) (hb : b < m) : (a + m - b) % m = 0 ↔ a = b := by
  rw [wrapped_sub ha hb]
  split_ifs <;> omega

/-! ### CMP (R140, R142) -/

/-- CMP raises no error, and writes the order of its operands (R140). -/
theorem exec_cmp_next (w : Width) (ra rb : Reg) (s : State) :
    ∃ t, exec (.cmp w ra rb) s = .next t ∧ Completes [] bitsOrder s t ∧
      t.flagLT = decide (s.src w ra < s.src w rb) ∧ t.flagEQ = decide (s.src w ra = s.src w rb) ∧
      t.flagGT = decide (s.src w rb < s.src w ra) := by
  obtain ⟨hexec, hcompletes⟩ := exec_completes (i := .cmp w ra rb) (s := s) rfl rfl
  exact ⟨_, hexec, hcompletes, setOrder_flagLT .., setOrder_flagEQ .., setOrder_flagGT ..⟩

/-- Settles O29: CMP raises no error, and its flags decide the three cases of the order. -/
theorem cmpWritesTheOrder : Obligations.CmpWritesTheOrder := by
  unfold Obligations.CmpWritesTheOrder
  intro w ra rb s
  obtain ⟨t, hexec, hcompletes, hlt, heq, hgt⟩ := exec_cmp_next w ra rb s
  refine ⟨encodedAs_encode rfl, t, hexec, hcompletes, ?_, ?_, ?_, ?_⟩
  · rw [hlt, decide_eq_true_iff]
  · rw [heq, decide_eq_true_iff]
  · rw [hgt, decide_eq_true_iff]
  · rw [hlt, heq, hgt, order_toNat_sum]

/-- Settles O30: LT and the borrow are the same comparison, and the exchanged CMP compares the other way round. -/
theorem cmpAgreesWithSub : Obligations.CmpAgreesWithSub := by
  unfold Obligations.CmpAgreesWithSub
  intro w rd ra rb s
  obtain ⟨t, hcmp, -, hlt, heq, -⟩ := exec_cmp_next w ra rb s
  obtain ⟨u, hsub, -, hdiff, hborrow⟩ := exec_sub_next w rd ra rb s
  obtain ⟨v, hexchanged, -, -, heq', hgt'⟩ := exec_cmp_next w rb ra s
  refine ⟨t, u, v, hcmp, hsub, hexchanged, hlt.trans hborrow.symm, ?zero, hgt'.trans hlt.symm, ?equal⟩
  case zero =>
    calc t.flagEQ = true
        ↔ s.src w ra = s.src w rb := by rw [heq, decide_eq_true_iff]
      _ ↔ (u.reg rd).toNat = 0 := by rw [hdiff, wrapped_sub_eq_zero_iff (src_lt s w ra) (src_lt s w rb)]
      _ ↔ u.reg rd = 0#512 := by rw [BitVec.toNat_eq, BitVec.toNat_zero]
  case equal => rw [heq', heq, decide_eq_decide, eq_comm]

end Sys2Proof.Machine
end

section
/-! The modular unit (O37 to O43), and Montgomery reduction (O59). A result below its modulus fills its register and is read
back whole by the next command, so the laws of R158 are laws of residues. One pass of Montgomery reduction is the same step
for a limb and for the whole radix: it adds the multiple of the modulus that makes the value divisible. -/

namespace Sys2Proof.Machine

/-! ### Errors and results of a modular command (R146) -/

/-- A modulus of 0 raises ModulusZero before any other error (R146, R218). -/
theorem firstOf_cons_modulusZero {m : Nat} (h : m = 0) (rest : List (Bool × ErrorKind)) :
    firstOf ((m == 0, .modulusZero) :: rest) = some .modulusZero := if_pos (beq_iff_eq.2 h)

/-- A value below an operand is below 2^W, so the register it is written to holds all of it (R146). -/
theorem writeW_reg_toNat_of_lt {w : Width} {rc : Reg} {v : Nat} {s : State} (h : v < s.src w rc) (rd : Reg) :
    ((s.writeW w rd v).reg rd).toNat = v := by
  rw [writeW_reg_toNat, Nat.mod_eq_of_lt (h.trans (src_lt s w rc))]

/-- A register that holds a value below an operand holds it as an operand (R23). -/
theorem src_of_reg_lt {w : Width} {r rc : Reg} {v : Nat} {s t : State} (h : (t.reg r).toNat = v) (hv : v < s.src w rc) :
    t.src w r = v := by
  rw [State.src, h, Nat.mod_eq_of_lt (hv.trans (src_lt s w rc))]

/-- MODADD with a modulus that is not 0 writes the residue of the exact sum (R149). -/
theorem exec_modadd_next (w : Width) (rd ra rb rc : Reg) {s : State} (h : s.src w rc ≠ 0) :
    ∃ t, exec (.modadd w rd ra rb rc) s = .next t ∧ Completes [rd] [] s t ∧
      (t.reg rd).toNat = (s.src w ra + s.src w rb) % s.src w rc := by
  obtain ⟨hexec, hcompletes⟩ := exec_completes (i := .modadd w rd ra rb rc) rfl (firstOf_modulusZero h)
  exact ⟨_, hexec, hcompletes, writeW_residue_reg_toNat w rd rc _ s s h⟩

/-- MODSUB with a modulus that is not 0 writes the residue of the exact difference (R150). -/
theorem exec_modsub_next (w : Width) (rd ra rb rc : Reg) {s : State} (h : s.src w rc ≠ 0) :
    ∃ t, exec (.modsub w rd ra rb rc) s = .next t ∧ Completes [rd] [] s t ∧
      (t.reg rd).toNat = residue ((s.src w ra : Int) - (s.src w rb : Int)) (s.src w rc) := by
  obtain ⟨hexec, hcompletes⟩ := exec_completes (i := .modsub w rd ra rb rc) rfl (firstOf_modulusZero h)
  obtain ⟨hlt, -⟩ := residue_spec ((s.src w ra : Int) - (s.src w rb : Int)) (s.src w rc) (Nat.pos_of_ne_zero h)
  exact ⟨_, hexec, hcompletes, writeW_reg_toNat_of_lt hlt rd⟩

/-- MODPOW with a modulus that is not 0 writes the residue of the exact power (R152). -/
theorem exec_modpow_next (w : Width) (rd ra rb rc : Reg) {s : State} (h : s.src w rc ≠ 0) :
    ∃ t, exec (.modpow w rd ra rb rc) s = .next t ∧ Completes [rd] [] s t ∧
      (t.reg rd).toNat = s.src w ra ^ s.src w rb % s.src w rc := by
  obtain ⟨hexec, hcompletes⟩ := exec_completes (i := .modpow w rd ra rb rc) rfl (firstOf_modulusZero h)
  refine ⟨_, hexec, hcompletes, ?_⟩
  simp only [State.effect, modPower_eq _ _ _ _ (src_lt s w rb)]
  exact writeW_residue_reg_toNat w rd rc _ s s h

/-- A modular command with the one error ModulusZero fails with it, or leaves the one value below m that is congruent to
the value it reduces (R146). -/
theorem exec_failsOrReduces {i : Instr} {w : Width} {rd rc : Reg} {v : Nat} {s : State}
    (hraises : raises i s = firstOf [(s.src w rc == 0, .modulusZero)])
    (hnext : s.src w rc ≠ 0 → ∃ t, exec i s = .next t ∧ Completes [rd] [] s t ∧ (t.reg rd).toNat = v % s.src w rc) :
    (s.src w rc = 0 → ∃ t, exec i s = .next t ∧ FailsWith .modulusZero (encode i) s t) ∧
    (s.src w rc ≠ 0 → ∃ t, exec i s = .next t ∧ Completes [rd] [] s t ∧ (t.reg rd).toNat < s.src w rc ∧
      (t.reg rd).toNat ≡ v [MOD s.src w rc]) := by
  refine ⟨fun hzero => exec_failsWith (hraises.trans (firstOf_cons_modulusZero hzero [])), fun hne => ?_⟩
  obtain ⟨t, hexec, hcompletes, hvalue⟩ := hnext hne
  refine ⟨t, hexec, hcompletes, ?_⟩
  rw [hvalue]
  exact ⟨Nat.mod_lt _ (Nat.pos_of_ne_zero hne), Nat.mod_modEq ..⟩

/-! ### MODRED, MODADD, MODSUB, MODMUL and MODPOW (R148 to R152) -/

/-- Settles O37: the one check of MODRED, and the residue it writes. -/
theorem modredWritesResidue : Obligations.ModredWritesResidue := by
  unfold Obligations.ModredWritesResidue
  exact fun w rd ra rc s => ⟨encodedAs_encode rfl, exec_failsOrReduces rfl (exec_modred_next w rd ra rc)⟩

/-- Settles O38: the one check of MODADD, and the residue of the sum of the integers. -/
theorem modaddReducesExactSum : Obligations.ModaddReducesExactSum := by
  unfold Obligations.ModaddReducesExactSum
  exact fun w rd ra rb rc s => ⟨encodedAs_encode rfl, exec_failsOrReduces rfl (exec_modadd_next w rd ra rb rc)⟩

/-- The residue of a difference and the number subtracted add up to the other one (R150, R158). -/
theorem residue_sub_add_modEq (a b : Nat) {m : Nat} (hm : 0 < m) : residue ((a : Int) - (b : Int)) m + b ≡ a [MOD m] := by
  obtain ⟨-, hdvd⟩ := residue_spec ((a : Int) - (b : Int)) m hm
  refine Nat.modEq_of_dvd ?_
  rwa [Nat.cast_add, Int.add_comm, ← Int.sub_sub]

/-- Settles O39: the one check of MODSUB, and the residue of the difference of the integers. -/
theorem modsubReducesExactDifference : Obligations.ModsubReducesExactDifference := by
  unfold Obligations.ModsubReducesExactDifference
  intro w rd ra rb rc s
  refine ⟨encodedAs_encode rfl, fun hzero => exec_failsWith (firstOf_cons_modulusZero hzero []), fun hne => ?_⟩
  have hm := Nat.pos_of_ne_zero hne
  obtain ⟨hlt, -⟩ := residue_spec ((s.src w ra : Int) - (s.src w rb : Int)) (s.src w rc) hm
  obtain ⟨t, hexec, hcompletes, hvalue⟩ := exec_modsub_next w rd ra rb rc hne
  refine ⟨t, hexec, hcompletes, ?_⟩
  rw [hvalue]
  exact ⟨hlt, residue_sub_add_modEq _ _ hm⟩

/-- Settles O40: the one check of MODMUL, and the residue of the product of the integers. -/
theorem modmulReducesExactProduct : Obligations.ModmulReducesExactProduct := by
  unfold Obligations.ModmulReducesExactProduct
  exact fun w rd ra rb rc s => ⟨encodedAs_encode rfl, exec_failsOrReduces rfl (exec_modmul_next w rd ra rb rc)⟩

/-- Settles O41: the one check of MODPOW, and the residue of the power of the integers. -/
theorem modpowReducesExactPower : Obligations.ModpowReducesExactPower := by
  unfold Obligations.ModpowReducesExactPower
  exact fun w rd ra rb rc s => ⟨encodedAs_encode rfl, exec_failsOrReduces rfl (exec_modpow_next w rd ra rb rc)⟩

/-! ### MODINV (R154) -/

/-- Reducing an operand modulo the other keeps the gcd. -/
theorem gcd_mod_left (a m : Nat) : Nat.gcd (a % m) m = Nat.gcd a m := by
  rw [← Nat.gcd_rec, Nat.gcd_comm]

/-- The two checks of MODINV in their order (R218). -/
theorem raises_modinv (w : Width) (rd ra rc : Reg) (s : State) :
    raises (.modinv w rd ra rc) s = if s.src w rc = 0 then some .modulusZero
      else if Nat.gcd (s.src w ra % s.src w rc) (s.src w rc) = 1 then none else some .notInvertible := by
  simp [raises, firstOf, gcd_mod_left]

/-- MODINV of an operand that is coprime to the modulus writes a value below the modulus whose product with the operand
is 1 (R154). -/
theorem exec_modinv_next (w : Width) (rd ra rc : Reg) {s : State} (hm : s.src w rc ≠ 0)
    (hgcd : Nat.gcd (s.src w ra % s.src w rc) (s.src w rc) = 1) :
    ∃ t, exec (.modinv w rd ra rc) s = .next t ∧ Completes [rd] [] s t ∧ (t.reg rd).toNat < s.src w rc ∧
      s.src w ra * (t.reg rd).toNat % s.src w rc = 1 % s.src w rc := by
  have hraises : raises (.modinv w rd ra rc) s = none := by rw [raises_modinv, if_neg hm, if_pos hgcd]
  obtain ⟨hexec, hcompletes⟩ := exec_completes rfl hraises
  obtain ⟨hlt, hinverse⟩ := inverse_spec w (s.src w ra) (s.src w rc) (Nat.pos_of_ne_zero hm) (src_lt s w rc) hgcd
  have hvalue := writeW_reg_toNat_of_lt hlt rd
  refine ⟨_, hexec, hcompletes, hvalue.trans_lt hlt, ?_⟩
  exact (congrArg (s.src w ra * · % s.src w rc) hvalue).trans hinverse

/-- Settles O42: the two checks of MODINV in their order, the inverse by extended Euclid, and its uniqueness. -/
theorem modinvWritesTheInverse : Obligations.ModinvWritesTheInverse := by
  unfold Obligations.ModinvWritesTheInverse
  intro w rd ra rc s
  refine ⟨encodedAs_encode rfl, fun hzero => ?zero, fun hm hgcd => ?notInvertible, fun hm hgcd => ?inverse⟩
  case zero => exact exec_failsWith (by rw [raises_modinv, if_pos hzero])
  case notInvertible => exact exec_failsWith (by rw [raises_modinv, if_neg hm, if_neg hgcd])
  case inverse =>
    obtain ⟨t, hexec, hcompletes, hlt, hinverse⟩ := exec_modinv_next w rd ra rc hm hgcd
    exact ⟨t, hexec, hcompletes, hlt, hinverse, fun y hy hay => inverse_unique _ _ _ _ hgcd hy hlt hay hinverse⟩

/-! ### The laws of the modular unit (R158) -/

/-- R158 (a): MODADD of b after MODSUB of b is MODRED. -/
theorem modsub_then_modadd (w : Width) {rd rb rc : Reg} (rd2 ra : Reg) {s : State} (hb : rb ≠ rd) (hc : rc ≠ rd)
    (hm : s.src w rc ≠ 0) :
    ∃ t u v, exec (.modsub w rd ra rb rc) s = .next t ∧ exec (.modadd w rd2 rd rb rc) t = .next u ∧
      exec (.modred w rd2 ra rc) s = .next v ∧ u.reg rd2 = v.reg rd2 := by
  have hpos := Nat.pos_of_ne_zero hm
  obtain ⟨hlt, -⟩ := residue_spec ((s.src w ra : Int) - (s.src w rb : Int)) (s.src w rc) hpos
  obtain ⟨t, hmodsub, hcompletes, hdiff⟩ := exec_modsub_next w rd ra rb rc hm
  have hmt : t.src w rc = s.src w rc := hcompletes.src_eq (by simpa using hc) w
  have hbt : t.src w rb = s.src w rb := hcompletes.src_eq (by simpa using hb) w
  obtain ⟨u, hmodadd, -, hsum⟩ := exec_modadd_next w rd2 rd rb rc (hmt ▸ hm)
  obtain ⟨v, hmodred, -, hred⟩ := exec_modred_next w rd2 ra rc hm
  refine ⟨t, u, v, hmodsub, hmodadd, hmodred, BitVec.eq_of_toNat_eq ?_⟩
  rw [hsum, hred, hmt, hbt, src_of_reg_lt hdiff hlt]
  exact residue_sub_add_modEq _ _ hpos

/-- R158 (b): MODPOW with exponent 0 writes 1. -/
theorem modpow_exponent_zero (w : Width) (rd ra : Reg) {rb rc : Reg} {s : State} (hm : 1 < s.src w rc)
    (hb : s.src w rb = 0) : ∃ t, exec (.modpow w rd ra rb rc) s = .next t ∧ t.reg rd = 1#512 := by
  obtain ⟨t, hmodpow, -, hpow⟩ := exec_modpow_next w rd ra rb rc (Nat.ne_zero_of_lt hm)
  refine ⟨t, hmodpow, BitVec.eq_of_toNat_eq ?_⟩
  rw [hpow, hb, Nat.pow_zero, Nat.mod_eq_of_lt hm, BitVec.toNat_one (by decide)]

/-- R158 (b): MODMUL by a after MODPOW is MODPOW with the next exponent. -/
theorem modpow_then_modmul (w : Width) {rd ra rc rb rb2 : Reg} (rd2 : Reg) {s : State} (ha : ra ≠ rd) (hc : rc ≠ rd)
    (hm : s.src w rc ≠ 0) (hb : s.src w rb2 = s.src w rb + 1) :
    ∃ t u v, exec (.modpow w rd ra rb rc) s = .next t ∧ exec (.modmul w rd2 rd ra rc) t = .next u ∧
      exec (.modpow w rd2 ra rb2 rc) s = .next v ∧ u.reg rd2 = v.reg rd2 := by
  obtain ⟨t, hmodpow, hcompletes, hpow⟩ := exec_modpow_next w rd ra rb rc hm
  have hmt : t.src w rc = s.src w rc := hcompletes.src_eq (by simpa using hc) w
  have hat : t.src w ra = s.src w ra := hcompletes.src_eq (by simpa using ha) w
  obtain ⟨u, hmodmul, -, hproduct⟩ := exec_modmul_next w rd2 rd ra rc (hmt ▸ hm)
  obtain ⟨v, hmodpow2, -, hpow2⟩ := exec_modpow_next w rd2 ra rb2 rc hm
  refine ⟨t, u, v, hmodpow, hmodmul, hmodpow2, BitVec.eq_of_toNat_eq ?_⟩
  have hpowt := src_of_reg_lt hpow (Nat.mod_lt _ (Nat.pos_of_ne_zero hm))
  rw [hproduct, hpow2, hmt, hat, hpowt, Nat.mod_mul_mod, hb, Nat.pow_succ]

/-- R158 (c): MODMUL of a value and its MODINV writes 1. -/
theorem modinv_then_modmul (w : Width) {rd ra rc : Reg} (rd2 : Reg) {s : State} (ha : ra ≠ rd) (hc : rc ≠ rd)
    (hm : 1 < s.src w rc) (hgcd : Nat.gcd (s.src w ra) (s.src w rc) = 1) :
    ∃ t u, exec (.modinv w rd ra rc) s = .next t ∧ exec (.modmul w rd2 ra rd rc) t = .next u ∧ u.reg rd2 = 1#512 := by
  have hne := Nat.ne_zero_of_lt hm
  obtain ⟨t, hmodinv, hcompletes, hlt, hinverse⟩ := exec_modinv_next w rd ra rc hne ((gcd_mod_left ..).trans hgcd)
  have hmt : t.src w rc = s.src w rc := hcompletes.src_eq (by simpa using hc) w
  have hat : t.src w ra = s.src w ra := hcompletes.src_eq (by simpa using ha) w
  obtain ⟨u, hmodmul, -, hproduct⟩ := exec_modmul_next w rd2 ra rd rc (hmt ▸ hne)
  refine ⟨t, u, hmodinv, hmodmul, BitVec.eq_of_toNat_eq ?_⟩
  rw [hproduct, hmt, hat, src_of_reg_lt rfl hlt, hinverse, Nat.mod_eq_of_lt hm, BitVec.toNat_one (by decide)]

/-- Settles O43: what the first command keeps and writes is what the second one reads, and the laws hold of residues. -/
theorem modularLaws : Obligations.ModularLaws := by
  unfold Obligations.ModularLaws
  exact ⟨fun w _ rd2 ra _ _ _ hb hc hm => modsub_then_modadd w rd2 ra hb hc hm,
    fun w rd ra _ _ _ hm hb => modpow_exponent_zero w rd ra hm hb,
    fun w _ rd2 _ _ _ _ _ ha hc hm hb => modpow_then_modmul w rd2 ha hc hm hb,
    fun w _ rd2 _ _ _ ha hc hm hgcd => modinv_then_modmul w rd2 ha hc hm hgcd⟩

/-! ### Montgomery reduction (R155) -/

/-- One pass of Montgomery reduction by a radix R: the multiple of m that makes T divisible by R is added, and R is
divided out. -/
def montgomeryPass (R m m' T : Nat) : Nat := (T + T % R * m' % R * m) / R

/-- REDC is one pass by the whole radix, then the final select. -/
theorem redc_eq (R m m' T : Nat) : redc R m m' T = correctOnce m (montgomeryPass R m m' T) := rfl

/-- The limb-serial REDC is one pass a limb, then the final select. -/
theorem redcLimbs_eq (L n m m0 T : Nat) : redcLimbs L n m m0 T = correctOnce m (redcPasses L m m0 n T) := rfl

theorem redcPasses_succ (L m m0 n T : Nat) :
    redcPasses L m m0 (n + 1) T = redcPasses L m m0 n (montgomeryPass (2 ^ L) m m0 T) := rfl

/-- `t` is T with a multiple of m below R·m added and the radix R divided out: what Montgomery reduction by R does before
its final select. -/
def ReducesBy (R m T t : Nat) : Prop := ∃ u < R, t * R = T + u * m

/-- A pass divides the radix out exactly: with m·m' ≡ -1 the multiple of m that it adds is congruent to -T. -/
theorem montgomeryPass_reducesBy {R m m' : Nat} (hR : 0 < R) (h : (m * m' + 1) % R = 0) (T : Nat) :
    ReducesBy R m T (montgomeryPass R m m' T) := by
  refine ⟨T % R * m' % R, Nat.mod_lt _ hR, Nat.div_mul_cancel (Nat.modEq_zero_iff_dvd.1 ?_)⟩
  calc T + T % R * m' % R * m
      ≡ T + T * m' * m [MOD R] :=
        ((Nat.mod_modEq ..).trans ((Nat.mod_modEq T R).mul_right m')).mul_right m |>.add_left T
    _ = T * (m * m' + 1) := by ring
    _ ≡ 0 [MOD R] := Nat.modEq_zero_iff_dvd.2 ((Nat.dvd_of_mod_eq_zero h).mul_left T)

/-- Dividing out one radix and then another divides out their product. -/
theorem ReducesBy.trans {R R' m T t t' : Nat} (h : ReducesBy R m T t) (h' : ReducesBy R' m t t') :
    ReducesBy (R * R') m T t' := by
  obtain ⟨u, hu, heq⟩ := h
  obtain ⟨u', hu', heq'⟩ := h'
  refine ⟨u + R * u', ?_, ?_⟩
  · calc u + R * u' < R + R * u' := Nat.add_lt_add_right hu _
      _ = R * (u' + 1) := by ring
      _ ≤ R * R' := Nat.mul_le_mul_left R hu'
  · calc t' * (R * R') = t' * R' * R := by ring
      _ = t * R + R * u' * m := by rw [heq']; ring
      _ = T + (u + R * u') * m := by rw [heq]; ring

/-- The passes of n limbs divide the radix 2^(L·n) out. -/
theorem redcPasses_reducesBy {L m m0 : Nat} (h : (m * m0 + 1) % 2 ^ L = 0) (n T : Nat) :
    ReducesBy (2 ^ (L * n)) m T (redcPasses L m m0 n T) := by
  induction n generalizing T with
  | zero => exact ⟨0, by simp [redcPasses]⟩
  | succ n ih =>
    rw [two_pow_limb_succ, redcPasses_succ]
    exact (montgomeryPass_reducesBy (Nat.two_pow_pos L) h T).trans (ih _)

/-- From below m·R the value is below 2m, so the final select leaves the value below m with the congruence of REDC. -/
theorem ReducesBy.correctOnce_spec {R m T t : Nat} (h : ReducesBy R m T t) (hT : T < m * R) :
    correctOnce m t < m ∧ correctOnce m t * R ≡ T [MOD m] := by
  obtain ⟨u, hu, heq⟩ := h
  have ht : t < 2 * m := by
    refine Nat.lt_of_mul_lt_mul_right (a := R) ?_
    calc t * R = T + u * m := heq
      _ < m * R + R * m := Nat.add_lt_add_of_lt_of_le hT (Nat.mul_le_mul_right m hu.le)
      _ = 2 * m * R := by ring
  refine ⟨?_, ?_⟩
  · rw [correctOnce]
    split_ifs <;> omega
  · calc correctOnce m t * R
        ≡ t * R [MOD m] := Nat.ModEq.mul_right R (correctOnce_mod m t)
      _ = T + u * m := heq
      _ ≡ T [MOD m] := by simp [Nat.ModEq]

/-- A modulus with an inverse modulo the radix is coprime to it. -/
theorem coprime_of_mul_add_one_mod {R m m' : Nat} (h : (m * m' + 1) % R = 0) : Nat.Coprime m R := by
  have hdvd : Nat.gcd m R ∣ m * m' + 1 := (Nat.gcd_dvd_right m R).trans (Nat.dvd_of_mod_eq_zero h)
  exact Nat.dvd_one.1 ((Nat.dvd_add_right ((Nat.gcd_dvd_left m R).mul_right m')).1 hdvd)

/-- The radix can be divided out of a congruence, and below m congruent values are equal. -/
theorem eq_of_mul_modEq {R m y z : Nat} (hcoprime : Nat.Coprime m R) (hy : y < m) (hz : z < m)
    (h : y * R ≡ z * R [MOD m]) : y = z :=
  Nat.ModEq.eq_of_lt_of_lt (Nat.ModEq.cancel_right_of_coprime hcoprime h) hy hz

/-- REDC gives T·R^(-1) modulo m, below m. -/
theorem redc_spec {R m m' T : Nat} (h : (m * m' + 1) % R = 0) (hT : T < m * R) :
    redc R m m' T < m ∧ redc R m m' T * R ≡ T [MOD m] := by
  have hR : 0 < R := Nat.pos_of_mul_pos_left (Nat.zero_lt_of_lt hT)
  rw [redc_eq]
  exact (montgomeryPass_reducesBy hR h T).correctOnce_spec hT

/-- The limb-serial REDC is REDC: both are below m with the same congruence. -/
theorem redcLimbs_eq_redc {L n m m' m0 T : Nat} (h : (m * m' + 1) % 2 ^ (L * n) = 0) (h0 : (m * m0 + 1) % 2 ^ L = 0)
    (hT : T < m * 2 ^ (L * n)) : redcLimbs L n m m0 T = redc (2 ^ (L * n)) m m' T := by
  obtain ⟨hlt, hmod⟩ := redc_spec h hT
  obtain ⟨hltLimbs, hmodLimbs⟩ := (redcPasses_reducesBy h0 n T).correctOnce_spec hT
  exact eq_of_mul_modEq (coprime_of_mul_add_one_mod h) hltLimbs hlt (hmodLimbs.trans hmod.symm)

/-- The factor R² of the second reduction makes up for the radix that each of the two divides out. -/
theorem montgomeryProduct_eq {R m m' x y : Nat} (h : (m * m' + 1) % R = 0) (hmR : m < R) (hx : x < m) (hy : y < m) :
    montgomeryProduct R m m' x y = x * y % m := by
  have hm : 0 < m := Nat.zero_lt_of_lt hx
  obtain ⟨hlt, hmod⟩ := redc_spec h (Nat.mul_lt_mul'' hx (hy.trans hmR))
  obtain ⟨hlt2, hmod2⟩ := redc_spec h (Nat.mul_lt_mul'' hlt ((Nat.mod_lt (R ^ 2) hm).trans hmR))
  refine eq_of_mul_modEq (coprime_of_mul_add_one_mod h) hlt2 (Nat.mod_lt _ hm) ?_
  calc montgomeryProduct R m m' x y * R
      ≡ redc R m m' (x * y) * (R ^ 2 % m) [MOD m] := hmod2
    _ ≡ redc R m m' (x * y) * R ^ 2 [MOD m] := (Nat.mod_modEq ..).mul_left _
    _ = redc R m m' (x * y) * R * R := by ring
    _ ≡ x * y * R [MOD m] := hmod.mul_right R
    _ ≡ x * y % m * R [MOD m] := (Nat.mod_modEq ..).symm.mul_right R

/-- Settles O59: each pass divides its radix out, and the value below m with the congruence is one. -/
theorem montgomeryReduces : Obligations.MontgomeryReduces := by
  unfold Obligations.MontgomeryReduces
  intro L n m m' m0 h h0
  refine ⟨fun T hT => ?_, fun x y hmR hx hy => montgomeryProduct_eq h hmR hx hy⟩
  obtain ⟨hlt, hmod⟩ := redc_spec h hT
  exact ⟨hlt, hmod, redcLimbs_eq_redc h h0 hT⟩

end Sys2Proof.Machine
end

section
/-! Errors and the error record (O6, O13 to O17): what raises an error, what the taking of one leaves, and that nothing else
touches the record but CLRERR. -/

namespace Sys2Proof.Machine

/-! ### Words that are no command (R212) -/

/-- A word that matches no row of R75 but DIVREM's, and that one with rd = rc, does not decode. -/
theorem exists_decode_error {word : CmdWord}
    (h : ∀ row ∈ opRows, word &&& row.mask = row.pattern → row.op = .DIVREM ∧ word.rd = word.rc) :
    ∃ e, decode word = .error e := by
  cases hdecode : decode word with
  | error e => exact ⟨e, rfl⟩
  | ok i =>
    obtain ⟨row, hrow, hmatch, hne, -⟩ := decode_eq_ok_iff.1 hdecode
    obtain ⟨hop, heq⟩ := h row hrow hmatch
    exact absurd heq (hne hop)

/-- A word that does not decode raises IllegalCommand, whatever the commands mean (R212). -/
theorem issueWord_of_decode_error {word : CmdWord} {e : Illegal} (h : decode word = .error e)
    (run : Instr → State → Result) (s : State) : issueWord run word s = raiseIllegal word s := by
  rw [issueWord, h]

/-- Settles O6: the word does not decode, and the block takes the error IllegalCommand with the word captured. -/
theorem illegalWordRaisesIllegalCommand : Obligations.IllegalWordRaisesIllegalCommand := by
  unfold Obligations.IllegalWordRaisesIllegalCommand
  intro s word rest hhost h
  obtain ⟨e, hdecode⟩ := exists_decode_error h
  rw [step_of_host hhost, performMove, issueWord_of_decode_error hdecode]
  exact raiseError_spec .illegalCommand word { s with host := rest }

/-! ### Commands that go on (R224, R182) -/

/-- A command has a next state, but for the SHAUPD of R182. -/
theorem exists_exec_next {i : Instr} {s : State} (hfit : ¬ overflowsLength i s) : ∃ t, exec i s = .next t := by
  cases hr : raises i s with
  | none => exact ⟨_, exec_of_raises_none hr hfit⟩
  | some e => exact ⟨_, exec_of_raises hr⟩

/-- The case of R182 does not depend on what the host does next. -/
theorem overflowsLength_of_withHost {i : Instr} {s : State} {rest : List HostMove}
    (h : overflowsLength i { s with host := rest }) : overflowsLength i s := by
  obtain ⟨addr, len, rfl, hnone, hle⟩ := h
  exact ⟨addr, len, rfl, hnone, hle⟩

/-- Settles O13: of the moves of the host only an issued word can have no next state, and of the commands only the SHAUPD of
R182. -/
theorem stepGoesOnUnlessLengthOverflows : Obligations.StepGoesOnUnlessLengthOverflows := by
  unfold Obligations.StepGoesOnUnlessLengthOverflows
  intro s
  rcases stepWith_cases exec s with ⟨-, hidle⟩ | ⟨move, rest, hhost, hmove⟩
  · exact .inl ⟨_, hidle⟩
  cases move with
  | abandon | memWrite | memRead | readControl | observeErr | reset => exact .inl ⟨_, hmove⟩
  | issue word =>
    have hstep : step s = issueWord exec word { s with host := rest } := hmove
    cases hdecode : decode word with
    | error e => exact .inl ⟨_, hstep.trans (issueWord_of_decode_error hdecode ..)⟩
    | ok i =>
      have hexec : step s = exec i { s with host := rest } := hstep.trans (issueWord_of_decode hdecode ..)
      by_cases hover : overflowsLength i { s with host := rest }
      · exact .inr ⟨word, rest, i, hhost, hdecode, overflowsLength_of_withHost hover,
          hexec.trans (exec_of_overflowsLength hover)⟩
      · obtain ⟨t, ht⟩ := exists_exec_next hover
        exact .inl ⟨t, hexec.trans ht⟩

/-! ### The error a command raises, and the record (R214 to R219, R200) -/

/-- Settles O14: the checks of a command are those of the matrix, and the taking of an error is its whole effect. -/
theorem failingCommandWritesNothing : Obligations.FailingCommandWritesNothing := by
  unfold Obligations.FailingCommandWritesNothing
  exact fun i s e h => exec_failsWith h

/-- Of the commands, CLRERR alone writes ERR when it succeeds (R30, R200). -/
theorem effect_err {i : Instr} (h : i ≠ .clrerr) (s : State) : (s.effect i).err = s.err := by
  cases i with
  | clrerr => exact absurd rfl h
  | add | sub => exact setC_err ..
  | cmp => exact setOrder_err ..
  | shainit | shaupd | sha256 => exact setSession_err ..
  | shafin => exact (setSession_err ..).trans (setSession_err ..)
  | mulw w => cases w <;> rfl
  | _ => rfl

/-- Settles O15: the writes of a command other than CLRERR reach neither ERR nor ERRCMD. -/
theorem successfulCommandKeepsErrorRecord : Obligations.SuccessfulCommandKeepsErrorRecord := by
  unfold Obligations.SuccessfulCommandKeepsErrorRecord
  intro i s hr hfit
  exact ⟨_, exec_of_raises_none hr hfit, rfl, fun hne => ⟨effect_err hne s, effect_errcmd hne s⟩⟩

/-- What a command answers: the code of the error it raises, or OK (R214). -/
theorem exec_answer {i : Instr} {s t : State} (h : exec i s = .next t) :
    t.answer = some (.response ((raises i s).elim okCode ErrorKind.code)) := by
  rcases exec_next_cases h with ⟨e, hr, rfl⟩ | ⟨hr, rfl⟩
  · rw [hr]
    rfl
  · rw [hr]
    rfl

/-- Settles O16: the answer is that of the error raised, which depends on nothing else. -/
theorem errorsDependOnlyOnWordSizeSessionSources : Obligations.ErrorsDependOnlyOnWordSizeSessionSources := by
  unfold Obligations.ErrorsDependOnlyOnWordSizeSessionSources
  intro i s s' t t' hsize hsession hsources hexec hexec'
  have hraises : raises i s' = raises i s :=
    raises_congr hsize hsession fun w _ r hr => by rw [State.src, State.src, hsources r hr]
  rw [exec_answer hexec, exec_answer hexec', hraises]

@[simp] theorem clearError_err (s : State) : s.clearError.err = 0#4 := setErr_err 0#4 s

/-- Settles O17: CLRERR raises no error, and its one write is that of the error record. -/
theorem clrerrClearsTheErrorRecord : Obligations.ClrerrClearsTheErrorRecord := by
  unfold Obligations.ClrerrClearsTheErrorRecord
  intro s
  have herr : (s.clearError.respond okCode).err = 0#4 := clearError_err s
  refine ⟨encodedAs_encode (i := .clrerr) rfl, s.clearError.respond okCode, rfl, rfl, herr, rfl, ?level, fun _ _ => rfl,
    effect_keepsStatusBut .clrerr s, ⟨rfl, rfl, rfl⟩, fun _ => rfl, rfl⟩
  case level => rw [State.errOut, herr]; rfl

end Sys2Proof.Machine
end

section
/-! The engine as pure functions (O51, O52, O53): absorbing by whole blocks, the bytes of the padding, and the 16-word
scheduler. -/

namespace Sys2Proof.Machine

/-! ### Absorbing by whole blocks (R176) -/

/-- Block j of a byte sequence, 64 bytes each (R176). -/
def blockAt (bytes : List Byte) (j : Nat) : List Byte := (bytes.drop (64 * j)).take 64

/-- The hash words after the whole blocks of a byte sequence (R176). -/
def compressBlocks (h : HashWords) (bytes : List Byte) : HashWords :=
  (List.range (bytes.length / 64)).foldl (fun h j => compress h (blockAt bytes j)) h

/-- What remains after the whole blocks of a byte sequence. -/
def afterBlocks (bytes : List Byte) : List Byte := bytes.drop (64 * (bytes.length / 64))

theorem compressBlocks_short (h : HashWords) {bytes : List Byte} (hlen : bytes.length ≤ 63) :
    compressBlocks h bytes = h := by
  rw [compressBlocks, Nat.div_eq_of_lt (by omega)]
  rfl

theorem afterBlocks_short {bytes : List Byte} (hlen : bytes.length ≤ 63) : afterBlocks bytes = bytes := by
  rw [afterBlocks, Nat.div_eq_of_lt (by omega)]
  rfl

section
variable {block : List Byte} (hblock : block.length = 64) (rest : List Byte)
include hblock

theorem length_div_block_append : (block ++ rest).length / 64 = rest.length / 64 + 1 := by
  rw [List.length_append, hblock]
  omega

/-- Past the first block the blocks are those of the rest. -/
theorem drop_block_append (j : Nat) : (block ++ rest).drop (64 * (j + 1)) = rest.drop (64 * j) := by
  rw [Nat.mul_succ, Nat.add_comm, ← hblock, List.drop_length_add_append]

theorem blockAt_zero_block_append : blockAt (block ++ rest) 0 = block := by
  rw [blockAt, Nat.mul_zero, List.drop_zero, ← hblock, List.take_left]

/-- The first block is compressed before the blocks of the rest. -/
theorem compressBlocks_block_append (h : HashWords) :
    compressBlocks h (block ++ rest) = compressBlocks (compress h block) rest := by
  rw [compressBlocks, length_div_block_append hblock, List.range_succ_eq_map, List.foldl_cons, List.foldl_map,
    blockAt_zero_block_append hblock]
  simp only [blockAt, drop_block_append hblock]
  rfl

theorem afterBlocks_block_append : afterBlocks (block ++ rest) = afterBlocks rest := by
  rw [afterBlocks, length_div_block_append hblock, drop_block_append hblock]
  rfl

end

/-- The byte that fills BUF compresses it and empties BUF (R176). -/
theorem absorbByte_of_full {st : Sponge} {x : Byte} (h : (st.buf ++ [x]).length = 64) :
    absorbByte st x = ⟨compress st.h (st.buf ++ [x]), []⟩ := if_pos h

/-- Any other byte is appended to BUF (R176). -/
theorem absorbByte_of_not_full {st : Sponge} {x : Byte} (h : (st.buf ++ [x]).length ≠ 64) :
    absorbByte st x = ⟨st.h, st.buf ++ [x]⟩ := if_neg h

/-- Absorbing compresses the whole blocks of BUF followed by the input, and leaves the rest in BUF. -/
theorem absorb_eq_compressBlocks (st : Sponge) (bytes : List Byte) (hbuf : st.buf.length ≤ 63) :
    absorb st bytes = ⟨compressBlocks st.h (st.buf ++ bytes), afterBlocks (st.buf ++ bytes)⟩ := by
  induction bytes generalizing st with
  | nil => rw [List.append_nil, compressBlocks_short _ hbuf, afterBlocks_short hbuf, absorb]
  | cons x rest ih =>
    rw [absorb, List.append_cons]
    by_cases hfull : (st.buf ++ [x]).length = 64
    · rw [absorbByte_of_full hfull, ih _ (by simp), compressBlocks_block_append hfull, afterBlocks_block_append hfull]
      rfl
    · have hshort : (st.buf ++ [x]).length ≤ 63 := by
        rw [List.length_append, List.length_singleton] at hfull ⊢
        omega
      rw [absorbByte_of_not_full hfull, ih _ hshort]

/-- Settles O51: absorbing fills BUF to a block again and again, and the blocks of the input are those of the whole. -/
theorem absorbCompressesWholeBlocks : Obligations.AbsorbCompressesWholeBlocks := by
  unfold Obligations.AbsorbCompressesWholeBlocks
  intro st bytes hbuf
  rw [absorb_eq_compressBlocks st bytes hbuf]
  exact ⟨rfl, rfl⟩

/-! ### The padding (R183) -/

/-- The eight bytes of the length are its digits to the base 256, the most significant first (R10). -/
theorem lengthBytes_eq_map (totlen : BitVec 64) :
    lengthBytes totlen = (List.range 8).map fun k => BitVec.ofNat 8 (totlen.toNat / 2 ^ (8 * (7 - k))) := by
  simp only [← Nat.shiftRight_eq_div_pow]
  rfl

/-- Settles O52: the zeros are `padZeros`, which makes the fill of BUF 56 modulo 64. -/
theorem paddingFillsTheLastBlocks : Obligations.PaddingFillsTheLastBlocks := by
  unfold Obligations.PaddingFillsTheLastBlocks
  intro st totlen hbuf
  refine ⟨padZeros st.buf.length, ?bytes, Nat.mod_lt _ (by decide), ?fill, ?blocks,
    pad_empty st totlen (Nat.lt_succ_of_le hbuf)⟩
  case bytes => rw [padding, lengthBytes_eq_map]
  case fill =>
    rw [padZeros]
    omega
  case blocks =>
    rw [padding_length, padZeros]
    split <;> omega

/-! ### The scheduler as a shift register (R177, R189) -/

/-- The words that the window yields in `n` steps, followed by those it then holds. -/
def windowStream : Nat → List Word32 → List Word32
  | 0, window => window
  | n + 1, window => window.getD 0 0 :: windowStream n (windowStep window)

/-- Four bytes form a word (R177). -/
theorem wordsOfBytes_length : ∀ bytes : List Byte, (wordsOfBytes bytes).length = bytes.length / 4
  | [] | [_] | [_, _] | [_, _, _] => by simp [wordsOfBytes]
  | b0 :: b1 :: b2 :: b3 :: rest => by
    simp only [wordsOfBytes, List.length_cons, wordsOfBytes_length rest]
    omega

/-- Among the words so far, newest first, the newest 16 are those of the window, from its end on. -/
theorem getD_reverse_append {window : List Word32} (h : window.length = 16) (older : List Word32) {k : Nat} (hk : k < 16) :
    (window.reverse ++ older).getD k 0 = window.getD (15 - k) 0 := by
  rw [List.getD_append _ _ _ _ (by simpa [h] using hk), List.getD_eq_getElem _ _ (by simpa [h] using hk),
    List.getD_eq_getElem _ _ (by omega), List.getElem_reverse]
  simp only [h, Nat.reduceSub]

/-- The window shifts in the next word of the schedule, which reads no word older than the window's (R177). -/
theorem windowStep_eq {window : List Word32} (h : window.length = 16) (older : List Word32) :
    windowStep window = window.tail ++ [nextScheduleWord (window.reverse ++ older)] := by
  simp only [windowStep, nextScheduleWord, getD_reverse_append h older, Nat.reduceLT, Nat.reduceSub]

/-- The schedule expanded from a window of 16 words, and any older ones, is what the window yields. -/
theorem expandSchedule_reverse (n : Nat) {window : List Word32} (h : window.length = 16) (older : List Word32) :
    (expandSchedule n (window.reverse ++ older)).reverse = older.reverse ++ windowStream n window := by
  induction n generalizing window older with
  | zero => simp [expandSchedule, windowStream]
  | succ n ih =>
    obtain ⟨a, later, rfl⟩ := List.exists_cons_of_length_eq_add_one h
    have hstep : windowStep (a :: later) = later ++ [nextScheduleWord ((a :: later).reverse ++ older)] :=
      windowStep_eq h older
    have hshift : nextScheduleWord ((a :: later).reverse ++ older) :: ((a :: later).reverse ++ older) =
        (windowStep (a :: later)).reverse ++ a :: older := by
      rw [hstep]
      simp
    rw [expandSchedule, hshift, ih (by simpa [hstep] using h)]
    simp [windowStream]

/-- For no more rounds than the window has words, it is the window's own words that drive them. -/
theorem windowRounds_append {ks window : List Word32} (h : ks.length ≤ window.length) (shiftedIn : List Word32)
    (v : HashWords) : windowRounds ks (window ++ shiftedIn) v = shaRounds (ks.zip window) v := by
  induction ks generalizing window shiftedIn v with
  | nil => rfl
  | cons k ks ih =>
    cases window with
    | nil => cases h
    | cons a later =>
      rw [windowRounds, windowStep, List.cons_append, List.tail_cons, List.append_assoc, ih (Nat.le_of_succ_le_succ h)]
      rfl

/-- The rounds that the window drives are those of the words it yields (R178, R189). -/
theorem windowRounds_eq_shaRounds {n : Nat} {ks window : List Word32} (h : ks.length ≤ n + window.length) (v : HashWords) :
    windowRounds ks window v = shaRounds (ks.zip (windowStream n window)) v := by
  induction n generalizing ks window v with
  | zero =>
    rw [Nat.zero_add] at h
    rw [windowStream, ← windowRounds_append h [], List.append_nil]
  | succ n ih =>
    cases ks with
    | nil => rfl
    | cons k ks =>
      have hlen : ks.length ≤ n + (windowStep window).length := by
        simp only [windowStep, List.length_cons, List.length_append, List.length_tail] at h ⊢
        omega
      rw [windowRounds, ih hlen]
      rfl

/-- Settles O53: the 64 words of the schedule are the 48 that the window yields and the 16 it then holds. -/
theorem windowScheduleGivesTheSameRounds : Obligations.WindowScheduleGivesTheSameRounds := by
  unfold Obligations.WindowScheduleGivesTheSameRounds
  intro block h hblock
  have hwindow : (wordsOfBytes block).length = 16 := by rw [wordsOfBytes_length, hblock]
  have hschedule : schedule block = windowStream 48 (wordsOfBytes block) := by
    simpa [schedule] using expandSchedule_reverse 48 hwindow []
  rw [hschedule]
  exact windowRounds_eq_shaRounds (by rw [hwindow]; decide) h

end Sys2Proof.Machine
end

section
/-! The five commands of the engine (O44 to O50). A command that succeeds leaves the state `State.inSession` of its session,
where H, BUF, TOTLEN and SST have been written and OK answered; sequences of commands are computed by that alone. -/

namespace Sys2Proof.Machine

/-! ### A state with its session written (R33) -/

/-- The state after a command that wrote the session: SST, H with BUF, and TOTLEN (R33, R34, R214). -/
def State.inSession (x : SessionState) (st : Sponge) (totlen : BitVec 64) (s : State) : State :=
  (State.setSession x { s.setSponge st with totlen := totlen }).respond okCode

section
variable (x : SessionState) (st : Sponge) (totlen : BitVec 64) (s : State)

@[simp] theorem inSession_session : (s.inSession x st totlen).session = x := setSession_session ..
@[simp] theorem inSession_sponge : (s.inSession x st totlen).sponge = st := rfl
@[simp] theorem inSession_totlen : (s.inSession x st totlen).totlen = totlen := rfl
@[simp] theorem inSession_memBytes : (s.inSession x st totlen).memBytes = s.memBytes := rfl

@[simp] theorem inSession_readBytes (a n : Nat) : (s.inSession x st totlen).readBytes a n = s.readBytes a n :=
  readBytes_of_mem (s := s) (t := s.inSession x st totlen) rfl rfl a n

@[simp] theorem startSession_readBytes (a n : Nat) : s.startSession.readBytes a n = s.readBytes a n :=
  readBytes_of_mem (s := s) (t := s.startSession) rfl rfl a n

/-- The digest that is written after a session is that of its hash words (R187). -/
@[simp] theorem inSession_writeDigest_reg (rd : Reg) :
    ((s.inSession x st totlen).writeDigest rd).reg rd = (digest st.h).setWidth 512 := setReg_reg_same ..

/-- The last of two sessions written stands. -/
@[simp] theorem inSession_inSession (x' : SessionState) (st' : Sponge) (totlen' : BitVec 64) :
    (s.inSession x st totlen).inSession x' st' totlen' = s.inSession x' st' totlen' := by
  simp only [State.inSession, State.setSession, State.respond, State.setSponge,
    putField_putField _ 4 _ _ (show 4 + 2 ≤ 32 by decide)]

/-- Writing the session leaves everything else unchanged. -/
theorem inSession_frame : KeepsRegsBut [] s (s.inSession x st totlen) ∧
    KeepsStatusBut bitsSession s (s.inSession x st totlen) ∧ KeepsErrcmd s (s.inSession x st totlen) ∧
    KeepsMem s (s.inSession x st totlen) ∧ KeepsSize s (s.inSession x st totlen) := by
  refine ⟨fun _ _ => rfl, fun n hn => setSession_bit x _ n ?_, rfl, fun _ => rfl, rfl⟩
  simp [bitsSession] at hn
  omega

end

/-! ### The errors of the commands (R217, R218) -/

theorem raises_shaupd (addr len : BitVec 16) (s : State) : raises (.shaupd addr len) s =
    if s.memBytes < addr.toNat + len.toNat then some .addressRange
    else if s.session = .done then some .invalidSessionState else none := by
  simp [raises, firstOf]

theorem raises_shafin (s : State) :
    raises .shafin s = if s.session = .done then some .invalidSessionState else none := by
  simp [raises, firstOf]

theorem raises_shadig (rd : Reg) (s : State) :
    raises (.shadig rd) s = if s.session = .done then none else some .invalidSessionState := by
  simp [raises, firstOf]

theorem raises_sha256 (rd : Reg) (addr len : BitVec 16) (s : State) : raises (.sha256 rd addr len) s =
    if s.memBytes < addr.toNat + len.toNat then some .addressRange else none := by
  simp [raises, firstOf]

theorem raises_shaupd_eq_none {addr len : BitVec 16} {s : State} (hrange : addr.toNat + len.toNat ≤ s.memBytes)
    (hdone : s.session ≠ .done) : raises (.shaupd addr len) s = none := by
  rw [raises_shaupd, if_neg (Nat.not_lt.2 hrange), if_neg hdone]

/-! ### The commands that succeed -/

/-- SHAINIT starts a session (R180). -/
theorem exec_shainit (s : State) : exec .shainit s = .next (s.inSession .init ⟨hashIV, []⟩ 0#64) := rfl

/-- A SHAUPD that passes its checks absorbs its bytes and counts their bits (R181). -/
theorem exec_shaupd {addr len : BitVec 16} {s : State} (hrange : addr.toNat + len.toNat ≤ s.memBytes)
    (hdone : s.session ≠ .done) (hfit : s.totlen.toNat + 8 * len.toNat < 2 ^ 64) :
    exec (.shaupd addr len) s = .next (s.inSession .absorbing
      (absorb s.sponge (s.readBytes addr.toNat len.toNat)) (s.totlen + BitVec.ofNat 64 (8 * len.toNat))) := by
  refine exec_of_raises_none (raises_shaupd_eq_none hrange hdone) ?_
  rintro ⟨addr', len', heq, -, hle⟩
  cases heq
  omega

/-- A SHAFIN that passes its check pads the message and ends the session (R184). -/
theorem exec_shafin {s : State} (hdone : s.session ≠ .done) :
    exec .shafin s = .next (s.inSession .done (pad s.sponge s.totlen) s.totlen) := by
  have hraises : raises .shafin s = none := by rw [raises_shafin, if_neg hdone]
  rw [exec_of_raises_none hraises (fun ⟨_, _, heq, _⟩ => nomatch heq)]
  exact congrArg succeed (setSession_setSession .finalizing .done s.finishSession)

/-- A SHADIG in Done writes the digest (R187). -/
theorem exec_shadig (rd : Reg) {s : State} (hdone : s.session = .done) :
    exec (.shadig rd) s = .next ((s.writeDigest rd).respond okCode) ∧
      Completes [rd] [] s ((s.writeDigest rd).respond okCode) :=
  exec_completes (i := .shadig rd) rfl (by rw [raises_shadig, if_pos hdone])

/-- A SHA256 that passes its check writes the whole session of a message that stands in MEM, and its digest (R186). -/
theorem exec_sha256 (rd : Reg) {addr len : BitVec 16} {s : State} (hrange : addr.toNat + len.toNat ≤ s.memBytes) :
    exec (.sha256 rd addr len) s = .next ((s.inSession .done
      (pad (absorb ⟨hashIV, []⟩ (s.readBytes addr.toNat len.toNat)) (BitVec.ofNat 64 (8 * len.toNat)))
      (BitVec.ofNat 64 (8 * len.toNat))).writeDigest rd) := by
  have hraises : raises (.sha256 rd addr len) s = none := by rw [raises_sha256, if_neg (Nat.not_lt.2 hrange)]
  rw [exec_of_raises_none hraises (fun ⟨_, _, heq, _⟩ => nomatch heq)]
  simp only [State.effect, State.finishSession, State.absorbMem, startSession_readBytes, startSession_totlen,
    BitVec.zero_add]
  rfl

/-! ### SHAINIT, SHAUPD, SHAFIN and SHADIG (R180, R181, R184, R187) -/

/-- Settles O44: SHAINIT raises no error, and writes the session alone. -/
theorem shainitStartsSession : Obligations.ShainitStartsSession := by
  unfold Obligations.ShainitStartsSession
  intro s
  exact ⟨encodedAs_encode (i := .shainit) rfl, _, exec_shainit s, rfl, inSession_session .., rfl, rfl, rfl,
    inSession_frame ..⟩

theorem absorb_eq_foldl (st : Sponge) (bytes : List Byte) : absorb st bytes = bytes.foldl absorbByte st := by
  induction bytes generalizing st with
  | nil => rfl
  | cons x rest ih => exact ih (absorbByte st x)

theorem readBytes_eq_map (s : State) (a n : Nat) : s.readBytes a n = (List.range n).map fun k => s.readByte (a + k) := by
  apply List.ext_getElem
  · simp
  · intro k hk _
    rw [readBytes_getElem _ _ _ _ (by simpa using hk)]
    simp

/-- Settles O45: the two failures by the checks in their order, the refusal of R182, and the bytes absorbed. -/
theorem shaupdAbsorbsBytes : Obligations.ShaupdAbsorbsBytes := by
  unfold Obligations.ShaupdAbsorbsBytes
  intro addr len s
  refine ⟨encodedAs_encode (i := .shaupd addr len) rfl, fun hout => ?range, fun hrange hdone => ?done,
    fun hrange hdone hover => ?refused, fun hrange hdone hfit => ?absorbs⟩
  case range => exact exec_failsWith (by rw [raises_shaupd, if_pos hout])
  case done => exact exec_failsWith (by rw [raises_shaupd, if_neg (Nat.not_lt.2 hrange), if_pos hdone])
  case refused => exact exec_of_overflowsLength ⟨addr, len, rfl, raises_shaupd_eq_none hrange hdone, hover⟩
  case absorbs =>
    refine ⟨_, exec_shaupd hrange hdone hfit, rfl, inSession_session .., ?sponge, ?totlen, inSession_frame ..⟩
    case sponge => exact (absorb_eq_foldl ..).trans (by rw [readBytes_eq_map]; rfl)
    case totlen =>
      rw [inSession_totlen, BitVec.toNat_add, BitVec.toNat_ofNat]
      omega

/-- Settles O46: the one check, and the padding, which leaves BUF empty. -/
theorem shafinFinishesSession : Obligations.ShafinFinishesSession := by
  unfold Obligations.ShafinFinishesSession
  intro s
  refine ⟨encodedAs_encode (i := .shafin) rfl, fun hdone => exec_failsWith (by rw [raises_shafin, if_pos hdone]),
    fun hdone hbuf => ?_⟩
  exact ⟨_, exec_shafin hdone, rfl, inSession_session .., rfl, pad_empty _ _ (Nat.lt_succ_of_le hbuf), rfl,
    inSession_frame ..⟩

/-- A 32-bit word appended below moves the words above it up by 2^32 (R171). -/
theorem toNat_append_word {n : Nat} (x : BitVec n) (y : Word32) : (x ++ y).toNat = x.toNat * 2 ^ 32 + y.toNat := by
  rw [BitVec.toNat_append, ← Nat.shiftLeft_add_eq_or_of_lt y.isLt, Nat.shiftLeft_eq]

/-- The digest as a number: H[0] in bits 255:224 and so on down to H[7] (R187). -/
theorem digest_toNat (h : HashWords) : (digest h).toNat = h.w0.toNat * 2 ^ 224 + h.w1.toNat * 2 ^ 192 +
    h.w2.toNat * 2 ^ 160 + h.w3.toNat * 2 ^ 128 + h.w4.toNat * 2 ^ 96 + h.w5.toNat * 2 ^ 64 + h.w6.toNat * 2 ^ 32 +
    h.w7.toNat := by
  simp only [digest, toNat_append_word]
  omega

/-- Settles O47: the one check, and the digest zero-extended. -/
theorem shadigWritesDigest : Obligations.ShadigWritesDigest := by
  unfold Obligations.ShadigWritesDigest
  intro rd s
  refine ⟨encodedAs_encode (i := .shadig rd) rfl, fun hdone => exec_failsWith (by rw [raises_shadig, if_neg hdone]),
    fun hdone => ?_⟩
  obtain ⟨hexec, hcompletes⟩ := exec_shadig rd hdone
  refine ⟨_, hexec, hcompletes, ?_⟩
  calc ((s.setReg rd ((digest s.hash).setWidth 512)).reg rd).toNat
      = ((digest s.hash).setWidth 512).toNat := by rw [setReg_reg_same]
    _ = (digest s.hash).toNat := BitVec.toNat_setWidth_of_le (by decide)
    _ = _ := digest_toNat s.hash

/-! ### SHA256 and the message in pieces (R186, R188) -/

/-- SHAFIN and SHADIG after the last input of a session. -/
theorem runCommands_shafin_shadig (rd : Reg) {s : State} (hdone : s.session ≠ .done) :
    runCommands [.shafin, .shadig rd] s =
      .next ((s.inSession .done (pad s.sponge s.totlen) s.totlen).writeDigest rd) := by
  obtain ⟨hexec, -⟩ := exec_shadig rd (inSession_session .done (pad s.sponge s.totlen) s.totlen s)
  rw [runCommands, exec_shafin hdone, andThen, runCommands, hexec]
  rfl

/-- Settles O48: each of the four commands overwrites the session of the one before. -/
theorem sha256IsTheFourCommands : Obligations.Sha256IsTheFourCommands := by
  unfold Obligations.Sha256IsTheFourCommands
  intro rd addr len s
  refine ⟨encodedAs_encode (i := .sha256 rd addr len) rfl,
    fun hout => exec_failsWith (by rw [raises_sha256, if_pos hout]), fun hrange => ⟨_, exec_sha256 rd hrange, rfl, ?_⟩⟩
  have hlen : len.toNat < 2 ^ 16 := len.isLt
  have hfit : (0#64).toNat + 8 * len.toNat < 2 ^ 64 := by
    rw [BitVec.toNat_zero]
    omega
  have hupd := exec_shaupd (s := s.inSession .init ⟨hashIV, []⟩ 0#64) hrange (by simp) hfit
  rw [runCommands, exec_shainit, andThen, runCommands, hupd, andThen, runCommands_shafin_shadig _ (by simp)]
  simp

/-- SHAUPD of each piece in turn absorbs all their bytes and counts their bits, in MEM as the last piece filled it. -/
theorem feedPieces_next {pieces : List Piece} {s : State} {x : SessionState} {n : Nat} (hx : x ≠ .done) (st : Sponge)
    (hrange : ∀ p ∈ pieces, p.addr.toNat + p.len.toNat ≤ s.memBytes)
    (hfit : n + 8 * (pieces.flatMap (pieceBytes s)).length < 2 ^ 64) :
    ∃ m y, y ≠ .done ∧ feedPieces pieces (s.inSession x st (BitVec.ofNat 64 n)) =
      .next (State.inSession y (absorb st (pieces.flatMap (pieceBytes s)))
        (BitVec.ofNat 64 (n + 8 * (pieces.flatMap (pieceBytes s)).length)) { s with mem := m }) := by
  induction pieces generalizing s x st n with
  | nil => exact ⟨s.mem, x, hx, rfl⟩
  | cons p rest ih =>
    obtain ⟨hp, hrest⟩ := List.forall_mem_cons.1 hrange
    have hlen : (pieceBytes s p).length = p.len.toNat := readBytes_length ..
    rw [List.flatMap_cons, List.length_append, hlen] at hfit
    have hupd := exec_shaupd (s := (s.withPiece p).inSession x st (BitVec.ofNat 64 n)) hp (by simpa using hx)
      (by rw [inSession_totlen, BitVec.toNat_ofNat]; omega)
    have hfit' : n + 8 * p.len.toNat + 8 * (rest.flatMap (pieceBytes s)).length < 2 ^ 64 := by omega
    obtain ⟨m, y, hy, hfeed⟩ := ih (s := s.withPiece p) (x := .absorbing) (by decide) (absorb st (pieceBytes s p)) hrest
      hfit'
    refine ⟨m, y, hy, ?_⟩
    calc feedPieces (p :: rest) (s.inSession x st (BitVec.ofNat 64 n))
        = andThen (exec (.shaupd p.addr p.len) ((s.withPiece p).inSession x st (BitVec.ofNat 64 n)))
            (feedPieces rest) := rfl
      _ = feedPieces rest ((s.withPiece p).inSession .absorbing (absorb st (pieceBytes s p))
            (BitVec.ofNat 64 (n + 8 * p.len.toNat))) := by
          rw [hupd, inSession_inSession, inSession_readBytes, inSession_sponge, inSession_totlen, ← BitVec.ofNat_add]
          rfl
      _ = .next (State.inSession y (absorb (absorb st (pieceBytes s p)) (rest.flatMap (pieceBytes s)))
            (BitVec.ofNat 64 (n + 8 * p.len.toNat + 8 * (rest.flatMap (pieceBytes s)).length)) { s with mem := m }) :=
          hfeed
      _ = _ := by rw [← absorb_append, ← List.flatMap_cons, List.flatMap_cons, List.length_append, hlen, Nat.mul_add,
            Nat.add_assoc]

/-- The session of a message in pieces ends with the digest of the whole message (R188). -/
theorem exec_pieces_digest (rd : Reg) {pieces : List Piece} {s : State}
    (hrange : ∀ p ∈ pieces, p.addr.toNat + p.len.toNat ≤ s.memBytes)
    (hfit : 8 * (pieces.flatMap (pieceBytes s)).length < 2 ^ 64) :
    ∃ t, andThen (andThen (exec .shainit s) (feedPieces pieces)) (runCommands [.shafin, .shadig rd]) = .next t ∧
      t.reg rd = (digest (hashMessage (pieces.flatMap (pieceBytes s)))).setWidth 512 := by
  obtain ⟨m, y, hy, hfeed⟩ := feedPieces_next (x := .init) (n := 0) (by decide) ⟨hashIV, []⟩ hrange
    (by rwa [Nat.zero_add])
  rw [exec_shainit, andThen, hfeed, Nat.zero_add, andThen, runCommands_shafin_shadig rd (by simpa using hy)]
  refine ⟨_, rfl, ?_⟩
  rw [inSession_writeDigest_reg, inSession_sponge, inSession_totlen, hashMessage]

/-- SHA256 writes the digest of the message that stands in its operand (R186). -/
theorem exec_sha256_digest (rd : Reg) {addr len : BitVec 16} {s : State}
    (hrange : addr.toNat + len.toNat ≤ s.memBytes) :
    ∃ u, exec (.sha256 rd addr len) s = .next u ∧
      u.reg rd = (digest (hashMessage (s.readBytes addr.toNat len.toNat))).setWidth 512 := by
  refine ⟨_, exec_sha256 rd hrange, ?_⟩
  rw [inSession_writeDigest_reg, hashMessage, readBytes_length]

/-- Settles O49: both ways the digest is that of the whole message, absorbed and padded. -/
theorem chunkingDoesNotMatter : Obligations.ChunkingDoesNotMatter := by
  unfold Obligations.ChunkingDoesNotMatter
  intro pieces rd s hrange hfit
  obtain ⟨t, hpieces, hdigest⟩ := exec_pieces_digest rd hrange hfit
  refine ⟨t, hpieces, hdigest, fun s' addr len hrange' hbytes => ?_⟩
  obtain ⟨u, hwhole, hdigest'⟩ := exec_sha256_digest rd hrange'
  exact ⟨u, hwhole, by rw [hdigest', hdigest, hbytes]⟩

/-! ### The transitions of SST (R172, R185) -/

/-- The taking of an error keeps SST (R215). -/
@[simp] theorem capture_session (e : ErrorKind) (word : CmdWord) (s : State) :
    (s.capture e word).session = s.session := by
  unfold State.capture
  split
  · exact setErr_session ..
  · rfl

/-- The session state that the writes of a command leave (R172). -/
def sessionAfter (i : Instr) (x : SessionState) : SessionState :=
  match i with
  | .shainit => .init
  | .shaupd _ _ => .absorbing
  | .shafin | .sha256 _ _ _ => .done
  | _ => x

theorem effect_session (i : Instr) (s : State) : (s.effect i).session = sessionAfter i s.session := by
  cases i with
  | shainit | shaupd | shafin | sha256 => exact setSession_session ..
  | add | sub => exact setC_session ..
  | cmp => exact setOrder_session ..
  | clrerr => exact setErr_session ..
  | mulw w => cases w <;> rfl
  | _ => rfl

/-- In Done no command but SHAINIT and SHA256 writes H or SST: SHAUPD and SHAFIN fail (R185). -/
theorem raises_ne_none_of_done {i : Instr} {s : State} (hdone : s.session = .done) (hw : writesHash i = true)
    (hinit : i ≠ .shainit) (hsha : ∀ rd addr len, i ≠ .sha256 rd addr len) : raises i s ≠ none := by
  cases i with
  | shainit => exact absurd rfl hinit
  | sha256 rd addr len => exact absurd rfl (hsha rd addr len)
  | shaupd addr len =>
    rw [raises_shaupd, if_pos hdone]
    split <;> exact Option.some_ne_none _
  | shafin =>
    rw [raises_shafin, if_pos hdone]
    exact Option.some_ne_none _
  | _ => cases hw

theorem sessionAfter_of_not_writesHash {i : Instr} (hw : writesHash i = false) (x : SessionState) :
    sessionAfter i x = x := by
  cases i with
  | shainit | shaupd | shafin | sha256 => cases hw
  | _ => rfl

/-- Settles O50: failure keeps SST and H, success leaves what `sessionAfter` says, and in Done a command that would write H
is SHAINIT or SHA256 or fails. -/
theorem sessionTransitionsAndImmutableDigest : Obligations.SessionTransitionsAndImmutableDigest := by
  unfold Obligations.SessionTransitionsAndImmutableDigest
  intro i s t _ hexec
  refine ⟨fun hsome => ?fails, fun hnone => ?succeeds, fun hdone => ?done, fun hopen => ?notDone,
    fun hdone hinit hsha => ?immutable⟩
  case fails =>
    rcases exec_next_cases hexec with ⟨e, -, rfl⟩ | ⟨hnone, -⟩
    · exact capture_session ..
    · exact absurd hnone hsome
  case succeeds =>
    rcases exec_next_cases hexec with ⟨e, hsome, -⟩ | ⟨-, rfl⟩
    · cases hsome.symm.trans hnone
    · exact effect_session i s
  case done => exact ⟨by rw [raises_shafin, if_pos hdone], fun rd => by rw [raises_shadig, if_pos hdone]⟩
  case notDone => exact ⟨by rw [raises_shafin, if_neg hopen], fun rd => by rw [raises_shadig, if_neg hopen]⟩
  case immutable =>
    rcases exec_next_cases hexec with ⟨e, -, rfl⟩ | ⟨hnone, rfl⟩
    · exact ⟨capture_hash .., (capture_session ..).trans hdone⟩
    · have hw : writesHash i = false := by
        by_contra hw
        exact raises_ne_none_of_done hdone (by simpa using hw) hinit hsha hnone
      obtain ⟨hhash, -⟩ := effect_keepsHash hw s
      refine ⟨hhash, ?_⟩
      calc (s.effect i).session = sessionAfter i s.session := effect_session i s
        _ = .done := by rw [sessionAfter_of_not_writesHash hw, hdone]

end Sys2Proof.Machine
end
